-- ==== Sys2Proof/Word.lean ====
section
/-! DEFINITION. The two machine words of the block: the 32-bit host-port word (00_scope R5: DATA_W = 32) and the
byte, which is also a symbol (R5: SYM_W = 8). -/

namespace Sys2Proof

/-- A host-port data word, a register value or a count (00_scope R5: DATA_W = COUNT_W = 32). -/
abbrev Word := BitVec 32

/-- A buffer byte; an input or output symbol is one (00_scope R5: SYM_W = 8, and R12 Symbol). -/
abbrev Byte := BitVec 8

end Sys2Proof
end

