-- ==== Sys2Proof/Syntax.lean ====
section
/-! DEFINITION. The command words the engine runs, one constructor per row of spec/opcode_table.json (30_encoding R82 and R84). -/

namespace Sys2Proof

/-- A command. Command words carry no operands (30_encoding R81); only the two illegal rows carry the bits that tell
their words apart. -/
inductive Instr where
  /-- NOP, word 0x00000000 (40_control R102). -/
  | nop
  /-- CLEAR, word 0x00000001 (40_control R103). -/
  | clear
  /-- FREQ_COUNT, word 0x00000002 (41_frequency R110). -/
  | freqCount
  /-- BUILD_TREE, word 0x00000003 (42_tree_builder R123). -/
  | buildTree
  /-- GEN_CODES, word 0x00000004 (43_codebook R140). -/
  | genCodes
  /-- PACK, word 0x00000005 (44_bitpack R150). -/
  | pack
  /-- UNPACK, word 0x00000006 (44_bitpack R155). -/
  | unpack
  /-- ENCODE, word 0x00000007 (45_entrypoints R170). -/
  | encode
  /-- ILLEGAL, a reserved opcode 0x8..0xF with RES = 0; `low` is OP[2:0] (30_encoding R84, 40_control R104). -/
  | illegalOp (low : BitVec 3)
  /-- ILLEGAL, a word whose RES field is not 0, whatever OP holds (30_encoding R84, 40_control R104). -/
  | illegalRes (res : BitVec 28) (op : BitVec 4)
deriving DecidableEq, Repr

end Sys2Proof
end

