-- ==== Sys2Proof/WellFormed.lean ====
section
/-! DEFINITION. Which terms of Instr stand for a row of the opcode table. -/

namespace Sys2Proof

/-- The one check the table makes on an instruction's fields: the last row applies only to a word with at least one RES
bit set (30_encoding R83 and R84). -/
def Instr.wellFormed : Instr → Bool
  | .nop => true
  | .clear => true
  | .freqCount => true
  | .buildTree => true
  | .genCodes => true
  | .pack => true
  | .unpack => true
  | .encode => true
  | .illegalOp _ => true
  | .illegalRes res _ => res != 0

/-- The instruction stands for a row of the opcode table. -/
abbrev Instr.WellFormed (i : Instr) : Prop := i.wellFormed = true

end Sys2Proof
end

