-- ==== Sys2Proof/Decode.lean ====
section
/-! DEFINITION. From a 32-bit command word to a command and back (30_encoding R80, R82, R83). -/

namespace Sys2Proof

/-- OP, bits [3:0] of a command word (30_encoding R80). -/
def opField (w : Word) : BitVec 4 := w.extractLsb' 0 4

/-- RES, bits [31:4] of a command word (30_encoding R80). -/
def resField (w : Word) : BitVec 28 := w.extractLsb' 4 28

/-- The command a word stands for (30_encoding R83). Decoding is total: a reserved or malformed word is a command too,
one of the two ILLEGAL rows. -/
def decode (w : Word) : Instr :=
  if resField w = 0 then
    match (opField w).toNat with
    | 0 => .nop
    | 1 => .clear
    | 2 => .freqCount
    | 3 => .buildTree
    | 4 => .genCodes
    | 5 => .pack
    | 6 => .unpack
    | 7 => .encode
    | _ => .illegalOp (w.extractLsb' 0 3)
  else .illegalRes (resField w) (opField w)

/-- The word of a command (30_encoding R82; the reserved words of R84 keep their own bits). -/
def encode : Instr → Word
  | .nop => 0x00000000
  | .clear => 0x00000001
  | .freqCount => 0x00000002
  | .buildTree => 0x00000003
  | .genCodes => 0x00000004
  | .pack => 0x00000005
  | .unpack => 0x00000006
  | .encode => 0x00000007
  | .illegalOp low => 0x00000008 ||| low.setWidth 32
  | .illegalRes res op => res ++ op

/-- A word as spec/opcode_table.json numbers it, `nbits` bits wide, given to the decoder. A command word is always one
32-bit write (30_encoding R85); bits above `nbits` are 0. -/
def decodeTableWord (nbits w : Nat) : Option Instr :=
  if nbits ≤ 32 then some (decode (BitVec.ofNat 32 (w % 2 ^ nbits))) else none

end Sys2Proof
end

