-- ==== Sys2Proof/Config.lean ====
section
/-! DEFINITION. What an implementation fixes (00_scope R5, 10_state R24, R25, 20_memory R76) and the free values the spec
leaves open (70_reset_and_hazards R209, 93 U1, U2, U4). -/

namespace Sys2Proof

/-- The parameters of 00_scope R5 that a model takes as arguments. T_CMD and T_INIT are not here: the model has no
time (70_reset_and_hazards R210), and the order of `State.events` stands for them. BASE_ADDR is not here: every address
of the model is an offset from it (20_memory R76). -/
structure Params where
  /-- IN_DEPTH, in bytes. -/
  inDepth    : Nat
  /-- OUT_DEPTH, in bytes. -/
  outDepth   : Nat
  /-- PAY_DEPTH, in bytes; the payload buffer holds PAY_DEPTH·8 bits. -/
  payDepth   : Nat
  /-- MAX_CODE_LEN, the longest code the CB table stores. -/
  maxCodeLen : Nat
deriving DecidableEq, Repr

/-- The default parameters of 00_scope R5. -/
def Params.default : Params := { inDepth := 4096, outDepth := 4096, payDepth := 4096, maxCodeLen := 255 }

/-- A legal buffer depth: a multiple of 4, from 4 to 65536 (00_scope R5). -/
abbrev Params.depthOk (d : Nat) : Prop := d % 4 = 0 ∧ 4 ≤ d ∧ d ≤ 65536

/-- The parameters are ones 00_scope R5 allows. -/
abbrev Params.Ok (p : Params) : Prop :=
  Params.depthOk p.inDepth ∧ Params.depthOk p.outDepth ∧ Params.depthOk p.payDepth ∧
    1 ≤ p.maxCodeLen ∧ p.maxCodeLen ≤ 255

namespace Config

/-- ID, "HUFF" in ASCII (00_scope R1, 10_state R24). -/
def idValue : Word := 0x48554646

/-- VERSION, MAJOR 1 and MINOR 0 (10_state R25). -/
def versionValue : Word := 0x00010000

/-- Where the IN window starts on the host port (20_memory R63). -/
def inBase : Nat := 0x10000

/-- Where the OUT window starts (20_memory R64). -/
def outBase : Nat := 0x20000

/-- Where the PAY window starts (20_memory R65). -/
def payBase : Nat := 0x30000

/-- N_NODE, the capacity of the NODE table (00_scope R5). -/
def nNode : Nat := 511

/-- The `n`-th read of a buffer byte that nothing has written since reset: some 8-bit value, possibly another one at
each read (70_reset_and_hazards R209, 93 U2, 92 D40). A free value: it has no body, and no statement rests on it.
DESIGN CHOICE among the two treatments R209 allows (a fault or a fresh draw); safe. Log entry 1. -/
opaque freeByte : Nat → Byte

end Config

end Sys2Proof
end

