-- ==== Sys2Proof/Machine/State.lean ====
section
/-! DEFINITION. The block's state as plain data (10_state R20), the host's side of the port, the reasons a step can stop,
and the state after reset (10_state R53, 70_reset_and_hazards R200). -/

namespace Sys2Proof.Machine

/-! ## Parts of the state -/

/-- ENGINE, the block's sequencing state (10_state R22). -/
inductive Engine where
  /-- The post-reset initialisation phase (70_reset_and_hazards R201). -/
  | init
  /-- No command is running. -/
  | idle
  /-- The command of this accepted word is running. The spec's BUSY(op) names only OP; the model keeps the whole word,
  since the body that runs is the one decoded from it (40_control R100; DEDUCED, safe, log entry 4). -/
  | busy (word : Word)
deriving DecidableEq, Repr

/-- One entry of the NODE table (10_state R47). -/
structure Node where
  isLeaf : Bool
  symbol : Byte
  count  : Word
  left   : BitVec 9
  right  : BitVec 9
deriving DecidableEq, Repr

/-- An all-zero NODE entry, what the model stores where the spec leaves an unobservable entry open (93 U3). -/
def Node.zero : Node := { isLeaf := false, symbol := 0, count := 0, left := 0, right := 0 }

/-- One entry of the CB table (10_state R48). -/
structure CbEntry where
  len  : Byte
  code : BitVec 256
deriving DecidableEq, Repr

/-- A CB entry with no code: LEN 0, CODE 0 (10_state R48). -/
def CbEntry.zero : CbEntry := { len := 0, code := 0 }

/-- The registers of the map (10_state R23). -/
inductive Reg where
  | id | version | ctrl | status | irqEn | irqStatus | inLen | bitLen | outLen | errPos | errSym | total | nsym
  | nnodes | root | sel | freqData | nodeInfo | nodeCount | cbLen
  /-- CB_CODEk, k = 0..7. -/
  | cbCode (k : Fin 8)
  | cfgInDepth | cfgOutDepth | cfgPayDepth | cfgMaxCodeLen
deriving DecidableEq, Repr

/-- What an address of the host port reaches (10_state R23, 20_memory R62). -/
inductive Target where
  /-- A register of the map. -/
  | reg (r : Reg)
  /-- The four bytes of the IN, OUT or PAY window from this host-port address on. -/
  | buffer (a : Nat)
  /-- The reserved range, or past a buffer's depth. -/
  | absent
deriving DecidableEq, Repr

/-! ## Errors of commands -/

/-- The error codes a command can end with (60_exceptions R181). -/
inductive ErrCode where
  | illegalOp | badLen | countOverflow | noTree | codeTooLong | unknownSymbol | payloadOverflow | malformedPayload
  | malformedLength | outOverflow
deriving DecidableEq, Repr

/-- The arguments of `raise CmdError(code, pos, sym)` (60_exceptions R180). -/
structure CmdError where
  code : ErrCode
  pos  : Nat
  sym  : Byte
deriving DecidableEq, Repr

/-! ## The host's side -/

/-- The response of a host transaction (20_memory R61). -/
inductive Resp where
  | okay
  | slverr
deriving DecidableEq, Repr

/-- What a host transaction gives back: a read answers data and a response, a write a response (20_memory R61). -/
inductive Response where
  | read (data : Word) (resp : Resp)
  | write (resp : Resp)
deriving DecidableEq, Repr

/-- A host transaction (20_memory R61): an 18-bit byte address and, for a write, the data and its four byte strobes. -/
inductive Txn where
  | read (addr : BitVec 18)
  | write (addr : BitVec 18) (strb : BitVec 4) (data : Word)
deriving DecidableEq, Repr

/-- One thing that happens next (00_scope R9: exactly two agents take steps; 70_reset_and_hazards R200: the reset
input). -/
inductive Event where
  /-- The host issues this transaction. -/
  | txn (t : Txn)
  /-- The engine moves: INIT ends, or the running command completes; nothing happens when it is idle. -/
  | engine
  /-- PRESETn is asserted and deasserted again. -/
  | reset
deriving DecidableEq, Repr

/-! ## Why a step can stop -/

/-- Why the machine stops. -/
inductive Fault where
  /-- Raised by GEN_CODES when walking the NODE table from ROOT does not end within N_NODE levels (ENCODE runs the same
  body on the tree it has just built, so it never gets here): the table is not a tree, and 43_codebook R141 gives its entries no path. Safe: no state a run from reset
  reaches has such a table (10_state R52 item 4), and the spec gives no effect there. Log entry 5. -/
  | nodeTableIsNoTree
deriving DecidableEq, Repr

/-- Why an instruction has no meaning. -/
inductive Refusal where
  /-- An instruction of the table that has no meaning yet; raised by `exec` only, by mnemonic. Safe: it stops. -/
  | notModelled (mnemonic : String)
deriving DecidableEq, Repr

/-! ## The state -/

/-- The block's state, every component of 10_state R20, and the three fields of the model's own (`events`, `resp`,
`draws`). STATUS is held by its fields, BUSY being a function of ENGINE (R22, R27); `irq` is a function of the registers
(60_exceptions R189). A register's read-as-zero bits are not stored. -/
structure State where
  /-- The parameters (00_scope R5), which the CFG registers read (10_state R45). -/
  cfg       : Params
  /-- ENGINE (10_state R22). -/
  engine    : Engine
  /-- STATUS.LAST_OP (10_state R27). -/
  lastOp    : BitVec 4
  /-- STATUS.ERR_CODE (10_state R27). -/
  errCode   : BitVec 4
  /-- STATUS.ERR (10_state R27). -/
  err       : Bool
  /-- STATUS.TREE_VALID (10_state R27, R49). -/
  treeValid : Bool
  /-- IRQ_EN[2:0]: DONE_EN, ERR_EN, DROP_EN (10_state R28). -/
  irqEn     : BitVec 3
  /-- IRQ_STATUS[2:0]: DONE, ERR, DROP (10_state R29). -/
  irqStatus : BitVec 3
  /-- IN_LEN (10_state R30). -/
  inLen     : Word
  /-- BIT_LEN (10_state R31). -/
  bitLen    : Word
  /-- OUT_LEN (10_state R32). -/
  outLen    : Word
  /-- ERR_POS (10_state R33). -/
  errPos    : Word
  /-- ERR_SYM[7:0] (10_state R34). -/
  errSym    : Byte
  /-- TOTAL (10_state R35). -/
  total     : Word
  /-- NSYM[8:0] (10_state R36). -/
  nsym      : BitVec 9
  /-- NNODES[9:0] (10_state R37). -/
  nnodes    : BitVec 10
  /-- ROOT.VALID (10_state R38). -/
  rootValid : Bool
  /-- ROOT.INDEX (10_state R38). -/
  rootIndex : BitVec 9
  /-- SEL[8:0] (10_state R39). -/
  sel       : BitVec 9
  /-- The FREQ table (10_state R46). -/
  freq      : Vector Word 256
  /-- The NODE table (10_state R47). -/
  nodes     : Vector Node 511
  /-- The CB table (10_state R48). -/
  cb        : Vector CbEntry 256
  /-- The IN, OUT and PAY buffers (10_state R50) at their host-port byte addresses (20_memory R63, R64, R65): the bytes
  written since reset, addresses strictly rising. A byte not listed has not been written. -/
  mem       : List Host.Cell
  /-- The model's own: what happens next, in order. -/
  events    : List Event
  /-- The model's own: the response of the last host transaction. -/
  resp      : Option Response
  /-- The model's own: how many free values have been drawn. -/
  draws     : Nat
deriving DecidableEq, Repr

/-- How a command's body ends (40_control R101, 60_exceptions R180). -/
inductive BodyResult where
  /-- The body ran to its end. -/
  | done (s : State)
  /-- The body raised an error; the state is the one it had reached. -/
  | raised (e : CmdError) (s : State)
  /-- The spec gives the body no effect on this state. -/
  | stopped (f : Fault)
deriving DecidableEq, Repr

/-- Right after reset deasserts (10_state R53, 70_reset_and_hazards R200): every register at its reset value, ENGINE
in INIT, no buffer byte written. The NODE entries (log entry 6), `events` (log entry 2), `resp` (log entry 3) and
`draws` (log entry 1) are the model's choice; FREQ and CB hold from the start the zeros that INIT leaves in them, since
nothing can read them before INIT ends (log entry 6). The parameters are the defaults (00_scope R5). -/
def State.reset : State where
  cfg       := Params.default
  engine    := .init
  lastOp    := 0
  errCode   := 0
  err       := false
  treeValid := false
  irqEn     := 0
  irqStatus := 0
  inLen     := 0
  bitLen    := 0
  outLen    := 0
  errPos    := 0
  errSym    := 0
  total     := 0
  nsym      := 0
  nnodes    := 0
  rootValid := false
  rootIndex := 0
  sel       := 0
  freq      := Vector.replicate 256 0
  nodes     := Vector.replicate 511 Node.zero
  cb        := Vector.replicate 256 CbEntry.zero
  mem       := []
  events    := []
  resp      := none
  draws     := 0

end Sys2Proof.Machine
end

