-- ==== Sys2Proof/Machine/Ops.lean ====
section
/-! DEFINITION. The named operations over the buffers and the tables (20_memory R63–R65, 10_state R46–R48), and raising a
command error, the block's one form of exception (60_exceptions R180). There is no return from one: the next accepted
command clears the report (R187; `State.accept` in Flags.lean). -/

namespace Sys2Proof.Machine

/-! ## Buffer memory -/

/-- The byte stored at an address, if something has written it since reset. -/
def Memory.lookup : List Host.Cell → Nat → Option Byte
  | [], _ => none
  | (a, b) :: m, x => if a = x then some b else Memory.lookup m x

/-- Store one byte, keeping the addresses strictly rising. -/
def Memory.write : List Host.Cell → Nat → Byte → List Host.Cell
  | [], x, v => [(x, v)]
  | (a, b) :: m, x, v =>
    if x < a then (x, v) :: (a, b) :: m
    else if x = a then (x, v) :: m
    else (a, b) :: Memory.write m x v

/-- Store bytes at consecutive addresses from `x` up. -/
def Memory.writeBytes : List Host.Cell → Nat → List Byte → List Host.Cell
  | m, _, [] => m
  | m, x, v :: vs => Memory.writeBytes (Memory.write m x v) (x + 1) vs

/-- Read one byte, and the number of free values drawn after the read: a byte nothing has written since reset reads as a
fresh free value (70_reset_and_hazards R209). -/
def Memory.read (m : List Host.Cell) (x draws : Nat) : Byte × Nat :=
  match Memory.lookup m x with
  | some b => (b, draws)
  | none => (Config.freeByte draws, draws + 1)

/-- Read `n` bytes from `x` up, in ascending order. -/
def Memory.readBytes (m : List Host.Cell) : Nat → Nat → Nat → List Byte × Nat
  | _, 0, draws => ([], draws)
  | x, n + 1, draws =>
    let r := Memory.read m x draws
    let rest := Memory.readBytes m (x + 1) n r.2
    (r.1 :: rest.1, rest.2)

/-- The canonical form of the buffers: addresses strictly rising. An unlisted byte reads as no fixed value, so no entry
is redundant. -/
abbrev Memory.wf (m : List Host.Cell) : Prop := (m.map Prod.fst).Pairwise (· < ·)

/-- A host-port address that lies in a buffer (20_memory R62, R63, R64, R65). -/
abbrev inBuffer (p : Params) (a : Nat) : Prop :=
  (Config.inBase ≤ a ∧ a < Config.inBase + p.inDepth) ∨ (Config.outBase ≤ a ∧ a < Config.outBase + p.outDepth) ∨
    (Config.payBase ≤ a ∧ a < Config.payBase + p.payDepth)

/-- Read `n` buffer bytes from host-port address `a` up. -/
def State.readBytes (s : State) (a n : Nat) : List Byte × State :=
  let r := Memory.readBytes s.mem a n s.draws
  (r.1, { s with draws := r.2 })

/-- Write buffer bytes from host-port address `a` up. -/
def State.writeBytes (s : State) (a : Nat) (bs : List Byte) : State :=
  { s with mem := Memory.writeBytes s.mem a bs }

/-- `{b3, b2, b1, b0}`: the word whose byte at the lowest index is in bits [7:0] (20_memory R63, R67). -/
def wordOfBytes : List Byte → Word
  | [] => 0
  | b :: bs => b.setWidth 32 ||| (wordOfBytes bs <<< 8)

/-- The four bytes of a word, lowest index first: byte j is bits [8j+7:8j] (20_memory R63). -/
def bytesOfWord (w : Word) : List Byte :=
  [w.extractLsb' 0 8, w.extractLsb' 8 8, w.extractLsb' 16 8, w.extractLsb' 24 8]

/-! ## Tables -/

/-- FREQ[x] (10_state R46). -/
def State.freqAt (s : State) (x : Byte) : Word := s.freq[x.toNat]'x.isLt

/-- FREQ[x] <- c. -/
def setFreq (freq : Vector Word 256) (x : Byte) (c : Word) : Vector Word 256 := freq.set x.toNat c x.isLt

/-- Σ FREQ[s] over all symbols (10_state R35), an exact sum. -/
def freqSum (freq : Vector Word 256) : Nat := (freq.toList.map BitVec.toNat).sum

/-- CB[x] (10_state R48). -/
def State.cbAt (s : State) (x : Byte) : CbEntry := s.cb[x.toNat]'x.isLt

/-- CB[x] <- e. -/
def setCb (cb : Vector CbEntry 256) (x : Byte) (e : CbEntry) : Vector CbEntry 256 := cb.set x.toNat e x.isLt

/-- NODE[i]. The table has entries 0..510 (10_state R47); the one index a 9-bit field holds beyond them, 511, names no
entry, and no state a run reaches reads it (NNODES ≤ 511). It is given the zero entry. -/
def nodeAt (nodes : Vector Node 511) (i : BitVec 9) : Node := (nodes[i.toNat]?).getD Node.zero

/-- NODE[i] <- nd; nothing happens past the table's end, which no run reaches. -/
def setNode (nodes : Vector Node 511) (i : Nat) (nd : Node) : Vector Node 511 := nodes.setIfInBounds i nd

/-- Bits [32k+31 : 32k] of a CODE field (10_state R44). -/
def codeWord (code : BitVec 256) (k : Nat) : Word := code.extractLsb' (32 * k) 32

/-- The CODE field with bits [32k+31 : 32k] replaced (10_state R44). -/
def setCodeWord (code : BitVec 256) (k : Nat) (v : Word) : BitVec 256 :=
  (code &&& ~~~((0xFFFFFFFF : BitVec 256) <<< (32 * k))) ||| (v.setWidth 256 <<< (32 * k))

/-! ## Raising a command error -/

/-- The value of STATUS.ERR_CODE for an error (60_exceptions R181). -/
def ErrCode.bits : ErrCode → BitVec 4
  | .illegalOp => 1
  | .badLen => 2
  | .countOverflow => 3
  | .noTree => 4
  | .codeTooLong => 5
  | .unknownSymbol => 6
  | .payloadOverflow => 7
  | .malformedPayload => 8
  | .malformedLength => 9
  | .outOverflow => 10

/-- `raise CmdError(code, pos, sym)`: what raising writes (60_exceptions R180). It saves no other state, changes no mode
and goes nowhere (R186). -/
def State.raise (s : State) (e : CmdError) : State :=
  { s with errCode := e.code.bits, err := true, errPos := BitVec.ofNat 32 e.pos, errSym := e.sym }

/-- Run a second body after a first that ended without an error (45_entrypoints R170: a raise inside any body ends the
whole). -/
def BodyResult.andThen (r : BodyResult) (next : State → BodyResult) : BodyResult :=
  match r with
  | .done s => next s
  | .raised e s => .raised e s
  | .stopped f => .stopped f

end Sys2Proof.Machine
end

