-- ==== Sys2Proof/Machine/Operands.lean ====
section
/-! DEFINITION. What the commands read as operands (30_encoding R81): input symbols, payload bits, codes as bit sequences
(00_scope R7), and the inverse-book lookup (44_bitpack R156). -/

namespace Sys2Proof.Machine

/-! ## Bit sequences -/

/-- `val(s)`: the number a bit sequence spells, its first bit the most significant (00_scope R7). -/
def val : List Bool → Nat
  | [] => 0
  | b :: bs => b.toNat * 2 ^ bs.length + val bs

/-- `seq(L, c) = ⟨c[L−1], …, c[0]⟩` (00_scope R7). -/
def seq : Nat → BitVec 256 → List Bool
  | 0, _ => []
  | n + 1, c => c.getLsbD n :: seq n c

/-- The code a CB entry gives its symbol (10_state R48). -/
def CbEntry.codeSeq (e : CbEntry) : List Bool := seq e.len.toNat e.code

/-- The CB entry of a code: LEN its length, CODE its value, zero-extended (43_codebook R140). -/
def CbEntry.ofSeq (p : List Bool) : CbEntry :=
  { len := BitVec.ofNat 8 p.length, code := BitVec.ofNat 256 (val p) }

/-- The eight stream bits of a payload byte, bit 7 first (20_memory R65). -/
def byteBits (b : Byte) : List Bool := seq 8 (b.setWidth 256)

/-- The payload byte of the next eight stream bits, padded with zeros where fewer are left (20_memory R65, 44_bitpack
R152). -/
def byteOfBits (bs : List Bool) : Byte := BitVec.ofNat 8 (val ((bs ++ List.replicate 8 false).take 8))

/-- The first `n` payload bytes of a bit stream, zero-padded (44_bitpack R152). -/
def streamBytes : Nat → List Bool → List Byte
  | 0, _ => []
  | n + 1, bs => byteOfBits bs :: streamBytes n (bs.drop 8)

/-- ⌈n/8⌉, how many bytes a stream of `n` bits touches. -/
def byteCount (n : Nat) : Nat := (n + 7) / 8

/-! ## Buffer operands -/

/-- InByte(0..n−1), the input symbols in order (20_memory R63). -/
def State.inSymbols (s : State) (n : Nat) : List Byte × State := s.readBytes Config.inBase n

/-- PayBit(0..n−1) in order (20_memory R65): no bit at a position ≥ n is used (R66). -/
def State.payBits (s : State) (n : Nat) : List Bool × State :=
  let r := s.readBytes Config.payBase (byteCount n)
  ((r.1.flatMap byteBits).take n, r.2)

/-- OutByte(0..) <- bs (20_memory R64). -/
def State.writeOut (s : State) (bs : List Byte) : State := s.writeBytes Config.outBase bs

/-- PayByte(0..⌈|bits|/8⌉−1) <- the stream, zero-padded; later bytes are unchanged (44_bitpack R150, R152). -/
def State.writePay (s : State) (bits : List Bool) : State :=
  s.writeBytes Config.payBase (streamBytes (byteCount bits.length) bits)

/-- PAY_DEPTH·8, the bits the payload buffer holds (00_scope R5). -/
def State.payBitCap (s : State) : Nat := s.cfg.payDepth * 8

/-! ## The inverse book -/

/-- A candidate and a CB entry agree in length and in value (44_bitpack R156). -/
def codeMatches (cand : List Bool) (e : CbEntry) : Bool :=
  e.len.toNat == cand.length && e.len != 0 && e.code.toNat % 2 ^ cand.length == val cand

/-- `Match(cand)`: the lowest symbol whose code is the candidate (44_bitpack R156). -/
def matchCode (cb : Vector CbEntry 256) (cand : List Bool) : Option Byte :=
  (cb.toList.findIdx? (codeMatches cand)).map (BitVec.ofNat 8)

end Sys2Proof.Machine
end

