-- ==== Sys2Proof/Machine/Flags.lean ====
section
/-! DEFINITION. The status flags: the STATUS word (10_state R27), acceptance and completion of a command (40_control R100,
R101), and the interrupt line (60_exceptions R189). -/

namespace Sys2Proof.Machine

/-- STATUS.BUSY: 1 while ENGINE is INIT or BUSY(op) (10_state R22, R27). -/
def State.busy (s : State) : Bool :=
  match s.engine with
  | .init => true
  | .idle => false
  | .busy _ => true

/-- The STATUS word (10_state R27). -/
def State.status (s : State) : Word :=
  (s.lastOp.setWidth 32 <<< 12) ||| (s.errCode.setWidth 32 <<< 8) ||| ((BitVec.ofBool s.treeValid).setWidth 32 <<< 2) |||
    ((BitVec.ofBool s.err).setWidth 32 <<< 1) ||| (BitVec.ofBool s.busy).setWidth 32

/-- The `irq` output (60_exceptions R189). -/
def State.irq (s : State) : Bool :=
  (s.irqStatus.getLsbD 0 && s.irqEn.getLsbD 0) || (s.irqStatus.getLsbD 1 && s.irqEn.getLsbD 1) ||
    (s.irqStatus.getLsbD 2 && s.irqEn.getLsbD 2)

/-- IRQ_STATUS with DONE set (10_state R29). -/
def irqDone : BitVec 3 := 1

/-- IRQ_STATUS with ERR set (10_state R29). -/
def irqErr : BitVec 3 := 2

/-- IRQ_STATUS with DROP set (10_state R29). -/
def irqDrop : BitVec 3 := 4

/-- Acceptance of the command word `w` (40_control R100): the last command's report is cleared, LAST_OP is the word's OP,
and the engine is busy with it. -/
def State.accept (s : State) (w : Word) : State :=
  { s with err := false, errCode := 0, errPos := 0, errSym := 0, lastOp := opField w, engine := .busy w }

/-- Completion (40_control R101). -/
def State.complete (s : State) : State :=
  { s with
    irqStatus := s.irqStatus ||| irqDone ||| (if s.errCode = 0 then 0 else irqErr)
    engine := .idle }

/-- What a body's end leads to: completion, after an error completion with the error raised, or a stop (40_control R101,
60_exceptions R180). -/
def BodyResult.finish : BodyResult → Host.Outcome State Fault Refusal
  | .done s => .next s.complete
  | .raised e s => .next (s.raise e).complete
  | .stopped f => .fault f

/-- A whole command as one atomic transition (00_scope R10): acceptance, the body, completion. When `step` runs an
accepted command, its acceptance has already happened at the CTRL write; accepting again changes nothing, since nothing
else writes what acceptance writes while the command runs (log entry 8). -/
def runCommand (i : Instr) (body : State → BodyResult) (s : State) : Host.Outcome State Fault Refusal :=
  (body (s.accept (encode i))).finish

end Sys2Proof.Machine
end

