-- ==== Sys2Proof/Machine/Control.lean ====
section
/-! DEFINITION. NOP, CLEAR and the illegal words (40_control R102, R103, R104). -/

namespace Sys2Proof.Machine

/-- NOP: the body is empty (40_control R102). -/
def execNop (s : State) : Host.Outcome State Fault Refusal :=
  runCommand .nop (fun t => .done t) s

/-- The body of CLEAR (40_control R103). The NODE entries, IN_LEN, SEL, IRQ_EN and the buffers are left as they are. -/
def clearBody (s : State) : BodyResult :=
  .done { s with
    freq := Vector.replicate 256 0
    cb := Vector.replicate 256 CbEntry.zero
    total := 0
    nsym := 0
    nnodes := 0
    rootValid := false
    rootIndex := 0
    treeValid := false
    bitLen := 0
    outLen := 0 }

/-- CLEAR (40_control R103). -/
def execClear (s : State) : Host.Outcome State Fault Refusal :=
  runCommand .clear clearBody s

/-- The body of an illegal word: `raise CmdError(ILLEGAL_OP, 0, 0)` (40_control R104). -/
def illegalBody (s : State) : BodyResult :=
  .raised { code := .illegalOp, pos := 0, sym := 0 } s

/-- A command that completes at once, before the next host transaction: an illegal word (30_encoding R84, 93 V1, and the
program P5 of 95_test_vectors). Every other command may take any finite time (70_reset_and_hazards R210). -/
def endsAtOnce : Instr → Bool
  | .nop => false
  | .clear => false
  | .freqCount => false
  | .buildTree => false
  | .genCodes => false
  | .pack => false
  | .unpack => false
  | .encode => false
  | .illegalOp _ => true
  | .illegalRes _ _ => true

/-- The accepted command, if one is running, completes at once. -/
def State.endsAtOnce (s : State) : Bool :=
  match s.engine with
  | .init => false
  | .idle => false
  | .busy w => Sys2Proof.Machine.endsAtOnce (decode w)

/-- ILLEGAL, a reserved opcode (40_control R104). -/
def execIllegalOp (low : BitVec 3) (s : State) : Host.Outcome State Fault Refusal :=
  runCommand (.illegalOp low) illegalBody s

/-- ILLEGAL, reserved bits set (40_control R104). -/
def execIllegalRes (res : BitVec 28) (op : BitVec 4) (s : State) : Host.Outcome State Fault Refusal :=
  runCommand (.illegalRes res op) illegalBody s

end Sys2Proof.Machine
end

