-- ==== Sys2Proof/Machine/Bitpack.lean ====
section
/-! DEFINITION. The bit-packer and bit-unpacker: PACK (44_bitpack R150–R152) and UNPACK (R155–R158). -/

namespace Sys2Proof.Machine

/-- The packing loop of 44_bitpack R150 over the input symbols from index `i` on, `pos` bits being packed already and
`cap` the payload buffer's size in bits: the bits it appends, and the error it stops with, if any. -/
def packLoop (cb : Vector CbEntry 256) (cap : Nat) : List Byte → Nat → Nat → List Bool × Option CmdError
  | [], _, _ => ([], none)
  | x :: xs, i, pos =>
    let e := cb[x.toNat]'x.isLt
    if e.len = 0 then ([], some { code := .unknownSymbol, pos := i, sym := x })
    else if pos + e.len.toNat > cap then ([], some { code := .payloadOverflow, pos := i, sym := x })
    else
      let rest := packLoop cb cap xs (i + 1) (pos + e.len.toNat)
      (e.codeSeq ++ rest.1, rest.2)

/-- The body of PACK (44_bitpack R150). The bits packed before a stop are flushed to the PAY buffer with zero padding on
every path past the length check (R152). -/
def packBody (s : State) : BodyResult :=
  if s.inLen.toNat > s.cfg.inDepth then .raised { code := .badLen, pos := 0, sym := 0 } { s with bitLen := 0 }
  else
    let r := s.inSymbols s.inLen.toNat
    let p := packLoop s.cb s.payBitCap r.1 0 0
    match p.2 with
    | none => .done { r.2.writePay p.1 with bitLen := BitVec.ofNat 32 p.1.length }
    | some e => .raised e { r.2.writePay p.1 with bitLen := 0 }

/-- PACK (44_bitpack R150). -/
def execPack (s : State) : Host.Outcome State Fault Refusal :=
  runCommand .pack packBody s

/-- The scan of 44_bitpack R155 over the payload bits left. `pos` is the next bit's position, `cand` the candidate grown
so far, `start` where it began, `k` the symbols written, `cap` OUT_DEPTH. It gives the symbols it writes, and the error it
ends with, if any. -/
def unpackLoop (cb : Vector CbEntry 256) (cap : Nat) :
    List Bool → Nat → Nat → List Bool → Nat → List Byte × Option CmdError
  | [], pos, start, _, _ =>
    if pos = start then ([], none) else ([], some { code := .malformedPayload, pos := start, sym := 0 })
  | b :: bs, pos, start, cand, k =>
    match matchCode cb (cand ++ [b]) with
    | none => unpackLoop cb cap bs (pos + 1) start (cand ++ [b]) k
    | some m =>
      if k = cap then ([], some { code := .outOverflow, pos := start, sym := m })
      else
        let rest := unpackLoop cb cap bs (pos + 1) (pos + 1) [] (k + 1)
        (m :: rest.1, rest.2)

/-- The body of UNPACK (44_bitpack R155). -/
def unpackBody (s : State) : BodyResult :=
  if s.bitLen.toNat > s.payBitCap then .raised { code := .malformedLength, pos := 0, sym := 0 } { s with outLen := 0 }
  else
    let r := s.payBits s.bitLen.toNat
    let u := unpackLoop s.cb s.cfg.outDepth r.1 0 0 [] 0
    match u.2 with
    | none => .done { r.2.writeOut u.1 with outLen := BitVec.ofNat 32 u.1.length }
    | some e => .raised e { r.2.writeOut u.1 with outLen := 0 }

/-- UNPACK (44_bitpack R155). -/
def execUnpack (s : State) : Host.Outcome State Fault Refusal :=
  runCommand .unpack unpackBody s

end Sys2Proof.Machine
end

