-- ==== Sys2Proof/Machine/Codebook.lean ====
section
/-! DEFINITION. The code-book generator, GEN_CODES (43_codebook R140–R145), and the check of a CB_LEN write (10_state R43). -/

namespace Sys2Proof.Machine

/-- Every leaf below node `i`, with its symbol and its path from the root, `p` being the path of `i` (43_codebook R141);
left before right. None when the walk goes deeper than `fuel` levels. -/
def leafPaths (nodes : Vector Node 511) : Nat → BitVec 9 → List Bool → Option (List (Byte × List Bool))
  | 0, _, _ => none
  | fuel + 1, i, p =>
    if (nodeAt nodes i).isLeaf then some [((nodeAt nodes i).symbol, p)]
    else
      match leafPaths nodes fuel (nodeAt nodes i).left (p ++ [false]),
            leafPaths nodes fuel (nodeAt nodes i).right (p ++ [true]) with
      | some l, some r => some (l ++ r)
      | _, _ => none

/-- The paths of all leaves of the tree. A tree of N_NODE nodes has fewer than N_NODE levels, so none means that the table
is no tree (log entry 5). -/
def State.paths (s : State) : Option (List (Byte × List Bool)) := leafPaths s.nodes Config.nNode s.rootIndex []

/-- The entry of the lowest symbol (43_codebook R140: s0 := min(bad)); none of an empty list. -/
def lowestSymbol : List (Byte × List Bool) → Option (Byte × List Bool)
  | [] => none
  | l :: ls =>
    match lowestSymbol ls with
    | none => some l
    | some m => if l.1.toNat ≤ m.1.toNat then some l else some m

/-- The leaves whose path is longer than MAX_CODE_LEN (43_codebook R140: bad). -/
def overLong (max : Nat) (ls : List (Byte × List Bool)) : List (Byte × List Bool) :=
  ls.filter (fun l => max < l.2.length)

/-- Write each leaf's code to its symbol's CB entry (43_codebook R140). -/
def writeCodes : List (Byte × List Bool) → Vector CbEntry 256 → Vector CbEntry 256
  | [], cb => cb
  | l :: ls, cb => writeCodes ls (setCb cb l.1 (CbEntry.ofSeq l.2))

/-- The book with no code at all (43_codebook R143). -/
def emptyBook : Vector CbEntry 256 := Vector.replicate 256 CbEntry.zero

/-- The body of GEN_CODES (43_codebook R140; R142 is NSYM = 1, R143 is NSYM = 0, R144 is the length limit). -/
def genCodesBody (s : State) : BodyResult :=
  if s.treeValid = false then .raised { code := .noTree, pos := 0, sym := 0 } s
  else if s.nsym = 0 then .done { s with cb := emptyBook }
  else if s.nsym = 1 then
    .done { s with cb := setCb emptyBook (nodeAt s.nodes s.rootIndex).symbol { len := 1, code := 0 } }
  else
    match s.paths with
    | none => .stopped .nodeTableIsNoTree
    | some ls =>
      match lowestSymbol (overLong s.cfg.maxCodeLen ls) with
      | some l => .raised { code := .codeTooLong, pos := l.2.length, sym := l.1 } { s with cb := emptyBook }
      | none => .done { s with cb := writeCodes ls emptyBook }

/-- GEN_CODES (43_codebook R140). -/
def execGenCodes (s : State) : Host.Outcome State Fault Refusal :=
  runCommand .genCodes genCodesBody s

/-- A host write of CB[x].LEN (10_state R43): the new state, or none when the value is above MAX_CODE_LEN. Bits [31:8] of
the data are ignored, and CODE is unchanged. -/
def writeCbLen (s : State) (x : Byte) (d : Word) : Option State :=
  let v : Byte := d.extractLsb' 0 8
  if v.toNat > s.cfg.maxCodeLen then none
  else some { s with cb := setCb s.cb x { s.cbAt x with len := v } }

/-- A host write of word `k` of CB[x].CODE (10_state R44). -/
def writeCbCode (s : State) (x : Byte) (k : Fin 8) (d : Word) : State :=
  { s with cb := setCb s.cb x { s.cbAt x with code := setCodeWord (s.cbAt x).code k.val d } }

end Sys2Proof.Machine
end

