-- ==== Sys2Proof/Machine/Frequency.lean ====
section
/-! DEFINITION. The frequency counter: FREQ_COUNT (41_frequency R110) and the check of a FREQ_DATA write (R111). -/

namespace Sys2Proof.Machine

/-- The counting loop of 41_frequency R110 over the input symbols from index `i` on: the tables it leaves, and the error
it ends with, if any. -/
def countLoop : List Byte → Nat → Vector Word 256 → Word → Vector Word 256 × Word × Option CmdError
  | [], _, freq, total => (freq, total, none)
  | x :: xs, i, freq, total =>
    if total = 0xFFFFFFFF then (freq, total, some { code := .countOverflow, pos := i, sym := x })
    else countLoop xs (i + 1) (setFreq freq x (freq[x.toNat]'x.isLt + 1)) (total + 1)

/-- The body of FREQ_COUNT (41_frequency R110). -/
def freqCountBody (s : State) : BodyResult :=
  if s.inLen.toNat > s.cfg.inDepth then .raised { code := .badLen, pos := 0, sym := 0 } s
  else
    let r := s.inSymbols s.inLen.toNat
    let c := countLoop r.1 0 s.freq s.total
    let t := { r.2 with freq := c.1, total := c.2.1 }
    match c.2.2 with
    | none => .done t
    | some e => .raised e t

/-- FREQ_COUNT (41_frequency R110). -/
def execFreqCount (s : State) : Host.Outcome State Fault Refusal :=
  runCommand .freqCount freqCountBody s

/-- A host write of FREQ[x] (41_frequency R111): the new state, or none when TOTAL would pass 2^32 − 1. The sum is exact,
unbounded integer arithmetic. -/
def writeFreq (s : State) (x : Byte) (d : Word) : Option State :=
  let t : Int := s.total.toNat - (s.freqAt x).toNat + d.toNat
  if t > 0xFFFFFFFF then none
  else some { s with freq := setFreq s.freq x d, total := BitVec.ofInt 32 t }

end Sys2Proof.Machine
end

