-- ==== Sys2Proof/Machine/TreeBuilder.lean ====
section
/-! DEFINITION. The Huffman-tree builder, BUILD_TREE (42_tree_builder R120–R130). -/

namespace Sys2Proof.Machine

/-- BUILD_TREE's transient state (10_state R51): the NODE table as written so far, the priority queue Q of node indices,
and NEXT. -/
structure Builder where
  nodes : Vector Node 511
  queue : List (BitVec 9)
  next  : Nat
deriving DecidableEq, Repr

/-- `before(i, j)`: the smaller (COUNT, index) key pops first (42_tree_builder R120). -/
def before (nodes : Vector Node 511) (i j : BitVec 9) : Bool :=
  (nodeAt nodes i).count.toNat < (nodeAt nodes j).count.toNat ||
    ((nodeAt nodes i).count == (nodeAt nodes j).count && i.toNat < j.toNat)

/-- The first of `m` and the entries of a queue under `before`. -/
def firstOf (nodes : Vector Node 511) : BitVec 9 → List (BitVec 9) → BitVec 9
  | m, [] => m
  | m, i :: is => firstOf nodes (if before nodes i m then i else m) is

/-- Pop the entry that is first under `before`: it and the queue without it; none when the queue is empty. -/
def popFirst (nodes : Vector Node 511) : List (BitVec 9) → Option (BitVec 9 × List (BitVec 9))
  | [] => none
  | i :: is => some (firstOf nodes i is, (i :: is).erase (firstOf nodes i is))

/-- Write NODE[NEXT], push NEXT, increment NEXT. -/
def Builder.push (b : Builder) (nd : Node) : Builder :=
  { nodes := setNode b.nodes b.next nd, queue := b.queue ++ [BitVec.ofNat 9 b.next], next := b.next + 1 }

/-- The leaf of a symbol with count `c` (42_tree_builder R121). -/
def leafNode (x : Byte) (c : Word) : Node := { isLeaf := true, symbol := x, count := c, left := 0, right := 0 }

/-- The internal node over the first-popped `a` and the second-popped `b` (42_tree_builder R122). -/
def mergedNode (nodes : Vector Node 511) (a b : BitVec 9) : Node :=
  { isLeaf := false, symbol := 0, count := (nodeAt nodes a).count + (nodeAt nodes b).count, left := a, right := b }

/-- The leaf load of 42_tree_builder R121, over the FREQ entries of the symbols from `x` on, ascending. -/
def leafLoad : List Word → Nat → Builder → Builder
  | [], _, b => b
  | c :: cs, x, b => leafLoad cs (x + 1) (if c ≠ 0 then b.push (leafNode (BitVec.ofNat 8 x) c) else b)

/-- One merge step (42_tree_builder R122); none when the queue holds fewer than two entries. -/
def mergeStep (b : Builder) : Option Builder :=
  match popFirst b.nodes b.queue with
  | none => none
  | some (a, q) =>
    match popFirst b.nodes q with
    | none => none
    | some (c, q') => some ({ b with queue := q' }.push (mergedNode b.nodes a c))

/-- The merge loop: merge steps while the queue holds two or more entries (42_tree_builder R123, R126). Each merge takes
one entry off the queue, so `fuel` the queue's length is enough. -/
def mergeLoop : Nat → Builder → Builder
  | 0, b => b
  | fuel + 1, b =>
    match mergeStep b with
    | none => b
    | some b' => mergeLoop fuel b'

/-- The builder's state after the leaf load, from an empty queue (42_tree_builder R121, R123). -/
def loadedLeaves (s : State) : Builder := leafLoad s.freq.toList 0 { nodes := s.nodes, queue := [], next := 0 }

/-- The builder's state after the merge loop (42_tree_builder R123). -/
def builtTree (s : State) : Builder := mergeLoop (loadedLeaves s).queue.length (loadedLeaves s)

/-- The body of BUILD_TREE (42_tree_builder R123; R124 is n = 1, R125 is n = 0). -/
def buildTreeBody (s : State) : BodyResult :=
  let n := (loadedLeaves s).next
  if n = 0 then
    .done { s with nsym := 0, nnodes := 0, rootValid := false, rootIndex := 0, treeValid := true }
  else if n = 1 then
    .done { s with
      nodes := (loadedLeaves s).nodes, nsym := 1, nnodes := 1, rootValid := true, rootIndex := 0, treeValid := true }
  else
    .done { s with
      nodes := (builtTree s).nodes
      nsym := BitVec.ofNat 9 n
      nnodes := BitVec.ofNat 10 (builtTree s).next
      rootValid := true
      rootIndex := BitVec.ofNat 9 ((builtTree s).next - 1)
      treeValid := true }

/-- BUILD_TREE (42_tree_builder R123). -/
def execBuildTree (s : State) : Host.Outcome State Fault Refusal :=
  runCommand .buildTree buildTreeBody s

end Sys2Proof.Machine
end

