-- ==== Sys2Proof/Machine/Entrypoints.lean ====
section
/-! DEFINITION. The encode entry point, ENCODE (45_entrypoints R170). The decode entry point is UNPACK (R171). -/

namespace Sys2Proof.Machine

/-- GEN_CODES as a sub-step of ENCODE: when it raises, BIT_LEN <- 0 too (45_entrypoints R170). -/
def encodeGenCodes (s : State) : BodyResult :=
  match genCodesBody s with
  | .done t => .done t
  | .raised e t => .raised e { t with bitLen := 0 }
  | .stopped f => .stopped f

/-- The body of ENCODE (45_entrypoints R170). Each of its sub-steps reads the input for itself, so an IN byte that nothing
has written is drawn once by FREQ_COUNT and afresh by PACK, and the two may differ (70_reset_and_hazards R209, 93 U2). On
such input PACK can then meet a symbol that was not counted, and ENCODE can end with UNKNOWN_SYMBOL, which R170 rules out
where the two reads agree. DESIGN CHOICE, safe, log entry 20. -/
def encodeBody (s : State) : BodyResult :=
  if s.inLen.toNat > s.cfg.inDepth then .raised { code := .badLen, pos := 0, sym := 0 } { s with bitLen := 0 }
  else
    (((freqCountBody { s with freq := Vector.replicate 256 0, total := 0 }).andThen buildTreeBody).andThen
      encodeGenCodes).andThen packBody

/-- ENCODE (45_entrypoints R170). -/
def execEncode (s : State) : Host.Outcome State Fault Refusal :=
  runCommand .encode encodeBody s

end Sys2Proof.Machine
end

