-- ==== Sys2Proof/Machine/HostPort.lean ====
section
/-! DEFINITION. The host port: the register map (10_state R23–R45), the buffer windows (20_memory R60–R65), the bus errors
(60_exceptions R185), the busy lockout (70_reset_and_hazards R204) and dropped commands (R205). -/

namespace Sys2Proof.Machine

/-! ## The address map -/

/-- The register at an offset (10_state R23). -/
def Reg.ofOffset (o : Nat) : Option Reg :=
  match o with
  | 0x000 => some .id
  | 0x004 => some .version
  | 0x008 => some .ctrl
  | 0x00C => some .status
  | 0x010 => some .irqEn
  | 0x014 => some .irqStatus
  | 0x018 => some .inLen
  | 0x01C => some .bitLen
  | 0x020 => some .outLen
  | 0x024 => some .errPos
  | 0x028 => some .errSym
  | 0x02C => some .total
  | 0x030 => some .nsym
  | 0x034 => some .nnodes
  | 0x038 => some .root
  | 0x03C => some .sel
  | 0x040 => some .freqData
  | 0x044 => some .nodeInfo
  | 0x048 => some .nodeCount
  | 0x04C => some .cbLen
  | 0x050 => some (.cbCode 0)
  | 0x054 => some (.cbCode 1)
  | 0x058 => some (.cbCode 2)
  | 0x05C => some (.cbCode 3)
  | 0x060 => some (.cbCode 4)
  | 0x064 => some (.cbCode 5)
  | 0x068 => some (.cbCode 6)
  | 0x06C => some (.cbCode 7)
  | 0x070 => some .cfgInDepth
  | 0x074 => some .cfgOutDepth
  | 0x078 => some .cfgPayDepth
  | 0x07C => some .cfgMaxCodeLen
  | _ => none

/-- What an aligned address reaches (10_state R23, 20_memory R60, R62). -/
def targetOf (p : Params) (addr : BitVec 18) : Target :=
  let a := addr.toNat
  if a < 0x80 then
    match Reg.ofOffset a with
    | some r => .reg r
    | none => .absent
  else if inBuffer p a then .buffer a
  else .absent

/-- The host may use the register while the block is busy (70_reset_and_hazards R204). A CTRL write has a rule of its own
(R205). The register table (10_state R23) marks CTRL busy-exempt and R204's list leaves it out; 90_conflicts checks the
set against R204, which is followed here: a CTRL read while busy gets SLVERR (log entry 7). -/
def Reg.busyExempt : Reg → Bool
  | .id => true
  | .version => true
  | .status => true
  | .irqEn => true
  | .irqStatus => true
  | .cfgInDepth => true
  | .cfgOutDepth => true
  | .cfgPayDepth => true
  | .cfgMaxCodeLen => true
  | _ => false

/-! ## Reads -/

/-- SEL[7:0], the symbol the FREQ and CB windows use (10_state R39). -/
def State.selSymbol (s : State) : Byte := s.sel.setWidth 8

/-- NODE_INFO of an entry (10_state R41). -/
def Node.info (nd : Node) : Word :=
  ((BitVec.ofBool nd.isLeaf).setWidth 32 <<< 31) ||| (nd.symbol.setWidth 32 <<< 18) ||| (nd.right.setWidth 32 <<< 9) |||
    nd.left.setWidth 32

/-- The ROOT word: VALID in bit 31, INDEX in bits [8:0], which read 0 when VALID is 0 (10_state R38). -/
def State.rootWord (s : State) : Word :=
  if s.rootValid then 0x80000000 ||| s.rootIndex.setWidth 32 else 0

/-- What a read of a register returns (10_state R24–R45). No read changes anything (20_memory R69). -/
def readReg (s : State) : Reg → Word
  | .id => Config.idValue
  | .version => Config.versionValue
  | .ctrl => 0
  | .status => s.status
  | .irqEn => s.irqEn.setWidth 32
  | .irqStatus => s.irqStatus.setWidth 32
  | .inLen => s.inLen
  | .bitLen => s.bitLen
  | .outLen => s.outLen
  | .errPos => s.errPos
  | .errSym => s.errSym.setWidth 32
  | .total => s.total
  | .nsym => s.nsym.setWidth 32
  | .nnodes => s.nnodes.setWidth 32
  | .root => s.rootWord
  | .sel => s.sel.setWidth 32
  | .freqData => s.freqAt s.selSymbol
  | .nodeInfo => if s.sel.toNat < s.nnodes.toNat then (nodeAt s.nodes s.sel).info else 0
  | .nodeCount => if s.sel.toNat < s.nnodes.toNat then (nodeAt s.nodes s.sel).count else 0
  | .cbLen => (s.cbAt s.selSymbol).len.setWidth 32
  | .cbCode k => codeWord (s.cbAt s.selSymbol).code k.val
  | .cfgInDepth => BitVec.ofNat 32 s.cfg.inDepth
  | .cfgOutDepth => BitVec.ofNat 32 s.cfg.outDepth
  | .cfgPayDepth => BitVec.ofNat 32 s.cfg.payDepth
  | .cfgMaxCodeLen => BitVec.ofNat 32 s.cfg.maxCodeLen

/-- `MemRead(addr, 4)` (20_memory R61, R62, 70_reset_and_hazards R204): the data, the response, and the state after it.
The state differs from the one before only in the model's own count of free values, when an unwritten buffer byte is
read. -/
def hostRead (s : State) (addr : BitVec 18) : Word × Resp × State :=
  if addr.toNat % 4 ≠ 0 then (0, .slverr, s)
  else
    match targetOf s.cfg addr with
    | .absent => (0, .slverr, s)
    | .buffer a =>
      if s.engine = .idle then
        let r := s.readBytes a 4
        (wordOfBytes r.1, .okay, r.2)
      else (0, .slverr, s)
    | .reg r =>
      if s.engine = .idle ∨ r.busyExempt then (readReg s r, .okay, s) else (0, .slverr, s)

/-! ## Writes -/

/-- A write of a register other than CTRL, with the block idle or the register busy-exempt: the new state, or none where
the write gets SLVERR with no effect (10_state R23, R28–R45, 41_frequency R111). CTRL is handled by `writeCtrl`. -/
def writeReg (s : State) (d : Word) : Reg → Option State
  | .irqEn => some { s with irqEn := d.extractLsb' 0 3 }
  | .irqStatus => some { s with irqStatus := s.irqStatus &&& ~~~(d.extractLsb' 0 3) }
  | .inLen => some { s with inLen := d }
  | .bitLen => some { s with bitLen := d }
  | .sel => some { s with sel := d.extractLsb' 0 9 }
  | .freqData => writeFreq s s.selSymbol d
  | .cbLen => writeCbLen s s.selSymbol d
  | .cbCode k => some (writeCbCode s s.selSymbol k d)
  | .ctrl => none
  | .id => none
  | .version => none
  | .status => none
  | .outLen => none
  | .errPos => none
  | .errSym => none
  | .total => none
  | .nsym => none
  | .nnodes => none
  | .root => none
  | .nodeInfo => none
  | .nodeCount => none
  | .cfgInDepth => none
  | .cfgOutDepth => none
  | .cfgPayDepth => none
  | .cfgMaxCodeLen => none

/-- A whole-word CTRL write: accepted when the block is idle (40_control R100), else dropped with SLVERR and DROP set
(70_reset_and_hazards R205). -/
def writeCtrl (s : State) (w : Word) : Resp × State :=
  if s.engine = .idle then (.okay, s.accept w) else (.slverr, { s with irqStatus := s.irqStatus ||| irqDrop })

/-- `MemWrite(addr, 4, d)` with its byte strobes (20_memory R61): the response and the state after it. -/
def hostWrite (s : State) (addr : BitVec 18) (strb : BitVec 4) (d : Word) : Resp × State :=
  if addr.toNat % 4 ≠ 0 ∨ strb ≠ 0xF then (.slverr, s)
  else
    match targetOf s.cfg addr with
    | .absent => (.slverr, s)
    | .buffer a => if s.engine = .idle then (.okay, s.writeBytes a (bytesOfWord d)) else (.slverr, s)
    | .reg .ctrl => writeCtrl s d
    | .reg r =>
      if s.engine = .idle ∨ r.busyExempt then
        match writeReg s d r with
        | some t => (.okay, t)
        | none => (.slverr, s)
      else (.slverr, s)

/-- One host transaction, its response recorded in `resp`. -/
def hostTxn (t : Txn) (s : State) : State :=
  match t with
  | .read a => let r := hostRead s a; { r.2.2 with resp := some (.read r.1 r.2.1) }
  | .write a strb d => let r := hostWrite s a strb d; { r.2 with resp := some (.write r.1) }

end Sys2Proof.Machine
end

