-- ==== Sys2Proof/Machine/Lifecycle.lean ====
section
/-! DEFINITION. Reset and the INIT phase (70_reset_and_hazards R200, R201, R202). -/

namespace Sys2Proof.Machine

/-- The reset input asserted and deasserted (70_reset_and_hazards R200): every register at its reset value, a running
command abandoned, no buffer byte written any more, ENGINE in INIT. The parameters are the hardware's, `events` is what
still happens afterwards, and `draws` goes on counting. -/
def resetBlock (s : State) : State :=
  { State.reset with cfg := s.cfg, events := s.events, draws := s.draws }

/-- The end of INIT (70_reset_and_hazards R201): FREQ and CB are zero and the engine is idle. It sets no IRQ_STATUS bit
and leaves STATUS as it was but for BUSY (R202). What the host wrote to IRQ_EN during INIT, and DROP set by a CTRL write
dropped during INIT (R204, R205), stay as they are: R201 says that the state is then exactly that of 10_state R53, where
both registers are 0, and does not say what becomes of such a write. DESIGN CHOICE, unsafe, log entry 19. -/
def endInit (s : State) : State :=
  { s with
    freq := Vector.replicate 256 0
    cb := Vector.replicate 256 CbEntry.zero
    engine := .idle }

end Sys2Proof.Machine
end

