-- ==== Sys2Proof/Machine/Step.lean ====
section
/-! DEFINITION. One step of the machine: the next event, or, when no event is left, the engine's move (00_scope R9,
10_state R22, 70_reset_and_hazards R210). -/

namespace Sys2Proof.Machine

/-- The engine's move: INIT ends (70_reset_and_hazards R201); an accepted command runs to its completion, one atomic
transition (00_scope R10), the command being the one its word decodes to (30_encoding R83); an idle engine does nothing. -/
def stepEngine (s : State) : Host.Outcome State Fault Refusal :=
  match s.engine with
  | .init => .next (endInit s)
  | .idle => .next s
  | .busy w => exec (decode w) s

/-- One step. `events` says which agent moves; with none left the engine moves, so every accepted command completes and
INIT ends (the fairness of 70_reset_and_hazards R210; log entry 2). An illegal word's command completes before the next
host transaction, which stays the next event (30_encoding R84). -/
def step (s : State) : Host.Outcome State Fault Refusal :=
  match s.events with
  | [] => stepEngine s
  | .engine :: es => stepEngine { s with events := es }
  | .txn t :: es => if s.endsAtOnce then stepEngine s else .next (hostTxn t { s with events := es })
  | .reset :: es => .next (resetBlock { s with events := es })

/-- `s` with the command word `w` accepted and the engine's move next, so that the very next step runs that command. The
block fetches nothing (10_state R22, 20_memory R74): the engine takes the word from the CTRL write, and this stands for
that write having been accepted. The events still to come stay in their order, behind the engine's move. Log entry 9. -/
def State.withFetchWord (s : State) (nbits w : Nat) : State :=
  { s with
    engine := .busy (BitVec.ofNat 32 (w % 2 ^ nbits))
    events := match s.events with
      | [] => []
      | e :: es => .engine :: e :: es }

end Sys2Proof.Machine
end

