-- ==== Sys2Proof/Machine/Datapath.lean ====
section
/-! DEFINITION. The reference datapaths and engine sub-states the spec gives inside a command: the shift-mask packer
(44_bitpack R151), the unpack datapath (R158), the merge FSM (42_tree_builder R128) and the traversal FSM (43_codebook
R145). The host can observe none of them (10_state R51); the meanings do not use them, and the statements say that each
gives the meaning's result. -/

namespace Sys2Proof.Machine

/-! ## The shift-mask packer -/

/-- The packer's registers (10_state R51, 44_bitpack R151): the 262-bit accumulator ACC, its count of valid bits ACC_N,
the total bit count POS, and the buffers it writes to. -/
structure Packer where
  acc  : BitVec 262
  accN : Nat
  pos  : Nat
  mem  : List Host.Cell
deriving DecidableEq, Repr

/-- `2^n − 1`, the mask of the low `n` bits. -/
def lowMask (w n : Nat) : BitVec w := BitVec.ofNat w (2 ^ n - 1)

/-- Emit the oldest 8 bits while ACC_N ≥ 8 (44_bitpack R151); `fuel` at least ACC_N / 8 is enough. -/
def Packer.emit : Nat → Packer → Packer
  | 0, p => p
  | fuel + 1, p =>
    if p.accN < 8 then p
    else
      Packer.emit fuel
        { p with
          mem := Memory.write p.mem (Config.payBase + (p.pos - p.accN) / 8) (p.acc.extractLsb' (p.accN - 8) 8)
          accN := p.accN - 8
          acc := p.acc &&& lowMask 262 (p.accN - 8) }

/-- Shift one code in, then emit whole bytes (44_bitpack R151). -/
def Packer.shiftIn (p : Packer) (e : CbEntry) : Packer :=
  Packer.emit 33
    { p with
      acc := (p.acc <<< e.len.toNat) ||| (e.code &&& lowMask 256 e.len.toNat).setWidth 262
      accN := p.accN + e.len.toNat
      pos := p.pos + e.len.toNat }

/-- The final partial byte, zero-padded (44_bitpack R151). -/
def Packer.flush (p : Packer) : Packer :=
  if 0 < p.accN then
    { p with mem := Memory.write p.mem (Config.payBase + p.pos / 8) (((p.acc.setWidth 8) &&& lowMask 8 p.accN) <<< (8 - p.accN)) }
  else p

/-- The packer over the input symbols from index `i` on, with the checks of 44_bitpack R150 before each symbol. -/
def Packer.run (cb : Vector CbEntry 256) (cap : Nat) : List Byte → Nat → Packer → Packer × Option CmdError
  | [], _, p => (p.flush, none)
  | x :: xs, i, p =>
    let e := cb[x.toNat]'x.isLt
    if e.len = 0 then (p.flush, some { code := .unknownSymbol, pos := i, sym := x })
    else if p.pos + e.len.toNat > cap then (p.flush, some { code := .payloadOverflow, pos := i, sym := x })
    else Packer.run cb cap xs (i + 1) (p.shiftIn e)

/-! ## The unpack datapath -/

/-- The unpacker's registers (10_state R51, 44_bitpack R158): the candidate CAND and its length CAND_N, the position POS,
the output count K, and the buffers. -/
structure Unpacker where
  cand  : BitVec 255
  candN : Nat
  pos   : Nat
  k     : Nat
  mem   : List Host.Cell
deriving DecidableEq, Repr

/-- The comparator of one CB entry: it has a code, of the candidate's length, with the candidate's value (44_bitpack R156,
R158). -/
def comparator (cand : BitVec 255) (candN : Nat) (e : CbEntry) : Bool :=
  e.len != 0 && e.len.toNat == candN && (e.code &&& lowMask 256 candN) == cand.setWidth 256

/-- The comparator bank: the lowest symbol whose comparator answers (44_bitpack R158). -/
def comparatorBank (cb : Vector CbEntry 256) (cand : BitVec 255) (candN : Nat) : Option Byte :=
  (cb.toList.findIdx? (comparator cand candN)).map (BitVec.ofNat 8)

/-- The datapath over the stream bits left; it fails early when CAND_N would exceed 255 (44_bitpack R157, R158). -/
def Unpacker.run (cb : Vector CbEntry 256) (cap : Nat) : List Bool → Unpacker → Unpacker × Option CmdError
  | [], u => (u, if u.candN = 0 then none else some { code := .malformedPayload, pos := u.pos - u.candN, sym := 0 })
  | b :: bs, u =>
    if u.candN = 255 then (u, some { code := .malformedPayload, pos := u.pos - u.candN, sym := 0 })
    else
      let cand := (u.cand <<< 1) ||| (BitVec.ofBool b).setWidth 255
      match comparatorBank cb cand (u.candN + 1) with
      | none => Unpacker.run cb cap bs { u with cand := cand, candN := u.candN + 1, pos := u.pos + 1 }
      | some m =>
        if u.k = cap then (u, some { code := .outOverflow, pos := u.pos - u.candN, sym := m })
        else
          Unpacker.run cb cap bs
            { cand := 0, candN := 0, pos := u.pos + 1, k := u.k + 1, mem := Memory.write u.mem (Config.outBase + u.k) m }

/-! ## The merge FSM -/

/-- The sub-states of BUILD_TREE (42_tree_builder R128). -/
inductive BuildPhase where
  /-- B_LOAD, about to handle symbol `x` (0..255). -/
  | load (x : Nat)
  | check
  | pop1
  /-- B_POP2, the first pop being `a`. -/
  | pop2 (a : BitVec 9)
  /-- B_MERGE of the first pop `a` and the second `c`. -/
  | merge (a c : BitVec 9)
  | done
deriving DecidableEq, Repr

/-- The FSM's state: its sub-state, the builder's registers, and the block it works on. -/
structure BuildFsm where
  phase   : BuildPhase
  builder : Builder
  block   : State
deriving DecidableEq, Repr

/-- What B_CHECK writes when |Q| ≤ 1 (42_tree_builder R123, R124, R125, R128); `n` leaves and NEXT nodes were created. -/
def BuildFsm.results (b : BuildFsm) : State :=
  let n := (b.block.freq.toList.filter (fun c => c ≠ 0)).length
  { b.block with
    nodes := b.builder.nodes
    nsym := BitVec.ofNat 9 n
    nnodes := BitVec.ofNat 10 b.builder.next
    rootValid := n ≠ 0
    rootIndex := BitVec.ofNat 9 (b.builder.next - 1)
    treeValid := true }

/-- One sub-state's action and the next sub-state (42_tree_builder R128). -/
def BuildFsm.next (b : BuildFsm) : BuildFsm :=
  match b.phase with
  | .load x =>
    let c := b.block.freqAt (BitVec.ofNat 8 x)
    { b with
      builder := if c ≠ 0 then b.builder.push (leafNode (BitVec.ofNat 8 x) c) else b.builder
      phase := if x = 255 then .check else .load (x + 1) }
  | .check =>
    if b.builder.queue.length ≤ 1 then { b with block := b.results, phase := .done } else { b with phase := .pop1 }
  | .pop1 =>
    match popFirst b.builder.nodes b.builder.queue with
    | none => b
    | some (a, q) => { b with builder := { b.builder with queue := q }, phase := .pop2 a }
  | .pop2 a =>
    match popFirst b.builder.nodes b.builder.queue with
    | none => b
    | some (c, q) => { b with builder := { b.builder with queue := q }, phase := .merge a c }
  | .merge a c => { b with builder := b.builder.push (mergedNode b.builder.nodes a c), phase := .check }
  | .done => b

/-- `k` actions of the FSM. -/
def BuildFsm.iterate : Nat → BuildFsm → BuildFsm
  | 0, b => b
  | k + 1, b => BuildFsm.iterate k b.next

/-- BUILD_TREE's first sub-state: B_LOAD of symbol 0 with an empty queue (42_tree_builder R123, R128). -/
def BuildFsm.start (s : State) : BuildFsm :=
  { phase := .load 0, builder := { nodes := s.nodes, queue := [], next := 0 }, block := s }

/-! ## The traversal FSM -/

/-- An entry of GEN_CODES's traversal stack (43_codebook R145): a 9-bit node index, an 8-bit length, a 255-bit partial
code. -/
structure WalkEntry where
  node : BitVec 9
  len  : Byte
  code : BitVec 255
deriving DecidableEq, Repr

/-- G_WALK (43_codebook R145): pop, write a leaf's code or push its children; the book when the stack is empty, none when
`fuel` pops were not enough. -/
def stackWalk (nodes : Vector Node 511) : Nat → List WalkEntry → Vector CbEntry 256 → Option (Vector CbEntry 256)
  | _, [], cb => some cb
  | 0, _ :: _, _ => none
  | fuel + 1, e :: stack, cb =>
    let nd := nodeAt nodes e.node
    if nd.isLeaf then stackWalk nodes fuel stack (setCb cb nd.symbol { len := e.len, code := e.code.setWidth 256 })
    else
      stackWalk nodes fuel
        ({ node := nd.left, len := e.len + 1, code := e.code <<< 1 } ::
          { node := nd.right, len := e.len + 1, code := (e.code <<< 1) ||| 1 } :: stack) cb

/-- G_WALK's first stack: the root, with the empty code (43_codebook R145). -/
def walkStart (s : State) : List WalkEntry := [{ node := s.rootIndex, len := 0, code := 0 }]

end Sys2Proof.Machine
end

