-- ==== Sys2Proof/Safety.lean ====
section
/-! DEFINITION. What counts as a sound state (10_state R52 and the field rules it rests on) and a safe step, in the terms
the statements use. Every predicate is decidable, so that a concrete state can be checked. -/

namespace Sys2Proof.Machine

/-- TOTAL = Σ FREQ, as exact numbers (10_state R35, R52 item 1). -/
abbrev State.TotalOk (s : State) : Prop := s.total.toNat = freqSum s.freq

/-- NNODES = 0 if NSYM = 0, else 2·NSYM − 1; NSYM ≤ 256 (10_state R36, R52 item 2). -/
abbrev State.CountsOk (s : State) : Prop :=
  s.nsym.toNat ≤ 256 ∧ s.nnodes.toNat = if s.nsym.toNat = 0 then 0 else 2 * s.nsym.toNat - 1

/-- ROOT.VALID = 1 iff NSYM ≥ 1, and then ROOT.INDEX = NNODES − 1; else INDEX is 0 (10_state R38, R52 item 3). -/
abbrev State.RootOk (s : State) : Prop :=
  (s.rootValid = true ↔ 1 ≤ s.nsym.toNat) ∧ s.rootIndex.toNat = s.nnodes.toNat - 1

/-- The valid NODE entries: leaves first, then internal nodes whose children have smaller indices and whose count is the
sum of theirs (10_state R47, R52 item 4, 42_tree_builder R127 item 1). -/
abbrev State.TreeOk (s : State) : Prop :=
  ∀ i : Fin 511, i.val < s.nnodes.toNat →
    ((s.nodes[i.val]).isLeaf = true ↔ i.val < s.nsym.toNat) ∧
    ((s.nodes[i.val]).isLeaf = false →
      (s.nodes[i.val]).left.toNat < i.val ∧ (s.nodes[i.val]).right.toNat < i.val ∧
      (s.nodes[i.val]).count =
        (nodeAt s.nodes (s.nodes[i.val]).left).count + (nodeAt s.nodes (s.nodes[i.val]).right).count)

/-- With TREE_VALID = 0 there is no tree: CLEAR and reset clear both (10_state R49, 40_control R103). -/
abbrev State.ValidOk (s : State) : Prop := s.treeValid = false → s.nsym = 0

/-- Every CB entry has LEN ≤ MAX_CODE_LEN (10_state R52 item 5). -/
abbrev State.BookOk (s : State) : Prop := ∀ x : Fin 256, (s.cb[x.val]).len.toNat ≤ s.cfg.maxCodeLen

/-- OUT_LEN ≤ OUT_DEPTH (10_state R32, R52 item 6). -/
abbrev State.OutOk (s : State) : Prop := s.outLen.toNat ≤ s.cfg.outDepth

/-- ERR = 1 exactly when ERR_CODE ≠ 0, and ERR_CODE is none of the reserved values 11–15 (10_state R27, 60_exceptions
R181, 93 V6). -/
abbrev State.ErrOk (s : State) : Prop := (s.err = true ↔ s.errCode ≠ 0) ∧ s.errCode.toNat ≤ 10

/-- The buffer memory is in its canonical form and lists only buffer bytes (20_memory R62). -/
abbrev State.MemOk (s : State) : Prop := Memory.wf s.mem ∧ ∀ c ∈ s.mem, inBuffer s.cfg c.1

/-- Every register, table and buffer but the parameters, IRQ_EN and IRQ_STATUS is as 10_state R53 gives it. -/
abbrev State.ResetValues (s : State) : Prop :=
  s.lastOp = 0 ∧ s.errCode = 0 ∧ s.err = false ∧ s.treeValid = false ∧ s.inLen = 0 ∧ s.bitLen = 0 ∧ s.outLen = 0 ∧
    s.errPos = 0 ∧ s.errSym = 0 ∧ s.total = 0 ∧ s.nsym = 0 ∧ s.nnodes = 0 ∧ s.rootValid = false ∧ s.rootIndex = 0 ∧
    s.sel = 0 ∧ s.freq = Vector.replicate 256 0 ∧ s.cb = Vector.replicate 256 CbEntry.zero ∧ s.mem = []

/-- During INIT everything but the busy-exempt IRQ registers stands at its reset value (70_reset_and_hazards R200, R204). -/
abbrev State.InitOk (s : State) : Prop := s.engine = .init → s.ResetValues

/-- The accepted word of a running command; 0 when none runs. -/
def Engine.word : Engine → Word
  | .init => 0
  | .idle => 0
  | .busy w => w

/-- An illegal command word: bits [31:4] not zero, or OP in 8 to 15 (30_encoding R84). -/
abbrev IllegalWord (w : Word) : Prop := w.toNat / 16 ≠ 0 ∨ 8 ≤ w.toNat % 16

/-- A command is running. -/
def Engine.running : Engine → Bool
  | .init => false
  | .idle => false
  | .busy _ => true

/-- While a command runs, the report fields are as its acceptance left them (10_state R27, 40_control R100). -/
abbrev State.BusyOk (s : State) : Prop :=
  s.engine.running = true →
    s.lastOp = opField s.engine.word ∧ s.errCode = 0 ∧ s.err = false ∧ s.errPos = 0 ∧ s.errSym = 0

/-- The invariant of the machine: legal parameters (00_scope R5) and everything above. -/
abbrev State.Inv (s : State) : Prop :=
  s.cfg.Ok ∧ s.TotalOk ∧ s.CountsOk ∧ s.RootOk ∧ s.TreeOk ∧ s.ValidOk ∧ s.BookOk ∧ s.OutOk ∧ s.ErrOk ∧ s.MemOk ∧
    s.InitOk ∧ s.BusyOk

/-- The step from `s` answers a next state: it neither faults nor is refused. -/
def State.Safe (s : State) : Prop := ∃ t, step s = .next t

/-! ## How a command's report reads -/

/-- `s` after a command with opcode `op` whose body left `s` and raised nothing (40_control R100, R101). -/
def State.endedOk (s : State) (op : BitVec 4) : State :=
  { s with
    lastOp := op, errCode := 0, err := false, errPos := 0, errSym := 0, irqStatus := s.irqStatus ||| 0b001,
    engine := .idle }

/-- `s` after a command with opcode `op` whose body left `s` and raised error `code` at position `pos` for symbol `sym`
(40_control R100, R101, 60_exceptions R180). -/
def State.endedErr (s : State) (op code : BitVec 4) (pos : Nat) (sym : Byte) : State :=
  { s with
    lastOp := op, errCode := code, err := true, errPos := BitVec.ofNat 32 pos, errSym := sym,
    irqStatus := s.irqStatus ||| 0b011, engine := .idle }

/-! ## Buffers and bit streams -/

/-- The bytes at `a` and on are written and are `bs`. -/
abbrev Memory.Holds (m : List Host.Cell) (a : Nat) (bs : List Byte) : Prop :=
  ∀ i : Fin bs.length, Memory.lookup m (a + i.val) = some bs[i.val]

/-- PayBit(p), if its byte is written (20_memory R65). -/
def payBitAt (m : List Host.Cell) (p : Nat) : Option Bool :=
  (Memory.lookup m (Config.payBase + p / 8)).map (fun b => b.getLsbD (7 - p % 8))

/-- The payload's first bits are written and are `bits`. -/
abbrev PayHolds (m : List Host.Cell) (bits : List Bool) : Prop :=
  ∀ p : Fin bits.length, payBitAt m p.val = some bits[p.val]

/-- `m'` is `m` with the stream `bits` in the PAY buffer, zero padding to the end of its last byte, and every other byte
unchanged (44_bitpack R152). -/
abbrev Flushed (m m' : List Host.Cell) (bits : List Bool) : Prop :=
  PayHolds m' bits ∧
    (∀ p, bits.length ≤ p → p < 8 * byteCount bits.length → payBitAt m' p = some false) ∧
    (∀ a, a < Config.payBase ∨ Config.payBase + byteCount bits.length ≤ a → Memory.lookup m' a = Memory.lookup m a)

/-- The codes of the symbols, one after the other (44_bitpack R150). -/
def bookStream (cb : Vector CbEntry 256) (xs : List Byte) : List Bool :=
  xs.flatMap (fun x => (cb[x.toNat]'x.isLt).codeSeq)

/-! ## The tree and the book -/

/-- NODE[i] by a plain index. -/
def State.nodeN (s : State) (i : Nat) : Node := nodeAt s.nodes (BitVec.ofNat 9 i)

/-- The symbols with a nonzero count, ascending (42_tree_builder R121). -/
def presentSymbols (freq : Vector Word 256) : List Byte :=
  ((List.range 256).map (BitVec.ofNat 8)).filter (fun x => freq[x.toNat]'x.isLt ≠ 0)

/-- The smaller key {COUNT, index} (42_tree_builder R120). -/
def State.KeyLt (s : State) (i j : Nat) : Prop :=
  (s.nodeN i).count.toNat < (s.nodeN j).count.toNat ∨ ((s.nodeN i).count = (s.nodeN j).count ∧ i < j)

/-- Node `i` is in the priority queue when NODE[k] is about to be created: it exists, and no internal node created before
has it as a child (42_tree_builder R121, R122). -/
def State.Waiting (s : State) (k i : Nat) : Prop :=
  i < k ∧ ∀ j, s.nsym.toNat ≤ j → j < k → (s.nodeN j).left.toNat ≠ i ∧ (s.nodeN j).right.toNat ≠ i

/-- The node a path leads to from node `i`: bit 0 to the left child, bit 1 to the right (43_codebook R141); none where the
path goes on below a leaf. -/
def followPath (nodes : Vector Node 511) : BitVec 9 → List Bool → Option (BitVec 9)
  | i, [] => some i
  | i, b :: bs =>
    if (nodeAt nodes i).isLeaf then none
    else followPath nodes (if b then (nodeAt nodes i).right else (nodeAt nodes i).left) bs

/-- The path `p` from the root leads to a leaf of symbol `x` (43_codebook R141). -/
def State.LeafAt (s : State) (p : List Bool) (x : Byte) : Prop :=
  ∃ i, followPath s.nodes s.rootIndex p = some i ∧ (nodeAt s.nodes i).isLeaf = true ∧ (nodeAt s.nodes i).symbol = x

/-- No code of the book is a prefix of another symbol's code (43_codebook R146 item 2). -/
abbrev PrefixFree (cb : Vector CbEntry 256) : Prop :=
  ∀ x : Fin 256, (cb[x.val]).len ≠ 0 → ∀ y : Fin 256, y ≠ x → (cb[y.val]).len ≠ 0 →
    ¬ (cb[x.val]).codeSeq <+: (cb[y.val]).codeSeq

/-- A prefix-free book with a code for exactly the symbols of `xs` (43_codebook R146). -/
abbrev BookFor (cb : Vector CbEntry 256) (xs : List Byte) : Prop :=
  PrefixFree cb ∧ ∀ x : Byte, (cb[x.toNat]'x.isLt).len ≠ 0 ↔ x ∈ xs

/-- `t` is `s` after an ENCODE of the input `xs` without error: the counts of `xs`, a book for it, its payload and the
payload's length; nothing else has changed but the tree and the lifecycle's flags (45_entrypoints R170). -/
def State.EncodedTo (s t : State) (xs : List Byte) : Prop :=
  t = ({ s with
    freq := t.freq, total := t.total, nodes := t.nodes, nsym := t.nsym, nnodes := t.nnodes,
    rootValid := t.rootValid, rootIndex := t.rootIndex, treeValid := true, cb := t.cb, mem := t.mem,
    bitLen := t.bitLen } : State).endedOk 7 ∧
  t.total.toNat = xs.length ∧ (∀ x, (t.freqAt x).toNat = xs.count x) ∧ BookFor t.cb xs ∧
  t.bitLen.toNat = (bookStream t.cb xs).length ∧ Flushed s.mem t.mem (bookStream t.cb xs)

/-- The shortest nonempty start of `bits` that is a code has length `n` and is `m`'s (44_bitpack R155, R156). -/
abbrev FirstMatch (cb : Vector CbEntry 256) (bits : List Bool) (n : Nat) (m : Byte) : Prop :=
  0 < n ∧ n ≤ bits.length ∧ matchCode cb (bits.take n) = some m ∧
    ∀ j, j < n → 0 < j → matchCode cb (bits.take j) = none

/-- The scan reads the symbols `ms` off `bits` and leaves `rest` (44_bitpack R155). -/
def Parses (cb : Vector CbEntry 256) : List Byte → List Bool → List Bool → Prop
  | [], bits, rest => bits = rest
  | m :: ms, bits, rest => ∃ n, FirstMatch cb bits n m ∧ Parses cb ms (bits.drop n) rest

/-- Bits are left, and no start of them is a code (44_bitpack R155: the scan is exhausted). -/
abbrev DeadEnd (cb : Vector CbEntry 256) (rest : List Bool) : Prop :=
  rest ≠ [] ∧ ∀ j, j < rest.length + 1 → 0 < j → matchCode cb (rest.take j) = none

/-! ## Host-port addresses -/

/-- An address in the reserved range or past a buffer's depth (20_memory R62). -/
abbrev AddrAbsent (p : Params) (a : Nat) : Prop :=
  (0x80 ≤ a ∧ a < 0x10000) ∨ (0x10000 ≤ a ∧ a < 0x20000 ∧ p.inDepth ≤ a - 0x10000) ∨
    (0x20000 ≤ a ∧ a < 0x30000 ∧ p.outDepth ≤ a - 0x20000) ∨ (0x30000 ≤ a ∧ p.payDepth ≤ a - 0x30000)

/-- A busy-exempt address (70_reset_and_hazards R204). -/
abbrev AddrExempt (a : Nat) : Prop := a ∈ [0x00, 0x04, 0x0C, 0x10, 0x14, 0x70, 0x74, 0x78, 0x7C]

/-- The address of a read-only register (10_state R23). -/
abbrev AddrReadOnly (a : Nat) : Prop :=
  a ∈ [0x00, 0x04, 0x0C, 0x20, 0x24, 0x28, 0x2C, 0x30, 0x34, 0x38, 0x44, 0x48, 0x70, 0x74, 0x78, 0x7C]

end Sys2Proof.Machine
end

