-- ==== Sys2Proof/Certificates/Slice0/Obligations.lean ====
section
/-! DEFINITION. The statements for the provers, from the numbered rules of spec/. In every statement about a command the
next state is given as an update of the state before, so that the statement is the command's frame too. -/

open Sys2Proof Sys2Proof.Machine

/-! ## Command words (30_encoding) -/

/-- Decoding and encoding agree, both ways: no bit of a command word is dropped, and every word has one meaning
(30_encoding R80, R82, R83). -/
def Obligations.DecodeAndEncodeAgree : Prop :=
  (∀ i : Instr, i.WellFormed → decode (encode i) = i) ∧
    (∀ w : Word, (decode w).WellFormed ∧ encode (decode w) = w)

/-- Decoding follows the opcode map, is total, and every command leaves its word's OP in LAST_OP (30_encoding R83). -/
def Obligations.DecodeFollowsOpcodeMap : Prop :=
  ∀ w : Word,
    (w.toNat / 16 ≠ 0 → ∃ res op, decode w = .illegalRes res op) ∧
    (w.toNat / 16 = 0 → w.toNat % 16 ≤ 7 →
      [Instr.nop, .clear, .freqCount, .buildTree, .genCodes, .pack, .unpack, .encode][w.toNat % 16]? = some (decode w)) ∧
    (w.toNat / 16 = 0 → 8 ≤ w.toNat % 16 → ∃ low, decode w = .illegalOp low) ∧
    (∀ s t, exec (decode w) s = .next t → t.lastOp.toNat = w.toNat % 16)

/-- The words of the opcode map, and three illegal words, decode to what they stand for (30_encoding R82, R84). -/
def Obligations.OpcodeWordsDecode : Prop :=
  decode 0x00000000 = .nop ∧ decode 0x00000001 = .clear ∧ decode 0x00000002 = .freqCount ∧
    decode 0x00000003 = .buildTree ∧ decode 0x00000004 = .genCodes ∧ decode 0x00000005 = .pack ∧
    decode 0x00000006 = .unpack ∧ decode 0x00000007 = .encode ∧ decode 0x00000009 = .illegalOp 1 ∧
    decode 0x00000013 = .illegalRes 1 3 ∧ decode 0x80000000 = .illegalRes 0x8000000 0

/-! ## Steps and the life of a command (00_scope R9, R10, 40_control R100, R101) -/

/-- A step takes the next event; the engine's move on an accepted word runs the command the word decodes to; a host
transaction waits for an illegal word's command, which completes at once (30_encoding R84); a step after `withFetchWord`
runs exactly that command. The order of events is the model's own (log entry 2). -/
def Obligations.StepRunsTheDecodedCommand : Prop :=
  (∀ (s : State) (w : Word), s.engine = .busy w → s.events = [] → step s = exec (decode w) s) ∧
  (∀ (s : State) (w : Word) (es : List Event), s.engine = .busy w → s.events = .engine :: es →
    step s = exec (decode w) { s with events := es }) ∧
  (∀ (s : State) (w : Nat), w < 2 ^ 32 →
    step (s.withFetchWord 32 w) = exec (decode (BitVec.ofNat 32 w)) { s with engine := .busy (BitVec.ofNat 32 w) }) ∧
  (∀ (s : State) (w : Word) (x : Txn) (es : List Event), s.engine = .busy w → IllegalWord w →
    s.events = .txn x :: es → step s = exec (decode w) s) ∧
  (∀ (s : State) (x : Txn) (es : List Event), (∀ w, s.engine = .busy w → ¬ IllegalWord w) → s.events = .txn x :: es →
    step s = .next (hostTxn x { s with events := es })) ∧
  (∀ s : State, s.engine = .idle → s.events = [] → step s = .next s)

/-- A whole-word CTRL write to an idle block is accepted: the last report is cleared, LAST_OP is the word's OP, STATUS
shows BUSY with ERR = 0 and ERR_CODE = 0, the response is OKAY, and nothing else changes (40_control R100, 10_state R27). -/
def Obligations.CtrlWriteIsAccepted : Prop :=
  ∀ (s : State) (w : Word) (es : List Event), s.engine = .idle → s.events = .txn (.write 0x008 0xF w) :: es →
    ∃ t, step s = .next t ∧
      t = { s with
        events := es, resp := some (.write .okay), err := false, errCode := 0, errPos := 0, errSym := 0,
        lastOp := opField w, engine := .busy w } ∧
      t.status.getLsbD 0 = true

/-- A CTRL write while the block is busy is dropped: SLVERR, DROP set, nothing else changes, STATUS as it was
(70_reset_and_hazards R205). As a step too, but for an illegal word's command, which has completed by the time the write
comes (30_encoding R84). -/
def Obligations.CtrlWriteWhileBusyIsDropped : Prop :=
  (∀ (s : State) (w : Word), s.engine ≠ .idle →
    hostWrite s 0x008 0xF w = (.slverr, { s with irqStatus := s.irqStatus ||| 0b100 }) ∧
    (hostWrite s 0x008 0xF w).2.status = s.status) ∧
  (∀ (s : State) (w : Word) (es : List Event), s.engine ≠ .idle → (∀ v, s.engine = .busy v → ¬ IllegalWord v) →
    s.events = .txn (.write 0x008 0xF w) :: es →
    ∃ t, step s = .next t ∧
      t = { s with events := es, resp := some (.write .slverr), irqStatus := s.irqStatus ||| 0b100 } ∧
      t.status = s.status)

/-- Every command that completes leaves the engine idle, sets DONE, sets ERR exactly when ERR_CODE ≠ 0, leaves DROP, and
reports ERR = 1 exactly when ERR_CODE ≠ 0, ERR_CODE being none of the reserved values (40_control R101, 10_state R27,
60_exceptions R181); no command writes IN_LEN, SEL, IRQ_EN or the parameters, nor touches the host's side (10_state R28,
R30, R39, R45). -/
def Obligations.CompletionOfEveryCommand : Prop :=
  ∀ (i : Instr) (s t : State), exec i s = .next t →
    t.engine = .idle ∧ t.irqStatus.getLsbD 0 = true ∧
    t.irqStatus.getLsbD 1 = (s.irqStatus.getLsbD 1 || decide (t.errCode ≠ 0)) ∧
    t.irqStatus.getLsbD 2 = s.irqStatus.getLsbD 2 ∧ (t.err = true ↔ t.errCode ≠ 0) ∧ t.errCode.toNat ≤ 10 ∧
    t.inLen = s.inLen ∧ t.sel = s.sel ∧ t.irqEn = s.irqEn ∧ t.cfg = s.cfg ∧ t.events = s.events ∧ t.resp = s.resp

/-- Which buffer bytes a command can change: UNPACK bytes of OUT, PACK and ENCODE bytes of PAY, no command any other
(20_memory R70). -/
def Obligations.CommandBufferFootprint : Prop :=
  ∀ (i : Instr) (s t : State), exec i s = .next t → ∀ a, Memory.lookup t.mem a ≠ Memory.lookup s.mem a →
    (i = .unpack ∧ Config.outBase ≤ a ∧ a < Config.outBase + s.cfg.outDepth) ∨
    ((i = .pack ∨ i = .encode) ∧ Config.payBase ≤ a ∧ a < Config.payBase + s.cfg.payDepth)

/-- What must survive until decode: CB, BIT_LEN and the buffers survive every command but CLEAR, GEN_CODES, PACK, ENCODE
and UNPACK, and UNPACK changes neither CB, nor BIT_LEN, nor a PAY byte (45_entrypoints R172). -/
def Obligations.PayloadAndBookSurvive : Prop :=
  ∀ (i : Instr) (s t : State), s.cfg.Ok → exec i s = .next t →
    (i ≠ .clear → i ≠ .genCodes → i ≠ .pack → i ≠ .encode → i ≠ .unpack →
      t.cb = s.cb ∧ t.bitLen = s.bitLen ∧ t.mem = s.mem) ∧
    (i = .unpack → t.cb = s.cb ∧ t.bitLen = s.bitLen ∧
      ∀ a, Config.payBase ≤ a → Memory.lookup t.mem a = Memory.lookup s.mem a)

/-! ## NOP, CLEAR, ILLEGAL (40_control R102–R104) -/

/-- NOP clears the error report, sets LAST_OP and DONE, and changes nothing else (40_control R102). -/
def Obligations.NopResult : Prop :=
  ∀ s : State, exec .nop s = .next (s.endedOk 0)

/-- CLEAR zeroes FREQ, CB, TOTAL, NSYM, NNODES, ROOT, TREE_VALID, BIT_LEN and OUT_LEN and nothing else; a second CLEAR
changes nothing more (40_control R103). -/
def Obligations.ClearResult : Prop :=
  (∀ s : State, exec .clear s = .next
    (({ s with
      freq := Vector.replicate 256 0, cb := Vector.replicate 256 { len := 0, code := 0 }, total := 0, nsym := 0,
      nnodes := 0, rootValid := false, rootIndex := 0, treeValid := false, bitLen := 0, outLen := 0 } : State).endedOk 1)) ∧
  (∀ s t : State, exec .clear s = .next t → exec .clear t = .next t)

/-- A reserved opcode and a word with reserved bits set end with ILLEGAL_OP at position 0 for symbol 0, LAST_OP the word's
OP, and change nothing else; so does every word with bits [31:4] set or with OP in 8 to 15 (40_control R104). Once such a
word is accepted it completes before any further event: the next host transaction sees the result (30_encoding R84). -/
def Obligations.IllegalWordResult : Prop :=
  (∀ (low : BitVec 3) (s : State), exec (.illegalOp low) s = .next (s.endedErr (8 ||| low.setWidth 4) 1 0 0)) ∧
  (∀ (res : BitVec 28) (op : BitVec 4) (s : State), exec (.illegalRes res op) s = .next (s.endedErr op 1 0 0)) ∧
  (∀ (w : Word) (s : State), IllegalWord w →
    exec (decode w) s = .next (s.endedErr (BitVec.ofNat 4 (w.toNat % 16)) 1 0 0)) ∧
  (∀ (w : Word) (s : State) (x : Txn) (es : List Event), IllegalWord w → s.engine = .idle →
    s.events = .txn (.write 0x008 0xF w) :: .txn x :: es →
    ∃ t u, step s = .next t ∧ step t = .next u ∧
      u = ({ s with events := .txn x :: es, resp := some (.write .okay) } : State).endedErr
        (BitVec.ofNat 4 (w.toNat % 16)) 1 0 0)

/-! ## Length checks (60_exceptions R184 item 1) -/

/-- The length checks come before any data is touched: BAD_LEN in FREQ_COUNT, PACK and ENCODE, MALFORMED_LENGTH in
UNPACK; only BIT_LEN or OUT_LEN is written, 0 (41_frequency R110, 44_bitpack R150, R155, 45_entrypoints R170). -/
def Obligations.LengthChecksComeFirst : Prop :=
  (∀ s : State, s.cfg.inDepth < s.inLen.toNat →
    exec .freqCount s = .next (s.endedErr 2 2 0 0) ∧
    exec .pack s = .next (({ s with bitLen := 0 } : State).endedErr 5 2 0 0) ∧
    exec .encode s = .next (({ s with bitLen := 0 } : State).endedErr 7 2 0 0)) ∧
  (∀ s : State, s.cfg.payDepth * 8 < s.bitLen.toNat →
    exec .unpack s = .next (({ s with outLen := 0 } : State).endedErr 6 9 0 0))

/-! ## The frequency counter (41_frequency) -/

/-- FREQ_COUNT adds the number of times each symbol occurs in the input to its FREQ entry and the input's length to
TOTAL, where the sum fits (41_frequency R110). -/
def Obligations.FreqCountCounts : Prop :=
  ∀ (s : State) (xs : List Byte), s.TotalOk → s.inLen.toNat = xs.length → xs.length ≤ s.cfg.inDepth →
    Memory.Holds s.mem Config.inBase xs → s.total.toNat + xs.length < 2 ^ 32 →
    ∃ t, exec .freqCount s = .next t ∧
      t = ({ s with freq := t.freq, total := t.total } : State).endedOk 2 ∧
      t.total.toNat = s.total.toNat + xs.length ∧
      ∀ x, (t.freqAt x).toNat = (s.freqAt x).toNat + xs.count x

/-- FREQ_COUNT stops with COUNT_OVERFLOW at the first input index at which TOTAL is 2^32 − 1; the increments before it
stay applied (41_frequency R110). -/
def Obligations.FreqCountOverflows : Prop :=
  ∀ (s : State) (before after : List Byte) (y : Byte), s.TotalOk →
    s.inLen.toNat = (before ++ y :: after).length → (before ++ y :: after).length ≤ s.cfg.inDepth →
    Memory.Holds s.mem Config.inBase (before ++ y :: after) → s.total.toNat + before.length = 2 ^ 32 - 1 →
    ∃ t, exec .freqCount s = .next t ∧
      t = ({ s with freq := t.freq, total := t.total } : State).endedErr 2 3 before.length y ∧
      t.total.toNat = 2 ^ 32 - 1 ∧
      ∀ x, (t.freqAt x).toNat = (s.freqAt x).toNat + before.count x

/-- After CLEAR and a FREQ_COUNT without error, TOTAL = IN_LEN and FREQ[x] is the number of input symbols that are x
(41_frequency R112). -/
def Obligations.CountsOfOneInput : Prop :=
  ∀ s t u : State, exec .clear s = .next t → exec .freqCount t = .next u → u.err = false →
    u.total = s.inLen ∧
    ∀ xs : List Byte, xs.length = s.inLen.toNat → Memory.Holds s.mem Config.inBase xs →
      ∀ x, (u.freqAt x).toNat = xs.count x

/-- A FREQ_DATA write while idle sets the selected entry and adjusts TOTAL, or gets SLVERR and changes nothing when TOTAL
would pass 2^32 − 1; while busy it gets SLVERR and changes nothing (41_frequency R111). -/
def Obligations.FreqDataWrite : Prop :=
  ∀ (s : State) (d : Word),
    let x : Byte := s.sel.setWidth 8
    let sum : Int := s.total.toNat - (s.freqAt x).toNat + d.toNat
    (s.engine = .idle → sum > 0xFFFFFFFF → hostWrite s 0x040 0xF d = (.slverr, s)) ∧
    (s.engine = .idle → s.TotalOk → sum ≤ 0xFFFFFFFF →
      ∃ t, hostWrite s 0x040 0xF d = (.okay, t) ∧ t = { s with freq := t.freq, total := t.total } ∧
        t.freqAt x = d ∧ (∀ y, y ≠ x → t.freqAt y = s.freqAt y) ∧ (t.total.toNat : Int) = sum) ∧
    (s.engine ≠ .idle → hostWrite s 0x040 0xF d = (.slverr, s))

/-! ## The tree builder (42_tree_builder) -/

/-- BUILD_TREE completes without error from every state and writes only NODE, NSYM, NNODES, ROOT and TREE_VALID; NSYM is
the number of symbols present, NNODES and ROOT follow from it (42_tree_builder R123, 10_state R36, R37, R38, R49). -/
def Obligations.BuildTreeCompletes : Prop :=
  ∀ s : State, ∃ t, exec .buildTree s = .next t ∧
    t = ({ s with
      nodes := t.nodes, nsym := t.nsym, nnodes := t.nnodes, rootValid := t.rootValid, rootIndex := t.rootIndex,
      treeValid := true } : State).endedOk 3 ∧
    t.nsym.toNat = (presentSymbols s.freq).length ∧
    t.nnodes.toNat = (if t.nsym.toNat = 0 then 0 else 2 * t.nsym.toNat - 1) ∧
    (t.rootValid = true ↔ 1 ≤ t.nsym.toNat) ∧ t.rootIndex.toNat = t.nnodes.toNat - 1

/-- BUILD_TREE's leaves are the symbols present, in ascending order, each with its count (42_tree_builder R121). -/
def Obligations.BuildTreeLeaves : Prop :=
  ∀ (s t : State), exec .buildTree s = .next t → ∀ (k : Nat) (x : Byte), (presentSymbols s.freq)[k]? = some x →
    t.nodeN k = { isLeaf := true, symbol := x, count := s.freqAt x, left := 0, right := 0 }

/-- Every internal node BUILD_TREE creates joins the two nodes that come first among those waiting in the queue: the first
is its left child, the second its right (42_tree_builder R120, R122). -/
def Obligations.BuildTreeMergesFirstTwo : Prop :=
  ∀ (s t : State), exec .buildTree s = .next t → ∀ k, t.nsym.toNat ≤ k → k < t.nnodes.toNat →
    let a := (t.nodeN k).left.toNat
    let b := (t.nodeN k).right.toNat
    (t.nodeN k).isLeaf = false ∧ (t.nodeN k).symbol = 0 ∧
    (t.nodeN k).count = (t.nodeN a).count + (t.nodeN b).count ∧
    t.Waiting k a ∧ t.Waiting k b ∧ t.KeyLt a b ∧
    ∀ i, t.Waiting k i → i ≠ a → i ≠ b → t.KeyLt b i

/-- The tree properties of 42_tree_builder R127: 2n − 1 nodes, leaves first; strict binary; children below their parents
and every node but the root a child of exactly one; the root's count is TOTAL; no leaf deeper than n − 1, so that with
MAX_CODE_LEN = 255 GEN_CODES cannot raise CODE_TOO_LONG. -/
def Obligations.BuildTreeProperties : Prop :=
  ∀ (s t : State), exec .buildTree s = .next t → 1 ≤ t.nsym.toNat →
    t.nnodes.toNat = 2 * t.nsym.toNat - 1 ∧ t.nsym.toNat ≤ 256 ∧
    (∀ i, i < t.nnodes.toNat → ((t.nodeN i).isLeaf = true ↔ i < t.nsym.toNat)) ∧
    (∀ i, t.nsym.toNat ≤ i → i < t.nnodes.toNat →
      (t.nodeN i).left.toNat < i ∧ (t.nodeN i).right.toNat < i ∧ (t.nodeN i).left ≠ (t.nodeN i).right) ∧
    (∀ i, i < t.nnodes.toNat → i ≠ t.rootIndex.toNat →
      ∃! j, t.nsym.toNat ≤ j ∧ j < t.nnodes.toNat ∧ ((t.nodeN j).left.toNat = i ∨ (t.nodeN j).right.toNat = i)) ∧
    (s.TotalOk → (t.nodeN t.rootIndex.toNat).count = s.total ∧ s.total.toNat = freqSum s.freq) ∧
    (∀ p x, t.LeafAt p x → p.length ≤ t.nsym.toNat - 1) ∧
    (t.cfg.maxCodeLen = 255 → ∃ u, exec .genCodes t = .next u ∧ u.errCode = 0)

/-- With exactly one symbol present no merge runs: ROOT is the lone leaf NODE[0], NNODES = 1, and GEN_CODES then gives the
symbol its 1-bit code (42_tree_builder R124). -/
def Obligations.BuildTreeOneSymbol : Prop :=
  ∀ (s : State) (x : Byte), s.freqAt x ≠ 0 → (∀ y, y ≠ x → s.freqAt y = 0) →
    ∃ t u, exec .buildTree s = .next t ∧
      t = ({ s with
        nodes := t.nodes, nsym := 1, nnodes := 1, rootValid := true, rootIndex := 0, treeValid := true } : State).endedOk 3 ∧
      t.nodeN 0 = { isLeaf := true, symbol := x, count := s.freqAt x, left := 0, right := 0 } ∧
      (∀ i, 1 ≤ i → i < 511 → t.nodeN i = s.nodeN i) ∧
      exec .genCodes t = .next u ∧ u.err = false ∧ u.cbAt x = { len := 1, code := 0 }

/-- With no symbol present there is no tree: NSYM, NNODES and ROOT are 0 and TREE_VALID is 1; GEN_CODES then produces the
empty book, and PACK of an empty input BIT_LEN = 0 (42_tree_builder R125). -/
def Obligations.BuildTreeNoSymbol : Prop :=
  ∀ s : State, (∀ y, s.freqAt y = 0) →
    ∃ t u v, exec .buildTree s = .next t ∧
      t = ({ s with
        nsym := 0, nnodes := 0, rootValid := false, rootIndex := 0, treeValid := true } : State).endedOk 3 ∧
      exec .genCodes t = .next u ∧ u.err = false ∧ (∀ x, u.cbAt x = { len := 0, code := 0 }) ∧
      (s.inLen = 0 → exec .pack u = .next v ∧ v.err = false ∧ v.bitLen = 0)

/-- Building again from the same FREQ changes nothing (42_tree_builder R123, Determinism). -/
def Obligations.BuildTreeTwiceIsOnce : Prop :=
  ∀ (s t : State), exec .buildTree s = .next t → exec .buildTree t = .next t

/-- An internal node's count is the exact sum of its children's, never above TOTAL: the 32-bit addition never wraps
(42_tree_builder R130). -/
def Obligations.CountsNeverWrap : Prop :=
  ∀ (s t : State), s.TotalOk → exec .buildTree s = .next t → ∀ k, t.nsym.toNat ≤ k → k < t.nnodes.toNat →
    (t.nodeN k).count.toNat =
      (t.nodeN (t.nodeN k).left.toNat).count.toNat + (t.nodeN (t.nodeN k).right.toNat).count.toNat ∧
    (t.nodeN k).count.toNat ≤ s.total.toNat

/-! ## The code-book generator (43_codebook) -/

/-- GEN_CODES without a tree ends with NO_TREE and leaves CB; with one symbol it gives that symbol LEN 1 and CODE 0 and no
other a code (43_codebook R140, R142). -/
def Obligations.GenCodesSpecialCases : Prop :=
  (∀ s : State, s.treeValid = false → exec .genCodes s = .next (s.endedErr 4 4 0 0)) ∧
  (∀ s : State, s.treeValid = true → s.nsym = 1 →
    ∃ t, exec .genCodes s = .next t ∧ t = ({ s with cb := t.cb } : State).endedOk 4 ∧
      ∀ x, t.cbAt x =
        if x = (nodeAt s.nodes s.rootIndex).symbol then { len := 1, code := 0 } else { len := 0, code := 0 })

/-- With NSYM = 0 and TREE_VALID = 1 GEN_CODES leaves every CB entry at LEN 0, without error (43_codebook R143). -/
def Obligations.GenCodesEmptyBook : Prop :=
  ∀ s : State, s.treeValid = true → s.nsym = 0 →
    exec .genCodes s = .next
      (({ s with cb := Vector.replicate 256 { len := 0, code := 0 } } : State).endedOk 4)

/-- From a sound state with a tree GEN_CODES completes without error when MAX_CODE_LEN = 255, writing only CB (43_codebook
R140, 42_tree_builder R127). -/
def Obligations.GenCodesCompletes : Prop :=
  ∀ s : State, s.Inv → s.treeValid = true → s.cfg.maxCodeLen = 255 →
    ∃ t, exec .genCodes s = .next t ∧ t = ({ s with cb := t.cb } : State).endedOk 4

/-- Every code GEN_CODES writes is the path from the root to a leaf of its symbol, with CODE bits at positions ≥ LEN zero,
and every leaf's symbol gets a code (43_codebook R140, R141). -/
def Obligations.GenCodesPathsAreCodes : Prop :=
  ∀ (s t : State), s.Inv → 2 ≤ s.nsym.toNat → exec .genCodes s = .next t → t.err = false →
    (∀ x, (t.cbAt x).len ≠ 0 →
      s.LeafAt (t.cbAt x).codeSeq x ∧ (t.cbAt x).code.toNat < 2 ^ (t.cbAt x).len.toNat) ∧
    (∀ p x, s.LeafAt p x → (t.cbAt x).len ≠ 0)

/-- No code of a book GEN_CODES makes is a prefix of another (43_codebook R146 item 2). -/
def Obligations.GenCodesPrefixFree : Prop :=
  ∀ (s t : State), s.Inv → exec .genCodes s = .next t → t.err = false → PrefixFree t.cb

/-- BUILD_TREE and then GEN_CODES give a code to exactly the symbols present, and with two or more it is the one path to
the symbol's leaf (43_codebook R146 item 1, R141). -/
def Obligations.BookCoversPresentSymbols : Prop :=
  ∀ (s t u : State), s.cfg.Ok → exec .buildTree s = .next t → exec .genCodes t = .next u → u.err = false →
    ∀ x, ((u.cbAt x).len ≠ 0 ↔ s.freqAt x ≠ 0) ∧
      (2 ≤ t.nsym.toNat → ∀ p, (t.LeafAt p x ↔ (u.cbAt x).len ≠ 0 ∧ (u.cbAt x).codeSeq = p))

/-- A leaf deeper than MAX_CODE_LEN makes GEN_CODES end with CODE_TOO_LONG, naming the lowest such symbol and its path
length, with CB all LEN 0; with MAX_CODE_LEN = 255 no sound state has such a leaf (43_codebook R144). -/
def Obligations.CodeTooLong : Prop :=
  (∀ s : State, s.Inv → s.treeValid = true → 2 ≤ s.nsym.toNat →
    (∃ p x, s.LeafAt p x ∧ s.cfg.maxCodeLen < p.length) →
    ∃ t p x, exec .genCodes s = .next t ∧
      t = ({ s with cb := Vector.replicate 256 { len := 0, code := 0 } } : State).endedErr 4 5 p.length x ∧
      s.LeafAt p x ∧ s.cfg.maxCodeLen < p.length ∧
      ∀ q y, s.LeafAt q y → s.cfg.maxCodeLen < q.length → x.toNat ≤ y.toNat) ∧
  (∀ s : State, s.Inv → 2 ≤ s.nsym.toNat → s.cfg.maxCodeLen = 255 → ∀ p x, s.LeafAt p x → p.length ≤ s.cfg.maxCodeLen)

/-! ## The packer (44_bitpack R150–R152) -/

/-- PACK writes the codes of the input symbols, in input order, into the PAY buffer and their exact number of bits into
BIT_LEN, pads the last byte with zeros and changes nothing else (44_bitpack R150). -/
def Obligations.PackResult : Prop :=
  ∀ (s : State) (xs : List Byte), s.cfg.Ok → s.inLen.toNat = xs.length → xs.length ≤ s.cfg.inDepth →
    Memory.Holds s.mem Config.inBase xs → (∀ x ∈ xs, (s.cbAt x).len ≠ 0) →
    (bookStream s.cb xs).length ≤ s.cfg.payDepth * 8 →
    ∃ t, exec .pack s = .next t ∧ t = ({ s with mem := t.mem, bitLen := t.bitLen } : State).endedOk 5 ∧
      t.bitLen.toNat = (bookStream s.cb xs).length ∧ Flushed s.mem t.mem (bookStream s.cb xs)

/-- PACK stops at the first symbol that has no code (UNKNOWN_SYMBOL) or whose code does not fit (PAYLOAD_OVERFLOW), the
former first; the codes before it stay written, BIT_LEN is 0 (44_bitpack R150, 60_exceptions R184 item 3). -/
def Obligations.PackStops : Prop :=
  ∀ (s : State) (before after : List Byte) (x : Byte), s.cfg.Ok →
    s.inLen.toNat = (before ++ x :: after).length → (before ++ x :: after).length ≤ s.cfg.inDepth →
    Memory.Holds s.mem Config.inBase (before ++ x :: after) → (∀ y ∈ before, (s.cbAt y).len ≠ 0) →
    (bookStream s.cb before).length ≤ s.cfg.payDepth * 8 →
    ((s.cbAt x).len = 0 →
      ∃ t, exec .pack s = .next t ∧
        t = ({ s with mem := t.mem, bitLen := 0 } : State).endedErr 5 6 before.length x ∧
        Flushed s.mem t.mem (bookStream s.cb before)) ∧
    ((s.cbAt x).len ≠ 0 → s.cfg.payDepth * 8 < (bookStream s.cb before).length + (s.cbAt x).len.toNat →
      ∃ t, exec .pack s = .next t ∧
        t = ({ s with mem := t.mem, bitLen := 0 } : State).endedErr 5 7 before.length x ∧
        Flushed s.mem t.mem (bookStream s.cb before))

/-- However PACK ends, the PAY buffer holds the codes of the symbols packed before the stop, zero padding to the end of
the last byte touched, and every later byte as it was (44_bitpack R152). The input symbols `xs` are the IN bytes, any
symbol standing for a byte that nothing has written. -/
def Obligations.PackFlushes : Prop :=
  ∀ (s t : State), s.cfg.Ok → exec .pack s = .next t →
    ∃ xs : List Byte, xs.length = s.inLen.toNat ∧
      (∀ (i : Fin xs.length) (b : Byte), Memory.lookup s.mem (Config.inBase + i.val) = some b → xs[i.val] = b) ∧
      Flushed s.mem t.mem (bookStream s.cb (xs.take (if t.err then t.errPos.toNat else xs.length)))

/-- PACK and UNPACK use only CODE[LEN−1:0]: two books that differ only above give the same results (10_state R44, 93 U13). -/
def Obligations.CodeBitsAboveLenIgnored : Prop :=
  ∀ (s t : State) (cb : Vector CbEntry 256) (i : Instr), i = .pack ∨ i = .unpack →
    (∀ x : Fin 256, (cb[x.val]).len = (s.cb[x.val]).len ∧
      ∀ j, j < (s.cb[x.val]).len.toNat → (cb[x.val]).code.getLsbD j = (s.cb[x.val]).code.getLsbD j) →
    exec i s = .next t → exec i { s with cb := cb } = .next { t with cb := cb }

/-! ## The unpacker (44_bitpack R155–R158) -/

/-- The inverse-book lookup gives the lowest symbol that has the candidate as its code, and none when there is none
(44_bitpack R156). -/
def Obligations.MatchIsLowestSymbol : Prop :=
  ∀ (cb : Vector CbEntry 256) (cand : List Bool),
    (∀ m : Byte, matchCode cb cand = some m ↔
      ((cb[m.toNat]'m.isLt).len ≠ 0 ∧ (cb[m.toNat]'m.isLt).codeSeq = cand ∧
        ∀ y : Byte, y.toNat < m.toNat → ¬ ((cb[y.toNat]'y.isLt).len ≠ 0 ∧ (cb[y.toNat]'y.isLt).codeSeq = cand))) ∧
    (matchCode cb cand = none ↔
      ∀ y : Byte, ¬ ((cb[y.toNat]'y.isLt).len ≠ 0 ∧ (cb[y.toNat]'y.isLt).codeSeq = cand))

/-- UNPACK writes the symbols the scan reads off the payload into the OUT buffer and their number into OUT_LEN, and
changes nothing else (44_bitpack R155). -/
def Obligations.UnpackResult : Prop :=
  ∀ (s : State) (bits : List Bool) (ms : List Byte), s.cfg.Ok → s.bitLen.toNat = bits.length →
    bits.length ≤ s.cfg.payDepth * 8 → PayHolds s.mem bits → Parses s.cb ms bits [] → ms.length ≤ s.cfg.outDepth →
    ∃ t, exec .unpack s = .next t ∧ t = ({ s with mem := t.mem, outLen := t.outLen } : State).endedOk 6 ∧
      t.outLen.toNat = ms.length ∧ Memory.Holds t.mem Config.outBase ms ∧
      ∀ a, a < Config.outBase ∨ Config.outBase + ms.length ≤ a → Memory.lookup t.mem a = Memory.lookup s.mem a

/-- UNPACK stops with MALFORMED_PAYLOAD where the bits left match no code, and with OUT_OVERFLOW at a symbol that does not
fit; OUT_LEN is 0, the symbols before it stay written (44_bitpack R155, 60_exceptions R184 item 4). -/
def Obligations.UnpackStops : Prop :=
  ∀ (s : State) (bits rest : List Bool) (ms : List Byte), s.cfg.Ok → s.bitLen.toNat = bits.length →
    bits.length ≤ s.cfg.payDepth * 8 → PayHolds s.mem bits → Parses s.cb ms bits rest →
    (DeadEnd s.cb rest → ms.length ≤ s.cfg.outDepth →
      ∃ t, exec .unpack s = .next t ∧
        t = ({ s with mem := t.mem, outLen := 0 } : State).endedErr 6 8 (bits.length - rest.length) 0 ∧
        Memory.Holds t.mem Config.outBase ms ∧
        ∀ a, a < Config.outBase ∨ Config.outBase + ms.length ≤ a → Memory.lookup t.mem a = Memory.lookup s.mem a) ∧
    (∀ n m, FirstMatch s.cb rest n m → ms.length = s.cfg.outDepth →
      ∃ t, exec .unpack s = .next t ∧
        t = ({ s with mem := t.mem, outLen := 0 } : State).endedErr 6 10 (bits.length - rest.length) m ∧
        Memory.Holds t.mem Config.outBase ms ∧
        ∀ a, a < Config.outBase ∨ Config.outBase + ms.length ≤ a → Memory.lookup t.mem a = Memory.lookup s.mem a)

/-- UNPACK's result does not depend on the padding bits nor on any other buffer byte: two memories that hold the same
payload bits give the same registers and the same symbols written (20_memory R66). -/
def Obligations.UnpackIgnoresPadding : Prop :=
  ∀ (s : State) (mem : List Host.Cell) (bits : List Bool), s.bitLen.toNat = bits.length → PayHolds s.mem bits →
    PayHolds mem bits →
    ∃ t outs, exec .unpack s = .next t ∧ t.mem = Memory.writeBytes s.mem Config.outBase outs ∧
      exec .unpack { s with mem := mem } = .next { t with mem := Memory.writeBytes mem Config.outBase outs }

/-- What PACK packs with a prefix-free book, UNPACK gives back (44_bitpack R159). -/
def Obligations.PackThenUnpack : Prop :=
  ∀ (s t : State) (xs : List Byte), s.cfg.Ok → s.inLen.toNat = xs.length → Memory.Holds s.mem Config.inBase xs →
    xs.length ≤ s.cfg.outDepth → PrefixFree s.cb → exec .pack s = .next t → t.err = false →
    ∃ u, exec .unpack t = .next u ∧ u.err = false ∧ u.outLen.toNat = xs.length ∧ Memory.Holds u.mem Config.outBase xs

/-! ## ENCODE (45_entrypoints) -/

/-- ENCODE is FREQ_COUNT on a cleared FREQ and TOTAL, BUILD_TREE, GEN_CODES and PACK in a row, as one command: LAST_OP is
7 and DONE is set once. A raise inside GEN_CODES ends it there, with its report, BIT_LEN = 0 and LAST_OP 7 (45_entrypoints
R170). -/
def Obligations.EncodeIsTheSequence : Prop :=
  ∀ s s1 s2 s3 : State, s.inLen.toNat ≤ s.cfg.inDepth →
    exec .freqCount { s with freq := Vector.replicate 256 0, total := 0 } = .next s1 → exec .buildTree s1 = .next s2 →
    exec .genCodes s2 = .next s3 →
    (∀ s4, s3.err = false → exec .pack s3 = .next s4 →
      exec .encode s = .next
        { s4 with lastOp := 7, irqStatus := s.irqStatus ||| 0b001 ||| (if s4.err then 0b010 else 0b000) }) ∧
    (s3.err = true →
      exec .encode s = .next { s3 with lastOp := 7, bitLen := 0, irqStatus := s.irqStatus ||| 0b011 })

/-- ENCODE of written input, with MAX_CODE_LEN = 255: it completes without error, with the counts, the book and the
payload of the input, when the payload buffer has room for codes as long as the number of symbols allows (42_tree_builder
R127 item 5), and in any case exactly when the codes of the book made fit; else PAYLOAD_OVERFLOW. With any MAX_CODE_LEN it
ends with no error, with CODE_TOO_LONG (CB all LEN 0, BIT_LEN 0, no buffer byte changed), or with PAYLOAD_OVERFLOW
(BIT_LEN 0) (45_entrypoints R170). -/
def Obligations.EncodeCompletes : Prop :=
  ∀ (s : State) (xs : List Byte), s.cfg.Ok → s.inLen.toNat = xs.length → xs.length ≤ s.cfg.inDepth →
    Memory.Holds s.mem Config.inBase xs →
    (s.cfg.maxCodeLen = 255 → max 1 (xs.dedup.length - 1) * xs.length ≤ s.cfg.payDepth * 8 →
      ∃ t, exec .encode s = .next t ∧ s.EncodedTo t xs) ∧
    (s.cfg.maxCodeLen = 255 →
      ∃ t, exec .encode s = .next t ∧ BookFor t.cb xs ∧
        ((bookStream t.cb xs).length ≤ s.cfg.payDepth * 8 → s.EncodedTo t xs) ∧
        (s.cfg.payDepth * 8 < (bookStream t.cb xs).length → t.errCode = 7 ∧ t.bitLen = 0 ∧ t.lastOp = 7)) ∧
    (∃ t, exec .encode s = .next t ∧ t.lastOp = 7 ∧
      (t.errCode = 0 ∨
        (t.errCode = 5 ∧ s.cfg.maxCodeLen < 255 ∧ t.cb = Vector.replicate 256 { len := 0, code := 0 } ∧
          t.bitLen = 0 ∧ t.mem = s.mem) ∨
        (t.errCode = 7 ∧ t.bitLen = 0)))

/-- The round trip: what ENCODE encodes without error, UNPACK decodes (44_bitpack R159). -/
def Obligations.EncodeThenUnpack : Prop :=
  ∀ (s t : State) (xs : List Byte), s.cfg.Ok → s.inLen.toNat = xs.length → Memory.Holds s.mem Config.inBase xs →
    xs.length ≤ s.cfg.outDepth → exec .encode s = .next t → t.err = false →
    ∃ u, exec .unpack t = .next u ∧ u.err = false ∧ u.outLen.toNat = xs.length ∧ Memory.Holds u.mem Config.outBase xs

/-! ## The reference datapaths -/

/-- The shift-mask packing pipeline computes exactly the PAY bytes, the bit count and the stop of the bit-level packer
(44_bitpack R151). -/
def Obligations.ShiftMaskPackerAgrees : Prop :=
  ∀ (s : State) (xs : List Byte),
    let p := packLoop s.cb s.payBitCap xs 0 0
    let d := Packer.run s.cb s.payBitCap xs 0 { acc := 0, accN := 0, pos := 0, mem := s.mem }
    d.1.mem = (s.writePay p.1).mem ∧ d.1.pos = p.1.length ∧ d.2 = p.2

/-- The unpack datapath, which fails early once the candidate register is full, ends exactly as the scan does (44_bitpack
R157, R158). -/
def Obligations.UnpackDatapathAgrees : Prop :=
  ∀ (s : State) (bits : List Bool),
    let u := unpackLoop s.cb s.cfg.outDepth bits 0 0 [] 0
    let d := Unpacker.run s.cb s.cfg.outDepth bits { cand := 0, candN := 0, pos := 0, k := 0, mem := s.mem }
    d.1.mem = (s.writeOut u.1).mem ∧ d.1.k = u.1.length ∧ d.2 = u.2

/-- The merge FSM reaches B_DONE with exactly BUILD_TREE's results (42_tree_builder R128). -/
def Obligations.MergeFsmAgrees : Prop :=
  ∀ s : State, ∃ k, (BuildFsm.iterate k (BuildFsm.start s)).phase = .done ∧
    buildTreeBody s = .done (BuildFsm.iterate k (BuildFsm.start s)).block

/-- The traversal FSM writes exactly the CB values of the path definition (43_codebook R145). -/
def Obligations.TraversalFsmAgrees : Prop :=
  ∀ (s : State) (ls : List (Byte × List Bool)) (cb : Vector CbEntry 256), s.paths = some ls → ls.length ≤ 256 →
    (∀ l ∈ ls, l.2.length ≤ 255) → stackWalk s.nodes 511 (walkStart s) cb = some (writeCodes ls cb)

/-! ## The host port (10_state, 20_memory, 60_exceptions R185) -/

/-- When a transaction gets SLVERR, and that it then changes nothing, reading 0, but for DROP at a dropped CTRL write.
(60_exceptions R185, 20_memory R61, R62, 70_reset_and_hazards R204, R205. A CTRL read while busy is the model's choice,
log entry 7.) -/
def Obligations.BusErrors : Prop :=
  ∀ (s : State) (a : BitVec 18), s.cfg.Ok →
    ((hostRead s a).2.1 = .slverr ↔
      a.toNat % 4 ≠ 0 ∨ AddrAbsent s.cfg a.toNat ∨ (s.engine ≠ .idle ∧ ¬ AddrExempt a.toNat)) ∧
    ((hostRead s a).2.1 = .slverr → (hostRead s a).1 = 0 ∧ (hostRead s a).2.2 = s) ∧
    ∀ (strb : BitVec 4) (d : Word),
      ((hostWrite s a strb d).1 = .slverr ↔
        a.toNat % 4 ≠ 0 ∨ strb ≠ 0xF ∨ AddrAbsent s.cfg a.toNat ∨ AddrReadOnly a.toNat ∨
        (a = 0x04C ∧ s.cfg.maxCodeLen < d.toNat % 256) ∨
        (a = 0x040 ∧ (s.total.toNat : Int) - (s.freqAt (s.sel.setWidth 8)).toNat + d.toNat > 0xFFFFFFFF) ∨
        (s.engine ≠ .idle ∧ ¬ AddrExempt a.toNat)) ∧
      ((hostWrite s a strb d).1 = .slverr → (hostWrite s a strb d).2 =
        if a = 0x008 ∧ strb = 0xF ∧ s.engine ≠ .idle then { s with irqStatus := s.irqStatus ||| 0b100 } else s)

/-- A window word written while idle is stored little-endian, byte j from bits [8j+7:8j], changes no other byte, and reads
back (20_memory R63, R64, R65). -/
def Obligations.WindowWordLayout : Prop :=
  ∀ (s : State) (a : BitVec 18) (d : Word), s.cfg.Ok → s.engine = .idle → a.toNat % 4 = 0 → inBuffer s.cfg a.toNat →
    ∃ t, hostWrite s a 0xF d = (.okay, t) ∧ t = { s with mem := t.mem } ∧
      (∀ j, j < 4 → Memory.lookup t.mem (a.toNat + j) = some (d.extractLsb' (8 * j) 8)) ∧
      (∀ b, b < a.toNat ∨ a.toNat + 4 ≤ b → Memory.lookup t.mem b = Memory.lookup s.mem b) ∧
      hostRead t a = (d, .okay, t)

/-- What reading each plain register gives: the busy-exempt ones in every state, the others in an idle block (10_state
R24–R26, R28–R37, R39, R40, R42, R43, R45, 70_reset_and_hazards R204). -/
def Obligations.RegisterReads : Prop :=
  (∀ s : State,
    hostRead s 0x000 = (0x48554646, .okay, s) ∧ hostRead s 0x004 = (0x00010000, .okay, s) ∧
    hostRead s 0x010 = (s.irqEn.setWidth 32, .okay, s) ∧ hostRead s 0x014 = (s.irqStatus.setWidth 32, .okay, s) ∧
    hostRead s 0x070 = (BitVec.ofNat 32 s.cfg.inDepth, .okay, s) ∧
    hostRead s 0x074 = (BitVec.ofNat 32 s.cfg.outDepth, .okay, s) ∧
    hostRead s 0x078 = (BitVec.ofNat 32 s.cfg.payDepth, .okay, s) ∧
    hostRead s 0x07C = (BitVec.ofNat 32 s.cfg.maxCodeLen, .okay, s)) ∧
  (∀ s : State, s.engine = .idle →
    hostRead s 0x008 = (0, .okay, s) ∧ hostRead s 0x018 = (s.inLen, .okay, s) ∧
    hostRead s 0x01C = (s.bitLen, .okay, s) ∧ hostRead s 0x020 = (s.outLen, .okay, s) ∧
    hostRead s 0x024 = (s.errPos, .okay, s) ∧ hostRead s 0x028 = (s.errSym.setWidth 32, .okay, s) ∧
    hostRead s 0x02C = (s.total, .okay, s) ∧ hostRead s 0x030 = (s.nsym.setWidth 32, .okay, s) ∧
    hostRead s 0x034 = (s.nnodes.setWidth 32, .okay, s) ∧ hostRead s 0x03C = (s.sel.setWidth 32, .okay, s) ∧
    hostRead s 0x040 = (s.freqAt (s.sel.setWidth 8), .okay, s) ∧
    hostRead s 0x048 = (if s.sel.toNat < s.nnodes.toNat then (nodeAt s.nodes s.sel).count else 0, .okay, s) ∧
    hostRead s 0x04C = ((s.cbAt (s.sel.setWidth 8)).len.setWidth 32, .okay, s))

/-- The fields of STATUS, ROOT and NODE_INFO (10_state R27, R38, R41). -/
def Obligations.PackedRegisterLayouts : Prop :=
  (∀ s : State, ∃ w, hostRead s 0x00C = (w, .okay, s) ∧
    w.extractLsb' 16 16 = 0 ∧ w.extractLsb' 12 4 = s.lastOp ∧ w.extractLsb' 8 4 = s.errCode ∧ w.extractLsb' 3 5 = 0 ∧
    w.getLsbD 2 = s.treeValid ∧ w.getLsbD 1 = s.err ∧ w.getLsbD 0 = decide (s.engine ≠ .idle)) ∧
  (∀ s : State, s.engine = .idle → ∃ w, hostRead s 0x038 = (w, .okay, s) ∧
    w.getLsbD 31 = s.rootValid ∧ w.extractLsb' 9 22 = 0 ∧ w.extractLsb' 0 9 = if s.rootValid then s.rootIndex else 0) ∧
  (∀ s : State, s.engine = .idle → s.sel.toNat < s.nnodes.toNat → ∃ w, hostRead s 0x044 = (w, .okay, s) ∧
    w.getLsbD 31 = (nodeAt s.nodes s.sel).isLeaf ∧ w.extractLsb' 26 5 = 0 ∧
    w.extractLsb' 18 8 = (nodeAt s.nodes s.sel).symbol ∧ w.extractLsb' 9 9 = (nodeAt s.nodes s.sel).right ∧
    w.extractLsb' 0 9 = (nodeAt s.nodes s.sel).left) ∧
  (∀ s : State, s.engine = .idle → s.nnodes.toNat ≤ s.sel.toNat → hostRead s 0x044 = (0, .okay, s))

/-- What writing each plain register does: IRQ_EN and IRQ_STATUS at any time, IN_LEN, BIT_LEN and SEL while idle; bits the
register does not have are not stored, and IRQ_STATUS bits are cleared by writing 1 (10_state R23, R28–R31, R39). -/
def Obligations.RegisterWrites : Prop :=
  ∀ (s : State) (d : Word),
    hostWrite s 0x010 0xF d = (.okay, { s with irqEn := d.extractLsb' 0 3 }) ∧
    hostWrite s 0x014 0xF d = (.okay, { s with irqStatus := s.irqStatus &&& ~~~(d.extractLsb' 0 3) }) ∧
    (s.engine = .idle →
      hostWrite s 0x018 0xF d = (.okay, { s with inLen := d }) ∧
      hostWrite s 0x01C 0xF d = (.okay, { s with bitLen := d }) ∧
      hostWrite s 0x03C 0xF d = (.okay, { s with sel := d.extractLsb' 0 9 }))

/-- Writes of the selected CB entry while idle: CB_LEN stores bits [7:0] up to MAX_CODE_LEN and rejects a larger value;
CB_CODEk stores all 32 bits of word k and reads back; neither touches the other field, another word or another entry
(10_state R43, R44). -/
def Obligations.CodeBookWrites : Prop :=
  ∀ (s : State) (d : Word), s.engine = .idle →
    let x : Byte := s.sel.setWidth 8
    (s.cfg.maxCodeLen < d.toNat % 256 → hostWrite s 0x04C 0xF d = (.slverr, s)) ∧
    (d.toNat % 256 ≤ s.cfg.maxCodeLen →
      ∃ t, hostWrite s 0x04C 0xF d = (.okay, t) ∧ t = { s with cb := t.cb } ∧
        (t.cbAt x).len.toNat = d.toNat % 256 ∧ (t.cbAt x).code = (s.cbAt x).code ∧
        ∀ y, y ≠ x → t.cbAt y = s.cbAt y) ∧
    (∀ k : Fin 8, ∃ t, hostWrite s (0x050 + 4 * BitVec.ofNat 18 k.val) 0xF d = (.okay, t) ∧ t = { s with cb := t.cb } ∧
      (t.cbAt x).len = (s.cbAt x).len ∧ (∀ y, y ≠ x → t.cbAt y = s.cbAt y) ∧
      (t.cbAt x).code.extractLsb' (32 * k.val) 32 = d ∧
      (∀ j : Fin 8, j ≠ k → (t.cbAt x).code.extractLsb' (32 * j.val) 32 = (s.cbAt x).code.extractLsb' (32 * j.val) 32) ∧
      hostRead t (0x050 + 4 * BitVec.ofNat 18 k.val) = (d, .okay, t))

/-- The interrupt line is high exactly while an enabled bit is pending; so it is high after a command with DONE_EN set, and
low once the host has cleared all three bits (60_exceptions R189). -/
def Obligations.IrqLine : Prop :=
  (∀ s : State, s.irq = true ↔ ∃ k, k < 3 ∧ s.irqStatus.getLsbD k = true ∧ s.irqEn.getLsbD k = true) ∧
  (∀ (i : Instr) (s t : State), s.irqEn.getLsbD 0 = true → exec i s = .next t → t.irq = true) ∧
  (∀ s : State, (hostWrite s 0x014 0xF 0x7).2.irq = false)

/-! ## Reset and the whole machine -/

/-- Asserting reset puts every register, table and buffer at its reset value and the engine in INIT; the end of INIT leaves
them there, sets no interrupt bit, and STATUS reads 0 (10_state R53, 70_reset_and_hazards R200, R201, R202). That IRQ_EN
and IRQ_STATUS keep what the host left in them during INIT is the model's choice (log entry 19). -/
def Obligations.ResetAndInit : Prop :=
  (∀ (s : State) (es : List Event), s.events = .reset :: es →
    ∃ t, step s = .next t ∧ t.engine = .init ∧ t.ResetValues ∧ t.irqEn = 0 ∧ t.irqStatus = 0 ∧ t.irq = false ∧
      t.cfg = s.cfg ∧ t.events = es ∧ t.status = 1) ∧
  (∀ s : State, s.InitOk → s.engine = .init → s.events = [] →
    ∃ t, step s = .next t ∧ t.engine = .idle ∧ t.ResetValues ∧ t.irqEn = s.irqEn ∧ t.irqStatus = s.irqStatus ∧
      t.cfg = s.cfg ∧ t.status = 0)

/-- The reset state is sound (10_state R52, R53). -/
def Obligations.ResetIsSound : Prop := State.reset.Inv

/-- Every step keeps the invariant: TOTAL = Σ FREQ, the counts and the root, the tree's shape, the book's lengths, OUT_LEN,
the error report, the buffers' canonical form, and what INIT and a running command leave alone (10_state R52, R27, R35,
R49, 60_exceptions R181). -/
def Obligations.StepKeepsInvariant : Prop :=
  ∀ (s t : State), s.Inv → step s = .next t → t.Inv

/-- A sound state's step always answers a next state: no command is refused and the model's one fault, a NODE table that
is no tree, is never reached (40_control R101, 60_exceptions R180). -/
def Obligations.SoundStateNeverStops : Prop :=
  ∀ s : State, s.Inv → s.Safe

/-- Every accepted command completes and INIT ends: each event takes at most two steps, its own and one for an illegal
word's command before it, and one more step finds the engine idle (70_reset_and_hazards R210, 40_control R101). -/
def Obligations.EveryCommandCompletes : Prop :=
  ∀ s : State, s.Inv →
    ∃ t, Host.Core.run core (2 * s.events.length + 1) s = .next t ∧ t.engine = .idle ∧ t.events = []
end

