-- ==== Sys2Proof/Laws/Memory.lean ====
section
/-! SUPPORT. The laws of the buffer memory: a read after a write, a write leaves every other byte alone, every operation
keeps the canonical form, and what reading written bytes gives (20_memory R63, 70_reset_and_hazards R209). -/

namespace Sys2Proof.Machine

/-! ## Lookup after a write -/

/-- Writing a byte sets it and leaves every other byte alone. -/
theorem Memory.lookup_write (m : List Host.Cell) (x y : Nat) (v : Byte) :
    Memory.lookup (Memory.write m x v) y = if x = y then some v else Memory.lookup m y := by
  induction m with
  | nil => simp [Memory.write, Memory.lookup]
  | cons c m ih =>
    obtain ⟨a, b⟩ := c
    simp only [Memory.write]
    split
    · simp [Memory.lookup]
    · split
      · rename_i _ h; subst h; simp only [Memory.lookup]; split <;> simp_all
      · simp only [Memory.lookup, ih]; split <;> split <;> simp_all

@[simp] theorem Memory.lookup_write_same (m : List Host.Cell) (x : Nat) (v : Byte) :
    Memory.lookup (Memory.write m x v) x = some v := by simp [Memory.lookup_write]

theorem Memory.lookup_write_other (m : List Host.Cell) {x y : Nat} (v : Byte) (h : x ≠ y) :
    Memory.lookup (Memory.write m x v) y = Memory.lookup m y := by simp [Memory.lookup_write, h]

/-- Writing bytes from `x` up sets exactly those bytes. -/
theorem Memory.lookup_writeBytes (vs : List Byte) : ∀ (m : List Host.Cell) (x y : Nat),
    Memory.lookup (Memory.writeBytes m x vs) y =
      if h : x ≤ y ∧ y - x < vs.length then some (vs[y - x]'h.2) else Memory.lookup m y := by
  induction vs with
  | nil => intro m x y; simp [Memory.writeBytes]
  | cons v vs ih =>
    intro m x y
    rw [Memory.writeBytes, ih]
    by_cases hxy : x = y
    · subst hxy; simp
    · by_cases hlt : x < y
      · have e : y - x = (y - (x + 1)) + 1 := by omega
        by_cases hl : y - (x + 1) < vs.length
        · rw [dif_pos ⟨by omega, hl⟩, dif_pos ⟨by omega, by simp; omega⟩]
          simp only [e, List.getElem_cons_succ]
        · rw [dif_neg (by omega), dif_neg (by simp; omega), Memory.lookup_write_other _ _ hxy]
      · rw [dif_neg (by omega), dif_neg (by omega), Memory.lookup_write_other _ _ hxy]

/-- A byte outside the written range is as before. -/
theorem Memory.lookup_writeBytes_outside (m : List Host.Cell) (x y : Nat) (vs : List Byte)
    (h : y < x ∨ x + vs.length ≤ y) : Memory.lookup (Memory.writeBytes m x vs) y = Memory.lookup m y := by
  rw [Memory.lookup_writeBytes, dif_neg (by omega)]

/-! ## The canonical form -/

/-- The addresses listed after a write are the old ones and the new one. -/
theorem Memory.mem_write (m : List Host.Cell) (x : Nat) (v : Byte) (c : Host.Cell) (h : c ∈ Memory.write m x v) :
    c = (x, v) ∨ c ∈ m := by
  induction m with
  | nil => simpa [Memory.write] using h
  | cons d m ih =>
    obtain ⟨a, b⟩ := d
    simp only [Memory.write] at h
    split at h
    · simpa using h
    · split at h
      · rcases List.mem_cons.1 h with h | h <;> simp [h]
      · rcases List.mem_cons.1 h with h | h
        · simp [h]
        · rcases ih h with h | h <;> simp [h]

/-- A write keeps the canonical form. -/
theorem Memory.write_keeps_wf (m : List Host.Cell) (x : Nat) (v : Byte) (h : Memory.wf m) :
    Memory.wf (Memory.write m x v) := by
  induction m with
  | nil => simp [Memory.write, Memory.wf]
  | cons d m ih =>
    obtain ⟨a, b⟩ := d
    simp only [Memory.wf, List.map_cons, List.pairwise_cons] at h
    obtain ⟨h1, h2⟩ := h
    simp only [Memory.write]
    split
    · rename_i hx
      simp only [Memory.wf, List.map_cons, List.pairwise_cons]
      refine ⟨?_, h1, h2⟩
      intro y hy
      rcases List.mem_cons.1 hy with rfl | hy
      · exact hx
      · exact Nat.lt_trans hx (h1 y hy)
    · split
      · rename_i _ hx; subst hx
        simp only [Memory.wf, List.map_cons, List.pairwise_cons]
        exact ⟨h1, h2⟩
      · simp only [Memory.wf, List.map_cons, List.pairwise_cons]
        refine ⟨?_, ih h2⟩
        intro y hy
        obtain ⟨c, hc, rfl⟩ := List.mem_map.1 hy
        rcases Memory.mem_write m x v c hc with rfl | hc
        · show a < x; omega
        · exact h1 _ (List.mem_map.2 ⟨c, hc, rfl⟩)

/-- Writing several bytes keeps the canonical form. -/
theorem Memory.writeBytes_keeps_wf (vs : List Byte) : ∀ (m : List Host.Cell) (x : Nat), Memory.wf m →
    Memory.wf (Memory.writeBytes m x vs) := by
  induction vs with
  | nil => intro m x h; exact h
  | cons v vs ih => intro m x h; exact ih _ _ (Memory.write_keeps_wf m x v h)

/-- The cells listed after writing bytes are old ones or lie in the written range. -/
theorem Memory.mem_writeBytes (vs : List Byte) : ∀ (m : List Host.Cell) (x : Nat) (c : Host.Cell),
    c ∈ Memory.writeBytes m x vs → (x ≤ c.1 ∧ c.1 < x + vs.length) ∨ c ∈ m := by
  induction vs with
  | nil => intro m x c h; exact .inr h
  | cons v vs ih =>
    intro m x c h
    rcases ih _ _ _ h with h | h
    · left; simp; omega
    · rcases Memory.mem_write m x v c h with rfl | h
      · left; simp
      · exact .inr h

/-- The reset state's memory is in canonical form. -/
theorem Memory.reset_wf : Memory.wf State.reset.mem := by simp [State.reset, Memory.wf]

/-! ## Reading -/

/-- Reading gives as many bytes as asked for. -/
@[simp] theorem Memory.readBytes_length (m : List Host.Cell) (n : Nat) : ∀ x d,
    (Memory.readBytes m x n d).1.length = n := by
  induction n with
  | zero => intro x d; rfl
  | succ n ih => intro x d; simp [Memory.readBytes, ih]

/-- Reading never takes a free value back. -/
theorem Memory.readBytes_draws (m : List Host.Cell) (n : Nat) : ∀ x d, d ≤ (Memory.readBytes m x n d).2 := by
  induction n with
  | zero => intro x d; exact Nat.le_refl d
  | succ n ih =>
    intro x d
    refine Nat.le_trans ?_ (ih (x + 1) _)
    simp only [Memory.read]; split <;> simp

/-- Reading bytes that are all written gives them and draws no free value. -/
theorem Memory.readBytes_written (m : List Host.Cell) (bs : List Byte) : ∀ (x d : Nat),
    (∀ i, (h : i < bs.length) → Memory.lookup m (x + i) = some bs[i]) → Memory.readBytes m x bs.length d = (bs, d) := by
  induction bs with
  | nil => intro x d _; rfl
  | cons b bs ih =>
    intro x d h
    have h0 : Memory.lookup m x = some b := h 0 (Nat.succ_pos _)
    have hr : Memory.read m x d = (b, d) := by simp [Memory.read, h0]
    have ht := ih (x + 1) d (fun i hi => by
      have e : x + 1 + i = x + (i + 1) := by omega
      rw [e]; exact h (i + 1) (Nat.succ_lt_succ hi))
    simp [Memory.readBytes, hr, ht]

end Sys2Proof.Machine
end

