-- ==== Sys2Proof/Laws/State.lean ====
section
/-! SUPPORT. One lemma per field of State and shared update, each true by rfl, so that no proof unfolds a record update. -/

namespace Sys2Proof.Machine

/-! Acceptance (40_control R100) -/

@[simp] theorem State.accept_cfg (s : State) (w : Word) : (s.accept w).cfg = s.cfg := rfl
@[simp] theorem State.accept_engine (s : State) (w : Word) : (s.accept w).engine = .busy w := rfl
@[simp] theorem State.accept_lastOp (s : State) (w : Word) : (s.accept w).lastOp = opField w := rfl
@[simp] theorem State.accept_errCode (s : State) (w : Word) : (s.accept w).errCode = 0 := rfl
@[simp] theorem State.accept_err (s : State) (w : Word) : (s.accept w).err = false := rfl
@[simp] theorem State.accept_treeValid (s : State) (w : Word) : (s.accept w).treeValid = s.treeValid := rfl
@[simp] theorem State.accept_irqEn (s : State) (w : Word) : (s.accept w).irqEn = s.irqEn := rfl
@[simp] theorem State.accept_irqStatus (s : State) (w : Word) : (s.accept w).irqStatus = s.irqStatus := rfl
@[simp] theorem State.accept_inLen (s : State) (w : Word) : (s.accept w).inLen = s.inLen := rfl
@[simp] theorem State.accept_bitLen (s : State) (w : Word) : (s.accept w).bitLen = s.bitLen := rfl
@[simp] theorem State.accept_outLen (s : State) (w : Word) : (s.accept w).outLen = s.outLen := rfl
@[simp] theorem State.accept_errPos (s : State) (w : Word) : (s.accept w).errPos = 0 := rfl
@[simp] theorem State.accept_errSym (s : State) (w : Word) : (s.accept w).errSym = 0 := rfl
@[simp] theorem State.accept_total (s : State) (w : Word) : (s.accept w).total = s.total := rfl
@[simp] theorem State.accept_nsym (s : State) (w : Word) : (s.accept w).nsym = s.nsym := rfl
@[simp] theorem State.accept_nnodes (s : State) (w : Word) : (s.accept w).nnodes = s.nnodes := rfl
@[simp] theorem State.accept_rootValid (s : State) (w : Word) : (s.accept w).rootValid = s.rootValid := rfl
@[simp] theorem State.accept_rootIndex (s : State) (w : Word) : (s.accept w).rootIndex = s.rootIndex := rfl
@[simp] theorem State.accept_sel (s : State) (w : Word) : (s.accept w).sel = s.sel := rfl
@[simp] theorem State.accept_freq (s : State) (w : Word) : (s.accept w).freq = s.freq := rfl
@[simp] theorem State.accept_nodes (s : State) (w : Word) : (s.accept w).nodes = s.nodes := rfl
@[simp] theorem State.accept_cb (s : State) (w : Word) : (s.accept w).cb = s.cb := rfl
@[simp] theorem State.accept_mem (s : State) (w : Word) : (s.accept w).mem = s.mem := rfl
@[simp] theorem State.accept_events (s : State) (w : Word) : (s.accept w).events = s.events := rfl
@[simp] theorem State.accept_resp (s : State) (w : Word) : (s.accept w).resp = s.resp := rfl
@[simp] theorem State.accept_draws (s : State) (w : Word) : (s.accept w).draws = s.draws := rfl

/-! Raising an error (60_exceptions R180) -/

@[simp] theorem State.raise_cfg (s : State) (e : CmdError) : (s.raise e).cfg = s.cfg := rfl
@[simp] theorem State.raise_engine (s : State) (e : CmdError) : (s.raise e).engine = s.engine := rfl
@[simp] theorem State.raise_lastOp (s : State) (e : CmdError) : (s.raise e).lastOp = s.lastOp := rfl
@[simp] theorem State.raise_errCode (s : State) (e : CmdError) : (s.raise e).errCode = e.code.bits := rfl
@[simp] theorem State.raise_err (s : State) (e : CmdError) : (s.raise e).err = true := rfl
@[simp] theorem State.raise_treeValid (s : State) (e : CmdError) : (s.raise e).treeValid = s.treeValid := rfl
@[simp] theorem State.raise_irqEn (s : State) (e : CmdError) : (s.raise e).irqEn = s.irqEn := rfl
@[simp] theorem State.raise_irqStatus (s : State) (e : CmdError) : (s.raise e).irqStatus = s.irqStatus := rfl
@[simp] theorem State.raise_inLen (s : State) (e : CmdError) : (s.raise e).inLen = s.inLen := rfl
@[simp] theorem State.raise_bitLen (s : State) (e : CmdError) : (s.raise e).bitLen = s.bitLen := rfl
@[simp] theorem State.raise_outLen (s : State) (e : CmdError) : (s.raise e).outLen = s.outLen := rfl
@[simp] theorem State.raise_errPos (s : State) (e : CmdError) : (s.raise e).errPos = BitVec.ofNat 32 e.pos := rfl
@[simp] theorem State.raise_errSym (s : State) (e : CmdError) : (s.raise e).errSym = e.sym := rfl
@[simp] theorem State.raise_total (s : State) (e : CmdError) : (s.raise e).total = s.total := rfl
@[simp] theorem State.raise_nsym (s : State) (e : CmdError) : (s.raise e).nsym = s.nsym := rfl
@[simp] theorem State.raise_nnodes (s : State) (e : CmdError) : (s.raise e).nnodes = s.nnodes := rfl
@[simp] theorem State.raise_rootValid (s : State) (e : CmdError) : (s.raise e).rootValid = s.rootValid := rfl
@[simp] theorem State.raise_rootIndex (s : State) (e : CmdError) : (s.raise e).rootIndex = s.rootIndex := rfl
@[simp] theorem State.raise_sel (s : State) (e : CmdError) : (s.raise e).sel = s.sel := rfl
@[simp] theorem State.raise_freq (s : State) (e : CmdError) : (s.raise e).freq = s.freq := rfl
@[simp] theorem State.raise_nodes (s : State) (e : CmdError) : (s.raise e).nodes = s.nodes := rfl
@[simp] theorem State.raise_cb (s : State) (e : CmdError) : (s.raise e).cb = s.cb := rfl
@[simp] theorem State.raise_mem (s : State) (e : CmdError) : (s.raise e).mem = s.mem := rfl
@[simp] theorem State.raise_events (s : State) (e : CmdError) : (s.raise e).events = s.events := rfl
@[simp] theorem State.raise_resp (s : State) (e : CmdError) : (s.raise e).resp = s.resp := rfl
@[simp] theorem State.raise_draws (s : State) (e : CmdError) : (s.raise e).draws = s.draws := rfl

/-! Completion (40_control R101) -/

@[simp] theorem State.complete_cfg (s : State) : (s.complete).cfg = s.cfg := rfl
@[simp] theorem State.complete_engine (s : State) : (s.complete).engine = .idle := rfl
@[simp] theorem State.complete_lastOp (s : State) : (s.complete).lastOp = s.lastOp := rfl
@[simp] theorem State.complete_errCode (s : State) : (s.complete).errCode = s.errCode := rfl
@[simp] theorem State.complete_err (s : State) : (s.complete).err = s.err := rfl
@[simp] theorem State.complete_treeValid (s : State) : (s.complete).treeValid = s.treeValid := rfl
@[simp] theorem State.complete_irqEn (s : State) : (s.complete).irqEn = s.irqEn := rfl
@[simp] theorem State.complete_irqStatus (s : State) : (s.complete).irqStatus = s.irqStatus ||| irqDone ||| (if s.errCode = 0 then 0 else irqErr) := rfl
@[simp] theorem State.complete_inLen (s : State) : (s.complete).inLen = s.inLen := rfl
@[simp] theorem State.complete_bitLen (s : State) : (s.complete).bitLen = s.bitLen := rfl
@[simp] theorem State.complete_outLen (s : State) : (s.complete).outLen = s.outLen := rfl
@[simp] theorem State.complete_errPos (s : State) : (s.complete).errPos = s.errPos := rfl
@[simp] theorem State.complete_errSym (s : State) : (s.complete).errSym = s.errSym := rfl
@[simp] theorem State.complete_total (s : State) : (s.complete).total = s.total := rfl
@[simp] theorem State.complete_nsym (s : State) : (s.complete).nsym = s.nsym := rfl
@[simp] theorem State.complete_nnodes (s : State) : (s.complete).nnodes = s.nnodes := rfl
@[simp] theorem State.complete_rootValid (s : State) : (s.complete).rootValid = s.rootValid := rfl
@[simp] theorem State.complete_rootIndex (s : State) : (s.complete).rootIndex = s.rootIndex := rfl
@[simp] theorem State.complete_sel (s : State) : (s.complete).sel = s.sel := rfl
@[simp] theorem State.complete_freq (s : State) : (s.complete).freq = s.freq := rfl
@[simp] theorem State.complete_nodes (s : State) : (s.complete).nodes = s.nodes := rfl
@[simp] theorem State.complete_cb (s : State) : (s.complete).cb = s.cb := rfl
@[simp] theorem State.complete_mem (s : State) : (s.complete).mem = s.mem := rfl
@[simp] theorem State.complete_events (s : State) : (s.complete).events = s.events := rfl
@[simp] theorem State.complete_resp (s : State) : (s.complete).resp = s.resp := rfl
@[simp] theorem State.complete_draws (s : State) : (s.complete).draws = s.draws := rfl

/-! A buffer write (20_memory R63) -/

@[simp] theorem State.writeBytes_cfg (s : State) (a : Nat) (bs : List Byte) : (s.writeBytes a bs).cfg = s.cfg := rfl
@[simp] theorem State.writeBytes_engine (s : State) (a : Nat) (bs : List Byte) : (s.writeBytes a bs).engine = s.engine := rfl
@[simp] theorem State.writeBytes_lastOp (s : State) (a : Nat) (bs : List Byte) : (s.writeBytes a bs).lastOp = s.lastOp := rfl
@[simp] theorem State.writeBytes_errCode (s : State) (a : Nat) (bs : List Byte) : (s.writeBytes a bs).errCode = s.errCode := rfl
@[simp] theorem State.writeBytes_err (s : State) (a : Nat) (bs : List Byte) : (s.writeBytes a bs).err = s.err := rfl
@[simp] theorem State.writeBytes_treeValid (s : State) (a : Nat) (bs : List Byte) : (s.writeBytes a bs).treeValid = s.treeValid := rfl
@[simp] theorem State.writeBytes_irqEn (s : State) (a : Nat) (bs : List Byte) : (s.writeBytes a bs).irqEn = s.irqEn := rfl
@[simp] theorem State.writeBytes_irqStatus (s : State) (a : Nat) (bs : List Byte) : (s.writeBytes a bs).irqStatus = s.irqStatus := rfl
@[simp] theorem State.writeBytes_inLen (s : State) (a : Nat) (bs : List Byte) : (s.writeBytes a bs).inLen = s.inLen := rfl
@[simp] theorem State.writeBytes_bitLen (s : State) (a : Nat) (bs : List Byte) : (s.writeBytes a bs).bitLen = s.bitLen := rfl
@[simp] theorem State.writeBytes_outLen (s : State) (a : Nat) (bs : List Byte) : (s.writeBytes a bs).outLen = s.outLen := rfl
@[simp] theorem State.writeBytes_errPos (s : State) (a : Nat) (bs : List Byte) : (s.writeBytes a bs).errPos = s.errPos := rfl
@[simp] theorem State.writeBytes_errSym (s : State) (a : Nat) (bs : List Byte) : (s.writeBytes a bs).errSym = s.errSym := rfl
@[simp] theorem State.writeBytes_total (s : State) (a : Nat) (bs : List Byte) : (s.writeBytes a bs).total = s.total := rfl
@[simp] theorem State.writeBytes_nsym (s : State) (a : Nat) (bs : List Byte) : (s.writeBytes a bs).nsym = s.nsym := rfl
@[simp] theorem State.writeBytes_nnodes (s : State) (a : Nat) (bs : List Byte) : (s.writeBytes a bs).nnodes = s.nnodes := rfl
@[simp] theorem State.writeBytes_rootValid (s : State) (a : Nat) (bs : List Byte) : (s.writeBytes a bs).rootValid = s.rootValid := rfl
@[simp] theorem State.writeBytes_rootIndex (s : State) (a : Nat) (bs : List Byte) : (s.writeBytes a bs).rootIndex = s.rootIndex := rfl
@[simp] theorem State.writeBytes_sel (s : State) (a : Nat) (bs : List Byte) : (s.writeBytes a bs).sel = s.sel := rfl
@[simp] theorem State.writeBytes_freq (s : State) (a : Nat) (bs : List Byte) : (s.writeBytes a bs).freq = s.freq := rfl
@[simp] theorem State.writeBytes_nodes (s : State) (a : Nat) (bs : List Byte) : (s.writeBytes a bs).nodes = s.nodes := rfl
@[simp] theorem State.writeBytes_cb (s : State) (a : Nat) (bs : List Byte) : (s.writeBytes a bs).cb = s.cb := rfl
@[simp] theorem State.writeBytes_mem (s : State) (a : Nat) (bs : List Byte) : (s.writeBytes a bs).mem = Memory.writeBytes s.mem a bs := rfl
@[simp] theorem State.writeBytes_events (s : State) (a : Nat) (bs : List Byte) : (s.writeBytes a bs).events = s.events := rfl
@[simp] theorem State.writeBytes_resp (s : State) (a : Nat) (bs : List Byte) : (s.writeBytes a bs).resp = s.resp := rfl
@[simp] theorem State.writeBytes_draws (s : State) (a : Nat) (bs : List Byte) : (s.writeBytes a bs).draws = s.draws := rfl

/-! A buffer read (20_memory R69) -/

@[simp] theorem State.readBytes_cfg (s : State) (a n : Nat) : (s.readBytes a n).2.cfg = s.cfg := rfl
@[simp] theorem State.readBytes_engine (s : State) (a n : Nat) : (s.readBytes a n).2.engine = s.engine := rfl
@[simp] theorem State.readBytes_lastOp (s : State) (a n : Nat) : (s.readBytes a n).2.lastOp = s.lastOp := rfl
@[simp] theorem State.readBytes_errCode (s : State) (a n : Nat) : (s.readBytes a n).2.errCode = s.errCode := rfl
@[simp] theorem State.readBytes_err (s : State) (a n : Nat) : (s.readBytes a n).2.err = s.err := rfl
@[simp] theorem State.readBytes_treeValid (s : State) (a n : Nat) : (s.readBytes a n).2.treeValid = s.treeValid := rfl
@[simp] theorem State.readBytes_irqEn (s : State) (a n : Nat) : (s.readBytes a n).2.irqEn = s.irqEn := rfl
@[simp] theorem State.readBytes_irqStatus (s : State) (a n : Nat) : (s.readBytes a n).2.irqStatus = s.irqStatus := rfl
@[simp] theorem State.readBytes_inLen (s : State) (a n : Nat) : (s.readBytes a n).2.inLen = s.inLen := rfl
@[simp] theorem State.readBytes_bitLen (s : State) (a n : Nat) : (s.readBytes a n).2.bitLen = s.bitLen := rfl
@[simp] theorem State.readBytes_outLen (s : State) (a n : Nat) : (s.readBytes a n).2.outLen = s.outLen := rfl
@[simp] theorem State.readBytes_errPos (s : State) (a n : Nat) : (s.readBytes a n).2.errPos = s.errPos := rfl
@[simp] theorem State.readBytes_errSym (s : State) (a n : Nat) : (s.readBytes a n).2.errSym = s.errSym := rfl
@[simp] theorem State.readBytes_total (s : State) (a n : Nat) : (s.readBytes a n).2.total = s.total := rfl
@[simp] theorem State.readBytes_nsym (s : State) (a n : Nat) : (s.readBytes a n).2.nsym = s.nsym := rfl
@[simp] theorem State.readBytes_nnodes (s : State) (a n : Nat) : (s.readBytes a n).2.nnodes = s.nnodes := rfl
@[simp] theorem State.readBytes_rootValid (s : State) (a n : Nat) : (s.readBytes a n).2.rootValid = s.rootValid := rfl
@[simp] theorem State.readBytes_rootIndex (s : State) (a n : Nat) : (s.readBytes a n).2.rootIndex = s.rootIndex := rfl
@[simp] theorem State.readBytes_sel (s : State) (a n : Nat) : (s.readBytes a n).2.sel = s.sel := rfl
@[simp] theorem State.readBytes_freq (s : State) (a n : Nat) : (s.readBytes a n).2.freq = s.freq := rfl
@[simp] theorem State.readBytes_nodes (s : State) (a n : Nat) : (s.readBytes a n).2.nodes = s.nodes := rfl
@[simp] theorem State.readBytes_cb (s : State) (a n : Nat) : (s.readBytes a n).2.cb = s.cb := rfl
@[simp] theorem State.readBytes_mem (s : State) (a n : Nat) : (s.readBytes a n).2.mem = s.mem := rfl
@[simp] theorem State.readBytes_events (s : State) (a n : Nat) : (s.readBytes a n).2.events = s.events := rfl
@[simp] theorem State.readBytes_resp (s : State) (a n : Nat) : (s.readBytes a n).2.resp = s.resp := rfl
@[simp] theorem State.readBytes_draws (s : State) (a n : Nat) : (s.readBytes a n).2.draws = (Memory.readBytes s.mem a n s.draws).2 := rfl

/-! The end of INIT (70_reset_and_hazards R201) -/

@[simp] theorem endInit_cfg (s : State) : (endInit s).cfg = s.cfg := rfl
@[simp] theorem endInit_engine (s : State) : (endInit s).engine = .idle := rfl
@[simp] theorem endInit_lastOp (s : State) : (endInit s).lastOp = s.lastOp := rfl
@[simp] theorem endInit_errCode (s : State) : (endInit s).errCode = s.errCode := rfl
@[simp] theorem endInit_err (s : State) : (endInit s).err = s.err := rfl
@[simp] theorem endInit_treeValid (s : State) : (endInit s).treeValid = s.treeValid := rfl
@[simp] theorem endInit_irqEn (s : State) : (endInit s).irqEn = s.irqEn := rfl
@[simp] theorem endInit_irqStatus (s : State) : (endInit s).irqStatus = s.irqStatus := rfl
@[simp] theorem endInit_inLen (s : State) : (endInit s).inLen = s.inLen := rfl
@[simp] theorem endInit_bitLen (s : State) : (endInit s).bitLen = s.bitLen := rfl
@[simp] theorem endInit_outLen (s : State) : (endInit s).outLen = s.outLen := rfl
@[simp] theorem endInit_errPos (s : State) : (endInit s).errPos = s.errPos := rfl
@[simp] theorem endInit_errSym (s : State) : (endInit s).errSym = s.errSym := rfl
@[simp] theorem endInit_total (s : State) : (endInit s).total = s.total := rfl
@[simp] theorem endInit_nsym (s : State) : (endInit s).nsym = s.nsym := rfl
@[simp] theorem endInit_nnodes (s : State) : (endInit s).nnodes = s.nnodes := rfl
@[simp] theorem endInit_rootValid (s : State) : (endInit s).rootValid = s.rootValid := rfl
@[simp] theorem endInit_rootIndex (s : State) : (endInit s).rootIndex = s.rootIndex := rfl
@[simp] theorem endInit_sel (s : State) : (endInit s).sel = s.sel := rfl
@[simp] theorem endInit_freq (s : State) : (endInit s).freq = Vector.replicate 256 0 := rfl
@[simp] theorem endInit_nodes (s : State) : (endInit s).nodes = s.nodes := rfl
@[simp] theorem endInit_cb (s : State) : (endInit s).cb = Vector.replicate 256 CbEntry.zero := rfl
@[simp] theorem endInit_mem (s : State) : (endInit s).mem = s.mem := rfl
@[simp] theorem endInit_events (s : State) : (endInit s).events = s.events := rfl
@[simp] theorem endInit_resp (s : State) : (endInit s).resp = s.resp := rfl
@[simp] theorem endInit_draws (s : State) : (endInit s).draws = s.draws := rfl

@[simp] theorem State.readBytes_fst (s : State) (a n : Nat) :
    (s.readBytes a n).1 = (Memory.readBytes s.mem a n s.draws).1 := rfl

theorem State.writeOut_eq (s : State) (bs : List Byte) : s.writeOut bs = s.writeBytes Config.outBase bs := rfl

theorem State.writePay_eq (s : State) (bits : List Bool) :
    s.writePay bits = s.writeBytes Config.payBase (streamBytes (byteCount bits.length) bits) := rfl

theorem State.inSymbols_eq (s : State) (n : Nat) : s.inSymbols n = s.readBytes Config.inBase n := rfl

end Sys2Proof.Machine
end

