-- ==== Sys2Proof/Laws/Commands.lean ====
section
/-! SUPPORT. What a command and a step can do, said once: every command is acceptance, a body, completion; every body leaves
the registers of the lifecycle and of the host alone; a step is one event. -/

namespace Sys2Proof.Machine

/-- The body of each command. -/
def bodyOf : Instr → State → BodyResult
  | .nop => fun t => .done t
  | .clear => clearBody
  | .freqCount => freqCountBody
  | .buildTree => buildTreeBody
  | .genCodes => genCodesBody
  | .pack => packBody
  | .unpack => unpackBody
  | .encode => encodeBody
  | .illegalOp _ => illegalBody
  | .illegalRes _ _ => illegalBody

/-- Every command is acceptance, its body, and completion. -/
theorem exec_eq (i : Instr) (s : State) : exec i s = (bodyOf i (s.accept (encode i))).finish := by
  cases i <;> rfl

/-- A finished body answers a next state exactly when it ended or raised an error. -/
theorem BodyResult.finish_next {r : BodyResult} {t : State} :
    r.finish = .next t ↔ (∃ u, r = .done u ∧ t = u.complete) ∨ (∃ e u, r = .raised e u ∧ t = (u.raise e).complete) := by
  cases r <;> simp [BodyResult.finish, eq_comm]

/-- What a command that answers a next state did. -/
theorem exec_next {i : Instr} {s t : State} :
    exec i s = .next t ↔ (∃ u, bodyOf i (s.accept (encode i)) = .done u ∧ t = u.complete) ∨
      (∃ e u, bodyOf i (s.accept (encode i)) = .raised e u ∧ t = (u.raise e).complete) := by
  rw [exec_eq, BodyResult.finish_next]

/-- No command is refused. -/
theorem exec_not_refused (i : Instr) (s : State) (r : Refusal) : exec i s ≠ .refused r := by
  rw [exec_eq]; cases bodyOf i (s.accept (encode i)) <;> simp [BodyResult.finish]

/-- What no body changes: the parameters, the engine, the report fields (a raise writes those afterwards), the interrupt
registers, IN_LEN, SEL, the host's side; free values are only drawn, never taken back. -/
structure BodyFrame (s u : State) : Prop where
  cfg : u.cfg = s.cfg
  engine : u.engine = s.engine
  lastOp : u.lastOp = s.lastOp
  errCode : u.errCode = s.errCode
  err : u.err = s.err
  irqEn : u.irqEn = s.irqEn
  irqStatus : u.irqStatus = s.irqStatus
  inLen : u.inLen = s.inLen
  errPos : u.errPos = s.errPos
  errSym : u.errSym = s.errSym
  sel : u.sel = s.sel
  events : u.events = s.events
  resp : u.resp = s.resp
  draws : s.draws ≤ u.draws

theorem BodyFrame.refl (s : State) : BodyFrame s s := by constructor <;> rfl

theorem BodyFrame.trans {s u v : State} (h : BodyFrame s u) (k : BodyFrame u v) : BodyFrame s v where
  cfg := k.cfg.trans h.cfg
  engine := k.engine.trans h.engine
  lastOp := k.lastOp.trans h.lastOp
  errCode := k.errCode.trans h.errCode
  err := k.err.trans h.err
  irqEn := k.irqEn.trans h.irqEn
  irqStatus := k.irqStatus.trans h.irqStatus
  inLen := k.inLen.trans h.inLen
  errPos := k.errPos.trans h.errPos
  errSym := k.errSym.trans h.errSym
  sel := k.sel.trans h.sel
  events := k.events.trans h.events
  resp := k.resp.trans h.resp
  draws := Nat.le_trans h.draws k.draws

/-- A body's result leaves the frame of `s` alone, however it ends. -/
def BodyResult.Keeps (s : State) : BodyResult → Prop
  | .done u => BodyFrame s u
  | .raised _ u => BodyFrame s u
  | .stopped _ => True

theorem clearBody_keeps (s : State) : (clearBody s).Keeps s := by
  constructor <;> rfl

theorem illegalBody_keeps (s : State) : (illegalBody s).Keeps s := BodyFrame.refl s

theorem freqCountBody_keeps (s : State) : (freqCountBody s).Keeps s := by
  unfold freqCountBody
  split
  · exact BodyFrame.refl s
  · simp only
    split <;> constructor <;> first | rfl | exact Memory.readBytes_draws _ _ _ _

theorem buildTreeBody_keeps (s : State) : (buildTreeBody s).Keeps s := by
  unfold buildTreeBody
  simp only
  split
  · constructor <;> rfl
  · split <;> constructor <;> rfl

theorem genCodesBody_keeps (s : State) : (genCodesBody s).Keeps s := by
  unfold genCodesBody
  split
  · exact BodyFrame.refl s
  · split
    · constructor <;> rfl
    · split
      · constructor <;> rfl
      · split
        · trivial
        · split <;> constructor <;> rfl

theorem packBody_keeps (s : State) : (packBody s).Keeps s := by
  unfold packBody
  split
  · constructor <;> rfl
  · simp only
    split <;> constructor <;> first | rfl | exact Memory.readBytes_draws _ _ _ _

theorem unpackBody_keeps (s : State) : (unpackBody s).Keeps s := by
  unfold unpackBody
  split
  · constructor <;> rfl
  · simp only
    split <;> constructor <;> first | rfl | exact Memory.readBytes_draws _ _ _ _

/-- Running a second body after a first keeps what both keep. -/
theorem BodyResult.andThen_keeps {s : State} {r : BodyResult} {f : State → BodyResult} (hr : r.Keeps s)
    (hf : ∀ u, (f u).Keeps u) : (r.andThen f).Keeps s := by
  cases r with
  | done u =>
    have := hf u
    simp only [BodyResult.andThen]
    cases h : f u with
    | done v => rw [h] at this; exact BodyFrame.trans hr this
    | raised e v => rw [h] at this; exact BodyFrame.trans hr this
    | stopped g => trivial
  | raised e u => exact hr
  | stopped g => trivial

theorem encodeGenCodes_keeps (s : State) : (encodeGenCodes s).Keeps s := by
  have h := genCodesBody_keeps s
  unfold encodeGenCodes
  cases hb : genCodesBody s with
  | done u => rw [hb] at h; exact h
  | raised e u => rw [hb] at h; exact BodyFrame.trans h (by constructor <;> rfl)
  | stopped f => trivial

theorem encodeBody_keeps (s : State) : (encodeBody s).Keeps s := by
  unfold encodeBody
  split
  · constructor <;> rfl
  · refine BodyResult.andThen_keeps (BodyResult.andThen_keeps (BodyResult.andThen_keeps ?_ buildTreeBody_keeps)
      encodeGenCodes_keeps) packBody_keeps
    have h := freqCountBody_keeps { s with freq := Vector.replicate 256 0, total := 0 }
    cases hb : freqCountBody { s with freq := Vector.replicate 256 0, total := 0 } with
    | done u => rw [hb] at h; exact BodyFrame.trans (by constructor <;> rfl) h
    | raised e u => rw [hb] at h; exact BodyFrame.trans (by constructor <;> rfl) h
    | stopped f => trivial

/-- Every command's body keeps the frame. -/
theorem bodyOf_keeps (i : Instr) (s : State) : (bodyOf i s).Keeps s := by
  cases i with
  | nop => exact BodyFrame.refl s
  | clear => exact clearBody_keeps s
  | freqCount => exact freqCountBody_keeps s
  | buildTree => exact buildTreeBody_keeps s
  | genCodes => exact genCodesBody_keeps s
  | pack => exact packBody_keeps s
  | unpack => exact unpackBody_keeps s
  | encode => exact encodeBody_keeps s
  | illegalOp _ => exact illegalBody_keeps s
  | illegalRes _ _ => exact illegalBody_keeps s

/-- Acceptance at an accepted, running command changes nothing (40_control R100; log entry 8). -/
theorem accept_of_running (s : State) (w : Word) (h : s.engine = .busy w) (hb : s.BusyOk) : s.accept w = s := by
  have := hb (by simp [h, Engine.running])
  simp only [h, Engine.word] at this
  obtain ⟨h1, h2, h3, h4, h5⟩ := this
  cases s
  simp_all [State.accept]

/-! ## The host port -/

/-- A read changes nothing but the model's own count of free values (20_memory R69). -/
theorem hostRead_state (s : State) (a : BitVec 18) : ∃ d, s.draws ≤ d ∧ (hostRead s a).2.2 = { s with draws := d } := by
  have same : ∃ d, s.draws ≤ d ∧ s = { s with draws := d } := ⟨s.draws, Nat.le_refl _, rfl⟩
  unfold hostRead
  split
  · exact same
  split
  · exact same
  · split
    · exact ⟨_, Memory.readBytes_draws _ _ _ _, rfl⟩
    · exact same
  · split <;> exact same

/-! ## Commands that complete at once -/

/-- The words whose command completes at once are the illegal ones (30_encoding R83, R84). -/
theorem endsAtOnce_decode (w : Word) : endsAtOnce (decode w) = true ↔ IllegalWord w := by
  have ho : (opField w).toNat = w.toNat % 16 := by
    simp [opField, BitVec.extractLsb'_toNat]
  have hr : resField w = 0 ↔ w.toNat / 16 = 0 := by
    rw [← BitVec.toNat_inj]
    simp only [resField, BitVec.extractLsb'_toNat, BitVec.ofNat_eq_ofNat, BitVec.toNat_ofNat,
      Nat.shiftRight_eq_div_pow]
    omega
  unfold decode IllegalWord
  split
  · rename_i h
    rw [hr] at h
    have := Nat.mod_lt w.toNat (by omega : 16 > 0)
    rw [← ho] at this ⊢
    split <;> simp_all [endsAtOnce] <;> omega
  · rename_i h
    simp [endsAtOnce, mt hr.2 h]

/-! ## Steps -/

/-- What a step that answers a next state did (00_scope R9). -/
theorem step_cases {s t : State} (h : step s = .next t) :
    (s.events = [] ∧ stepEngine s = .next t) ∨
    (∃ es, s.events = .engine :: es ∧ stepEngine { s with events := es } = .next t) ∨
    (∃ x es, s.events = .txn x :: es ∧ s.endsAtOnce = true ∧ stepEngine s = .next t) ∨
    (∃ x es, s.events = .txn x :: es ∧ s.endsAtOnce = false ∧ t = hostTxn x { s with events := es }) ∨
    (∃ es, s.events = .reset :: es ∧ t = resetBlock { s with events := es }) := by
  unfold step at h
  split at h
  · exact .inl ⟨‹_›, h⟩
  · exact .inr (.inl ⟨_, ‹_›, h⟩)
  · split at h
    · exact .inr (.inr (.inl ⟨_, _, ‹_›, ‹_›, h⟩))
    · cases h; exact .inr (.inr (.inr (.inl ⟨_, _, ‹_›, Bool.eq_false_iff.2 ‹_›, rfl⟩)))
  · cases h; exact .inr (.inr (.inr (.inr ⟨_, ‹_›, rfl⟩)))

/-- What the engine's move that answers a next state did (10_state R22). -/
theorem stepEngine_cases {s t : State} (h : stepEngine s = .next t) :
    (s.engine = .init ∧ t = endInit s) ∨ (s.engine = .idle ∧ t = s) ∨
    (∃ w, s.engine = .busy w ∧ exec (decode w) s = .next t) := by
  unfold stepEngine at h
  split at h
  · cases h; exact .inl ⟨‹_›, rfl⟩
  · cases h; exact .inr (.inl ⟨‹_›, rfl⟩)
  · exact .inr (.inr ⟨_, ‹_›, h⟩)

end Sys2Proof.Machine
end

