-- ==== Sys2Proof/Laws/Operations.lean ====
section
/-! SUPPORT. One lemma per shared operation: what it gives, to be cited instead of unfolded. -/

namespace Sys2Proof.Machine

/-! ## Tables -/

/-- FREQ after one entry is set (10_state R46). -/
@[simp] theorem getElem_setFreq (freq : Vector Word 256) (x y : Byte) (c : Word) :
    (setFreq freq x c)[y.toNat]'y.isLt = if x = y then c else freq[y.toNat]'y.isLt := by
  simp only [setFreq, Vector.getElem_set, BitVec.toNat_inj]

/-- CB after one entry is set (10_state R48). -/
@[simp] theorem getElem_setCb (cb : Vector CbEntry 256) (x y : Byte) (e : CbEntry) :
    (setCb cb x e)[y.toNat]'y.isLt = if x = y then e else cb[y.toNat]'y.isLt := by
  simp only [setCb, Vector.getElem_set, BitVec.toNat_inj]

/-- The NODE entry at an index the table has (10_state R47). -/
theorem nodeAt_eq (nodes : Vector Node 511) (i : BitVec 9) (h : i.toNat < 511) : nodeAt nodes i = nodes[i.toNat] := by
  simp [nodeAt, h]

/-- NODE after one entry is set (10_state R47). -/
theorem nodeAt_setNode (nodes : Vector Node 511) (k : Nat) (nd : Node) (i : BitVec 9) (h : i.toNat < 511) :
    nodeAt (setNode nodes k nd) i = if k = i.toNat then nd else nodeAt nodes i := by
  rw [nodeAt_eq _ _ h, nodeAt_eq _ _ h]
  simp only [setNode]
  rw [Vector.getElem_setIfInBounds]

/-- The four bytes of a word give the word back (20_memory R63). -/
@[simp] theorem wordOfBytes_bytesOfWord (w : Word) : wordOfBytes (bytesOfWord w) = w := by
  apply BitVec.eq_of_getLsbD_eq
  intro i hi
  simp only [bytesOfWord, wordOfBytes, BitVec.getLsbD_or, BitVec.getLsbD_shiftLeft, BitVec.getLsbD_setWidth,
    BitVec.getLsbD_extractLsb']
  interval_cases i <;> simp

/-! ## Bit sequences (00_scope R7) -/

@[simp] theorem seq_length (c : BitVec 256) : ∀ n, (seq n c).length = n
  | 0 => rfl
  | n + 1 => by simp [seq, seq_length c n]

/-- A bit sequence spells a number below 2 to its length. -/
theorem val_lt : ∀ bs : List Bool, val bs < 2 ^ bs.length
  | [] => by simp [val]
  | b :: bs => by
    have := val_lt bs
    cases b <;> simp [val, Nat.pow_succ] <;> omega

/-- `seq` depends on the low bits only. -/
theorem seq_congr {c d : BitVec 256} : ∀ {n}, (∀ j, j < n → c.getLsbD j = d.getLsbD j) → seq n c = seq n d
  | 0, _ => rfl
  | n + 1, h => by
    simp only [seq, h n (Nat.lt_succ_self n)]
    rw [seq_congr fun j hj => h j (Nat.lt_succ_of_lt hj)]

/-- The number a sequence of low bits spells (00_scope R7). -/
theorem val_seq (c : BitVec 256) : ∀ n, n ≤ 256 → val (seq n c) = c.toNat % 2 ^ n
  | 0, _ => by simp [seq, val, Nat.mod_one]
  | n + 1, h => by
    simp only [seq, val, seq_length, val_seq c n (by omega)]
    rw [Nat.mod_pow_succ, BitVec.getLsbD, Nat.testBit_eq_decide_div_mod_eq, Nat.add_comm, Nat.mul_comm]
    congr 1
    rcases Nat.mod_two_eq_zero_or_one (c.toNat / 2 ^ n) with e | e <;> simp [e]

/-- Spelling a number in a sequence's length gives the sequence back (00_scope R7). -/
theorem seq_val : ∀ bs : List Bool, bs.length ≤ 256 → seq bs.length (BitVec.ofNat 256 (val bs)) = bs
  | [], _ => rfl
  | b :: bs, h => by
    have hl := val_lt bs
    simp only [List.length_cons] at h
    have e : seq bs.length (BitVec.ofNat 256 (val (b :: bs))) = seq bs.length (BitVec.ofNat 256 (val bs)) := by
      apply seq_congr
      intro j hj
      simp only [BitVec.getLsbD_ofNat, val]
      rw [Nat.mul_comm, Nat.testBit_two_pow_mul_add _ hl, if_pos hj]
    simp only [List.length_cons, seq, e, seq_val bs (by omega)]
    congr 1
    simp only [BitVec.getLsbD_ofNat, val]
    rw [Nat.mul_comm, Nat.testBit_two_pow_mul_add _ hl]
    cases b <;> simp
    omega

/-- The code of the CB entry of a path is the path (43_codebook R140). -/
theorem codeSeq_ofSeq (p : List Bool) (h : p.length ≤ 255) : (CbEntry.ofSeq p).codeSeq = p := by
  have e : p.length % 256 = p.length := Nat.mod_eq_of_lt (by omega)
  simp only [CbEntry.codeSeq, CbEntry.ofSeq, BitVec.toNat_ofNat, Nat.reducePow, e]
  exact seq_val p (by omega)

/-! ## How a command ends (40_control R101) -/

/-- A command whose body ends ends without an error. -/
theorem exec_done {i : Instr} {s u : State} (h : bodyOf i (s.accept (encode i)) = .done u) :
    exec i s = .next (u.endedOk (opField (encode i))) := by
  have k := bodyOf_keeps i (s.accept (encode i))
  rw [h] at k
  obtain ⟨-, -, h3, h4, h5, -, -, -, h9, h10, -⟩ := k
  rw [exec_eq, h]
  simp only [State.accept_lastOp, State.accept_errCode, State.accept_err, State.accept_errPos, State.accept_errSym] at *
  cases u
  simp_all [BodyResult.finish, State.complete, State.endedOk, irqDone]

/-- A command whose body raises an error reports it and ends. -/
theorem exec_raised {i : Instr} {s u : State} {e : CmdError} (h : bodyOf i (s.accept (encode i)) = .raised e u) :
    exec i s = .next (u.endedErr (opField (encode i)) e.code.bits e.pos e.sym) := by
  have k := bodyOf_keeps i (s.accept (encode i))
  rw [h] at k
  have h3 := k.lastOp
  have hc : e.code.bits ≠ 0 := by cases e.code <;> decide
  rw [exec_eq, h]
  simp only [State.accept_lastOp] at h3
  cases u
  simp_all [BodyResult.finish, State.complete, State.raise, State.endedErr, irqDone, irqErr, BitVec.or_assoc]

/-! ## Buffer operands -/

/-- Written input is read as it is, and the state is not changed (20_memory R63). -/
theorem inSymbols_of_holds {s : State} {xs : List Byte} (h : Memory.Holds s.mem Config.inBase xs) :
    s.inSymbols xs.length = (xs, s) := by
  simp [State.inSymbols, State.readBytes, Memory.readBytes_written s.mem xs Config.inBase s.draws (fun i hi => h ⟨i, hi⟩)]

/-- Bytes just written are there. -/
theorem holds_writeBytes (m : List Host.Cell) (a : Nat) (bs : List Byte) : Memory.Holds (Memory.writeBytes m a bs) a bs := by
  intro i
  rw [Memory.lookup_writeBytes, dif_pos ⟨by omega, by have := i.isLt; omega⟩]
  simp

/-- A flush writes whole bytes (44_bitpack R152). -/
@[simp] theorem streamBytes_length : ∀ n bs, (streamBytes n bs).length = n
  | 0, _ => rfl
  | n + 1, bs => by simp [streamBytes, streamBytes_length n]

/-- The k-th byte of a flushed stream. -/
theorem getElem_streamBytes : ∀ n bs k, (h : k < (streamBytes n bs).length) →
    (streamBytes n bs)[k] = byteOfBits (bs.drop (8 * k))
  | 0, _, _, h => by simp [streamBytes] at h
  | n + 1, bs, 0, _ => by simp [streamBytes]
  | n + 1, bs, k + 1, h => by
    simp only [streamBytes, List.getElem_cons_succ]
    rw [getElem_streamBytes n (bs.drop 8) k, List.drop_drop]
    congr 2
    omega

/-- The j-th element of `seq n c` is bit n − 1 − j (00_scope R7). -/
theorem getElem_seq (c : BitVec 256) : ∀ n j, (h : j < (seq n c).length) → (seq n c)[j] = c.getLsbD (n - 1 - j)
  | 0, _, h => by simp [seq] at h
  | n + 1, 0, _ => by simp [seq]
  | n + 1, j + 1, h => by
    simp only [seq, List.getElem_cons_succ]
    rw [getElem_seq c n j]
    congr 1
    omega

/-- The next payload byte holds the next eight stream bits, the first in bit 7, zeros where fewer are left (20_memory
R65). -/
theorem getLsbD_byteOfBits (bs : List Bool) (j : Nat) (h : j < 8) : (byteOfBits bs).getLsbD (7 - j) = bs.getD j false := by
  have hl : ((bs ++ List.replicate 8 false).take 8).length = 8 := by simp
  have hs := seq_val ((bs ++ List.replicate 8 false).take 8) (by omega)
  rw [hl] at hs
  have hj := getElem_seq (BitVec.ofNat 256 (val ((bs ++ List.replicate 8 false).take 8))) 8 j (by simp; omega)
  simp only [hs, List.getElem_take] at hj
  simp only [byteOfBits, BitVec.getLsbD_ofNat, show 7 - j < 8 by omega]
  simp only [BitVec.getLsbD_ofNat, show 8 - 1 - j < 256 by omega] at hj
  rw [show 7 - j = 8 - 1 - j by omega, ← hj, List.getElem_append]
  split
  · simp [List.getD_eq_getElem?_getD, *]
  · rw [List.getElem_replicate]
    simp [List.getD_eq_getElem?_getD, List.getElem?_eq_none (by omega : bs.length ≤ j)]

/-- A stream bit within the bytes a flush touches: the stream's own bit, or a padding zero (44_bitpack R152). -/
theorem payBitAt_writePay (s : State) (bits : List Bool) (p : Nat) (h : p < 8 * byteCount bits.length) :
    payBitAt (s.writePay bits).mem p = some (bits.getD p false) := by
  have hk : p / 8 < (streamBytes (byteCount bits.length) bits).length := by simp; omega
  simp only [payBitAt, State.writePay, State.writeBytes]
  rw [Memory.lookup_writeBytes, dif_pos ⟨by omega, by omega⟩]
  simp only [Option.map_some, Nat.add_sub_cancel_left]
  rw [getElem_streamBytes _ _ _ hk, getLsbD_byteOfBits _ _ (by omega)]
  simp only [List.getD_eq_getElem?_getD, List.getElem?_drop]
  rw [Nat.div_add_mod]

/-- The flush of 44_bitpack R152. -/
theorem writePay_flushed (s : State) (bits : List Bool) : Flushed s.mem (s.writePay bits).mem bits := by
  refine ⟨fun p => ?_, fun p h1 h2 => ?_, fun a h => ?_⟩
  · rw [payBitAt_writePay s bits p.val (by have := p.isLt; unfold byteCount; omega)]
    simp [List.getD_eq_getElem?_getD]
  · rw [payBitAt_writePay s bits p h2]
    simp [List.getD_eq_getElem?_getD, List.getElem?_eq_none h1]
  · exact Memory.lookup_writeBytes_outside _ _ _ _ (by simpa using h)

/-! ## The counting loop (41_frequency R110) -/

/-- Counting without an overflow adds each symbol's number of occurrences. -/
theorem countLoop_fits : ∀ (xs : List Byte) (i : Nat) (freq : Vector Word 256) (total : Word),
    total.toNat + xs.length < 2 ^ 32 →
    (countLoop xs i freq total).2 = (total + BitVec.ofNat 32 xs.length, none) ∧
      ∀ y : Byte, (countLoop xs i freq total).1[y.toNat]'y.isLt = freq[y.toNat]'y.isLt + BitVec.ofNat 32 (xs.count y)
  | [], _, _, _, _ => by simp [countLoop]
  | x :: xs, i, freq, total, h => by
    simp only [List.length_cons] at h
    have hne : total ≠ 0xFFFFFFFF := by rintro rfl; simp at h; omega
    have ht : (total + 1).toNat = total.toNat + 1 := by
      rw [BitVec.toNat_add]; exact Nat.mod_eq_of_lt (by show total.toNat + 1 < 2 ^ 32; omega)
    obtain ⟨h1, h2⟩ := countLoop_fits xs (i + 1) (setFreq freq x (freq[x.toNat]'x.isLt + 1)) (total + 1) (by omega)
    simp only [countLoop, hne, if_false]
    refine ⟨?_, fun y => ?_⟩
    · rw [h1, BitVec.add_assoc]
      simp [BitVec.ofNat_add, BitVec.add_comm]
    · rw [h2 y, getElem_setFreq]
      by_cases e : x = y
      · subst e
        simp only [List.count_cons_self, BitVec.ofNat_add, if_true]
        rw [BitVec.add_assoc, BitVec.add_comm 1]
        rfl
      · simp [e, List.count_cons_of_ne e]

/-! ## The priority queue (42_tree_builder R120) -/

/-- The first of a queue is one of its entries. -/
theorem firstOf_mem (nodes : Vector Node 511) : ∀ (q : List (BitVec 9)) (m : BitVec 9), firstOf nodes m q ∈ m :: q
  | [], m => by simp [firstOf]
  | i :: q, m => by
    have := firstOf_mem nodes q (if before nodes i m then i else m)
    simp only [firstOf]
    rcases List.mem_cons.1 this with h | h
    · rw [h]; split <;> simp
    · simp [h]

/-- Popping takes one entry out of the queue and keeps the others. -/
theorem popFirst_perm {nodes : Vector Node 511} {q rest : List (BitVec 9)} {a : BitVec 9}
    (h : popFirst nodes q = some (a, rest)) : q.Perm (a :: rest) := by
  cases q with
  | nil => simp [popFirst] at h
  | cons i q =>
    simp only [popFirst, Option.some.injEq, Prod.mk.injEq] at h
    obtain ⟨rfl, rfl⟩ := h
    exact List.perm_cons_erase (firstOf_mem nodes q i)

/-- Popping fails on an empty queue only. -/
theorem popFirst_eq_none {nodes : Vector Node 511} {q : List (BitVec 9)} : popFirst nodes q = none ↔ q = [] := by
  cases q <;> simp [popFirst]

/-! ## Writing the codes (43_codebook R140) -/

/-- A symbol that is not among the leaves keeps its entry. -/
theorem writeCodes_other : ∀ (ls : List (Byte × List Bool)) (cb : Vector CbEntry 256) (x : Byte),
    (∀ l ∈ ls, l.1 ≠ x) → (writeCodes ls cb)[x.toNat]'x.isLt = cb[x.toNat]'x.isLt
  | [], _, _, _ => rfl
  | l :: ls, cb, x, h => by
    simp only [writeCodes]
    rw [writeCodes_other ls _ x (fun m hm => h m (List.mem_cons_of_mem _ hm)), getElem_setCb,
      if_neg (h l List.mem_cons_self)]

/-- A symbol among the leaves gets the code of one of its paths. -/
theorem writeCodes_mem : ∀ (ls : List (Byte × List Bool)) (cb : Vector CbEntry 256) (x : Byte),
    (∃ l ∈ ls, l.1 = x) → ∃ l ∈ ls, l.1 = x ∧ (writeCodes ls cb)[x.toNat]'x.isLt = CbEntry.ofSeq l.2
  | [], _, _, h => by simp at h
  | l :: ls, cb, x, h => by
    by_cases hx : ∃ m ∈ ls, m.1 = x
    · obtain ⟨m, hm, e, hw⟩ := writeCodes_mem ls (setCb cb l.1 (CbEntry.ofSeq l.2)) x hx
      exact ⟨m, List.mem_cons_of_mem _ hm, e, hw⟩
    · obtain ⟨m, hm, e⟩ := h
      rcases List.mem_cons.1 hm with rfl | hm
      · refine ⟨m, List.mem_cons_self, e, ?_⟩
        simp only [writeCodes]
        rw [writeCodes_other ls _ x (fun n hn hne => hx ⟨n, hn, hne⟩), getElem_setCb, if_pos e]
      · exact absurd ⟨m, hm, e⟩ hx

/-! ## Reading the payload (20_memory R65) -/

/-- A byte's eight stream bits. -/
theorem byteBits_getD (b : Byte) (j : Nat) (h : j < 8) : (byteBits b)[j]? = some (b.getLsbD (7 - j)) := by
  have hj : j < (byteBits b).length := by simpa [byteBits] using h
  rw [List.getElem?_eq_getElem hj]
  simp only [byteBits]
  rw [getElem_seq]
  simp [show 7 - j < 256 by omega]

/-- The stream bits of some bytes. -/
theorem getElem?_flatMap_byteBits : ∀ (bs : List Byte) (p : Nat),
    (bs.flatMap byteBits)[p]? = bs[p / 8]?.map (fun b => b.getLsbD (7 - p % 8))
  | [], p => by simp
  | b :: bs, p => by
    have hl : (byteBits b).length = 8 := by simp [byteBits]
    rw [List.flatMap_cons, List.getElem?_append, hl]
    split
    · rename_i h
      rw [byteBits_getD b p h, show p / 8 = 0 by omega, show p % 8 = p by omega]
      simp
    · rename_i h
      rw [getElem?_flatMap_byteBits bs (p - 8), show p / 8 = (p - 8) / 8 + 1 by omega,
        show (p - 8) % 8 = p % 8 by omega]
      simp

/-- Written payload bits are read as they are, and the state is not changed (20_memory R65, R66). -/
theorem payBits_of_holds {s : State} {bits : List Bool} (h : PayHolds s.mem bits) :
    s.payBits bits.length = (bits, s) := by
  have hw : ∀ k, k < byteCount bits.length → ∃ b, Memory.lookup s.mem (Config.payBase + k) = some b := by
    intro k hk
    have := h ⟨8 * k, by unfold byteCount at hk; omega⟩
    simp only [payBitAt, Nat.mul_div_cancel_left k (by omega : 0 < 8), Option.map_eq_some_iff] at this
    obtain ⟨b, hb, -⟩ := this
    exact ⟨b, hb⟩
  let bs : List Byte := (List.range (byteCount bits.length)).map
    (fun k => (Memory.lookup s.mem (Config.payBase + k)).getD 0)
  have hbl : bs.length = byteCount bits.length := by simp [bs]
  have hbs : ∀ i, (hi : i < bs.length) → Memory.lookup s.mem (Config.payBase + i) = some bs[i] := by
    intro i hi
    obtain ⟨b, hb⟩ := hw i (by omega)
    simp [bs, hb]
  have hr := Memory.readBytes_written s.mem bs Config.payBase s.draws hbs
  rw [hbl] at hr
  simp only [State.payBits, State.readBytes, hr]
  refine Prod.ext ?_ rfl
  show (bs.flatMap byteBits).take bits.length = bits
  apply List.ext_getElem?
  intro p
  by_cases hp : p < bits.length
  · have hk : p / 8 < bs.length := by rw [hbl]; unfold byteCount; omega
    have hb := h ⟨p, hp⟩
    simp only [payBitAt, hbs _ hk, Option.map_some, Option.some.injEq] at hb
    rw [List.getElem?_take, if_pos hp, getElem?_flatMap_byteBits, List.getElem?_eq_getElem hk,
      List.getElem?_eq_getElem hp]
    simpa using hb
  · rw [List.getElem?_take, if_neg hp, List.getElem?_eq_none (by omega)]

/-! ## The packing loop (44_bitpack R150) -/

/-- The codes of two symbol lists, one after the other. -/
@[simp] theorem bookStream_cons (cb : Vector CbEntry 256) (x : Byte) (xs : List Byte) :
    bookStream cb (x :: xs) = (cb[x.toNat]'x.isLt).codeSeq ++ bookStream cb xs := rfl

/-- Symbols that have codes which fit are packed, and the loop goes on behind them. -/
theorem packLoop_append (cb : Vector CbEntry 256) (cap : Nat) (rest : List Byte) : ∀ (xs : List Byte) (i pos : Nat),
    (∀ x ∈ xs, (cb[x.toNat]'x.isLt).len ≠ 0) → pos + (bookStream cb xs).length ≤ cap →
    packLoop cb cap (xs ++ rest) i pos =
      (bookStream cb xs ++ (packLoop cb cap rest (i + xs.length) (pos + (bookStream cb xs).length)).1,
        (packLoop cb cap rest (i + xs.length) (pos + (bookStream cb xs).length)).2)
  | [], _, _, _, _ => rfl
  | x :: xs, i, pos, hx, hfit => by
    have h0 := hx x List.mem_cons_self
    simp only [bookStream_cons, List.length_append, CbEntry.codeSeq, seq_length] at hfit
    have ih := packLoop_append cb cap rest xs (i + 1) (pos + (cb[x.toNat]'x.isLt).len.toNat)
      (fun y hy => hx y (List.mem_cons_of_mem _ hy)) (by omega)
    simp only [List.cons_append, packLoop, h0, if_false]
    rw [if_neg (by omega), ih]
    simp only [bookStream_cons, List.length_append, List.length_cons, CbEntry.codeSeq, seq_length, List.append_assoc,
      Nat.add_assoc, Nat.add_comm 1]

/-! ## The scan (44_bitpack R155) -/

/-- The scan reads the first match off, with the candidate grown to `cand` already. -/
theorem unpackLoop_grow (cb : Vector CbEntry 256) (cap start k : Nat) (m : Byte) (hk : k ≠ cap) :
    ∀ (n : Nat) (bits cand : List Bool) (pos : Nat), 0 < n → n ≤ bits.length →
      matchCode cb (cand ++ bits.take n) = some m →
      (∀ j, j < n → 0 < j → matchCode cb (cand ++ bits.take j) = none) →
      unpackLoop cb cap bits pos start cand k =
        (m :: (unpackLoop cb cap (bits.drop n) (pos + n) (pos + n) [] (k + 1)).1,
          (unpackLoop cb cap (bits.drop n) (pos + n) (pos + n) [] (k + 1)).2)
  | 0, _, _, _, h, _, _, _ => absurd h (Nat.lt_irrefl 0)
  | n + 1, [], _, _, _, h, _, _ => by simp at h
  | 0 + 1, b :: bits, cand, pos, _, _, hm, _ => by
    simp only [Nat.zero_add, List.take_succ_cons, List.take_zero] at hm
    simp only [unpackLoop, hm, if_neg hk, Nat.zero_add, List.drop_succ_cons, List.drop_zero]
  | n + 1 + 1, b :: bits, cand, pos, _, hl, hm, hn => by
    have h1 := hn 1 (by omega) (by omega)
    simp only [List.take_succ_cons, List.take_zero] at h1
    simp only [List.length_cons] at hl
    have ih := unpackLoop_grow cb cap start k m hk (n + 1) bits (cand ++ [b]) (pos + 1) (by omega) (by omega)
      (by simpa using hm) (fun j h2 h3 => by simpa using hn (j + 1) (by omega) (by omega))
    simp only [unpackLoop, h1, ih, List.drop_succ_cons]
    rw [show pos + 1 + (n + 1) = pos + (n + 1 + 1) by omega]

/-- The scan reads the first match off. -/
theorem unpackLoop_firstMatch {cb : Vector CbEntry 256} {cap k pos n : Nat} {bits : List Bool} {m : Byte}
    (h : FirstMatch cb bits n m) (hk : k ≠ cap) :
    unpackLoop cb cap bits pos pos [] k =
      (m :: (unpackLoop cb cap (bits.drop n) (pos + n) (pos + n) [] (k + 1)).1,
        (unpackLoop cb cap (bits.drop n) (pos + n) (pos + n) [] (k + 1)).2) :=
  unpackLoop_grow cb cap pos k m hk n bits [] pos h.1 h.2.1 h.2.2.1 h.2.2.2

/-! ## Paths (43_codebook R141) -/

/-- The walk lists exactly the leaves: a symbol with a path below node `i`, put behind the path `p` of `i`. -/
theorem mem_leafPaths (nodes : Vector Node 511) : ∀ (fuel : Nat) (i : BitVec 9) (p : List Bool)
    (ls : List (Byte × List Bool)), leafPaths nodes fuel i p = some ls → ∀ (x : Byte) (q : List Bool),
    (x, q) ∈ ls ↔ ∃ r j, q = p ++ r ∧ followPath nodes i r = some j ∧ (nodeAt nodes j).isLeaf = true ∧
      (nodeAt nodes j).symbol = x
  | 0, _, _, _, h, _, _ => by simp [leafPaths] at h
  | fuel + 1, i, p, ls, h, x, q => by
    simp only [leafPaths] at h
    split at h
    · rename_i hleaf
      simp only [Option.some.injEq] at h
      subst h
      simp only [List.mem_singleton, Prod.mk.injEq]
      constructor
      · rintro ⟨rfl, rfl⟩
        exact ⟨[], i, by simp, rfl, hleaf, rfl⟩
      · rintro ⟨r, j, rfl, hr, -, rfl⟩
        cases r with
        | nil => simp only [followPath, Option.some.injEq] at hr; subst hr; simp
        | cons b r => simp [followPath, hleaf] at hr
    · rename_i hleaf
      split at h
      · rename_i l r hl hr
        simp only [Option.some.injEq] at h
        subst h
        rw [List.mem_append, mem_leafPaths nodes fuel _ _ l hl, mem_leafPaths nodes fuel _ _ r hr]
        constructor
        · rintro (⟨t, j, rfl, ht, h2⟩ | ⟨t, j, rfl, ht, h2⟩)
          · exact ⟨false :: t, j, by simp, by simpa [followPath, hleaf] using ht, h2⟩
          · exact ⟨true :: t, j, by simp, by simpa [followPath, hleaf] using ht, h2⟩
        · rintro ⟨t, j, rfl, ht, h2, h3⟩
          cases t with
          | nil => simp only [followPath, Option.some.injEq] at ht; subst ht; exact absurd h2 hleaf
          | cons b t =>
            cases b with
            | false => exact .inl ⟨t, j, by simp, by simpa [followPath, hleaf] using ht, h2, h3⟩
            | true => exact .inr ⟨t, j, by simp, by simpa [followPath, hleaf] using ht, h2, h3⟩
      · simp at h

/-! ## Host writes (20_memory R61, R62) -/

/-- What a host write can do: nothing, with SLVERR; accept or drop a command word; write a register; store a word in a
buffer. -/
theorem hostWrite_cases (s : State) (a : BitVec 18) (strb : BitVec 4) (d : Word) :
    hostWrite s a strb d = (.slverr, s) ∨
    (targetOf s.cfg a = .reg .ctrl ∧ hostWrite s a strb d = writeCtrl s d) ∨
    (∃ r t, targetOf s.cfg a = .reg r ∧ (s.engine = .idle ∨ r.busyExempt = true) ∧ writeReg s d r = some t ∧
      hostWrite s a strb d = (.okay, t)) ∨
    (∃ b, targetOf s.cfg a = .buffer b ∧ s.engine = .idle ∧
      hostWrite s a strb d = (.okay, s.writeBytes b (bytesOfWord d))) := by
  unfold hostWrite
  split
  · exact .inl rfl
  · split
    · exact .inl rfl
    · split
      · exact .inr (.inr (.inr ⟨_, ‹_›, ‹_›, rfl⟩))
      · exact .inl rfl
    · exact .inr (.inl ⟨‹_›, rfl⟩)
    · split
      · split
        · exact .inr (.inr (.inl ⟨_, _, ‹_›, ‹_›, ‹_›, rfl⟩))
        · exact .inl rfl
      · exact .inl rfl

end Sys2Proof.Machine
end

