-- ==== Sys2Proof/Laws/PerInstr.lean ====
section
/-! SUPPORT. One lemma per command about its word: its opcode and its reserved bits (30_encoding R80, R82, R84). -/

namespace Sys2Proof.Laws.CommandWord

/-- RES and OP of each command's word: RES = 0 and OP in 0x0..0x7 for the eight commands, RES = 0 and OP in 0x8..0xF for
the reserved opcodes, and the row's own two fields for a word with reserved bits set. -/
def Statement : Instr → Prop
  | .nop => resField (encode .nop) = 0 ∧ opField (encode .nop) = 0
  | .clear => resField (encode .clear) = 0 ∧ opField (encode .clear) = 1
  | .freqCount => resField (encode .freqCount) = 0 ∧ opField (encode .freqCount) = 2
  | .buildTree => resField (encode .buildTree) = 0 ∧ opField (encode .buildTree) = 3
  | .genCodes => resField (encode .genCodes) = 0 ∧ opField (encode .genCodes) = 4
  | .pack => resField (encode .pack) = 0 ∧ opField (encode .pack) = 5
  | .unpack => resField (encode .unpack) = 0 ∧ opField (encode .unpack) = 6
  | .encode => resField (encode .encode) = 0 ∧ opField (encode .encode) = 7
  | .illegalOp low =>
    resField (encode (.illegalOp low)) = 0 ∧ (opField (encode (.illegalOp low))).toNat = 8 + low.toNat
  | .illegalRes res op =>
    resField (encode (.illegalRes res op)) = res ∧ opField (encode (.illegalRes res op)) = op

theorem nop : Statement .nop := by unfold Statement; decide

theorem clear : Statement .clear := by unfold Statement; decide

theorem freqCount : Statement .freqCount := by unfold Statement; decide

theorem buildTree : Statement .buildTree := by unfold Statement; decide

theorem genCodes : Statement .genCodes := by unfold Statement; decide

theorem pack : Statement .pack := by unfold Statement; decide

theorem unpack : Statement .unpack := by unfold Statement; decide

theorem encode : Statement .encode := by unfold Statement; decide

theorem illegalOp (low : BitVec 3) : Statement (.illegalOp low) := by
  have all : ∀ n : Fin 8, resField (Sys2Proof.encode (.illegalOp (BitVec.ofFin n))) = 0 ∧
      (opField (Sys2Proof.encode (.illegalOp (BitVec.ofFin n)))).toNat = 8 + n.val := by decide
  exact all low.toFin

theorem illegalRes (res : BitVec 28) (op : BitVec 4) : Statement (.illegalRes res op) := by
  have hop : op.toNat < 2 ^ 4 := op.isLt
  have hres : res.toNat < 2 ^ 28 := res.isLt
  constructor <;> apply BitVec.eq_of_toNat_eq <;>
    simp only [resField, opField, Sys2Proof.encode, BitVec.extractLsb'_toNat, BitVec.toNat_append, Nat.shiftLeft_eq,
      Nat.shiftRight_eq_div_pow, Nat.mul_comm res.toNat, ← Nat.two_pow_add_eq_or_of_lt hop] <;> omega

end Sys2Proof.Laws.CommandWord
end

