-- ==== Sys2Proof/Machine/HostProgram.lean ====
section
/-! DEFINITION. Host programs (30_encoding R86, R87): each statement as the events it puts in `State.events`. Checking a
read's data is the host's business; a `poll` is the reads it makes. -/

namespace Sys2Proof.Machine

/-- The offset a register's name stands for in a program (30_encoding R86, 10_state R23). -/
def Reg.offset : Reg → BitVec 18
  | .id => 0x000
  | .version => 0x004
  | .ctrl => 0x008
  | .status => 0x00C
  | .irqEn => 0x010
  | .irqStatus => 0x014
  | .inLen => 0x018
  | .bitLen => 0x01C
  | .outLen => 0x020
  | .errPos => 0x024
  | .errSym => 0x028
  | .total => 0x02C
  | .nsym => 0x030
  | .nnodes => 0x034
  | .root => 0x038
  | .sel => 0x03C
  | .freqData => 0x040
  | .nodeInfo => 0x044
  | .nodeCount => 0x048
  | .cbLen => 0x04C
  | .cbCode k => 0x050 + 4 * BitVec.ofNat 18 k.val
  | .cfgInDepth => 0x070
  | .cfgOutDepth => 0x074
  | .cfgPayDepth => 0x078
  | .cfgMaxCodeLen => 0x07C

/-- `wr ADDR, DATA` (30_encoding R86). -/
def stmtWr (addr : BitVec 18) (d : Word) : List Event := [.txn (.write addr 0xF d)]

/-- `rd ADDR` (30_encoding R86). -/
def stmtRd (addr : BitVec 18) : List Event := [.txn (.read addr)]

/-- `cmd MNEMONIC` (30_encoding R87). -/
def stmtCmd (i : Instr) : List Event := stmtWr Reg.ctrl.offset (encode i)

/-- `wait` (30_encoding R87): `polls` reads of STATUS that still see BUSY = 1, the engine's move, and the read that sees
BUSY = 0. Every number of polls is a behaviour of the block (93 U5). -/
def stmtWait (polls : Nat) : List Event :=
  List.replicate polls (.txn (.read Reg.status.offset)) ++ [.engine] ++ stmtRd Reg.status.offset

/-- `run MNEMONIC` (30_encoding R87). An illegal word's command completes before the first poll (R84), so there every poll
sees BUSY = 0 and the engine's move does nothing. -/
def stmtRun (i : Instr) (polls : Nat) : List Event := stmtCmd i ++ stmtWait polls

/-- `sel N` (30_encoding R87). -/
def stmtSel (n : BitVec 9) : List Event := stmtWr Reg.sel.offset (n.setWidth 32)

/-- `setfreq S, C` (30_encoding R87). -/
def stmtSetfreq (x : Byte) (c : Word) : List Event := stmtSel (x.setWidth 9) ++ stmtWr Reg.freqData.offset c

/-- `setcode S, L, C` (30_encoding R87). -/
def stmtSetcode (x len : Byte) (code : BitVec 256) : List Event :=
  stmtSel (x.setWidth 9) ++ stmtWr Reg.cbLen.offset (len.setWidth 32) ++
    [0, 1, 2, 3, 4, 5, 6, 7].flatMap (fun k : Fin 8 => stmtWr (Reg.cbCode k).offset (codeWord code k.val))

/-- `ack` (30_encoding R87). -/
def stmtAck : List Event := stmtWr Reg.irqStatus.offset 0x7

end Sys2Proof.Machine
end

