-- ==== Sys2Proof/Tests/Slice0.lean ====
section
/-! SUPPORT. The model's own tests: the well-formedness smoke tests, command words written out from 30_encoding R80 and
R82, single steps against the vectors of 95_test_vectors, and a witness for the hypotheses of each statement. Expected
values come from the spec, never from the model. -/

namespace Sys2Proof.Tests

-- One theorem after the other: each evaluation in the kernel holds a thread, and a file has room for few.
set_option Elab.async false

open Sys2Proof.Machine

/-! ## Well-formedness and words -/

theorem test_illformed_reserved_row : ¬ (Instr.illegalRes 0 3).WellFormed := by decide

theorem test_wellformed_reserved_row : (Instr.illegalRes 1 3).WellFormed := by decide

/-- OP = 0011, RES = 0. -/
theorem test_word_build_tree : decode 0b00000000000000000000000000000011 = .buildTree := by decide

/-- OP = 0010, RES = 0. -/
theorem test_word_freq_count : decode 0b00000000000000000000000000000010 = .freqCount := by decide

/-- OP = 0100, RES = 0. -/
theorem test_word_gen_codes : decode 0b00000000000000000000000000000100 = .genCodes := by decide

/-- OP = 0101, RES = 0. -/
theorem test_word_pack : decode 0b00000000000000000000000000000101 = .pack := by decide

/-- OP = 0110, RES = 0. -/
theorem test_word_unpack : decode 0b00000000000000000000000000000110 = .unpack := by decide

/-- OP = 0111, RES = 0. -/
theorem test_word_encode : decode 0b00000000000000000000000000000111 = .encode := by decide

/-- OP = 0000 and OP = 0001, RES = 0. -/
theorem test_word_nop_clear : decode 0b0000 = .nop ∧ decode 0b0001 = .clear := by decide

/-- OP = 1111, RES = 0: OP[2:0] = 111. -/
theorem test_word_reserved_opcode : decode 0b00000000000000000000000000001111 = .illegalOp 0b111 := by decide

/-- OP = 0011 with bit 4 set. -/
theorem test_word_reserved_bits : decode 0b00000000000000000000000000010011 = .illegalRes 0b1 0b0011 := by decide

theorem test_table_word : decodeTableWord 32 7 = some .encode ∧ decodeTableWord 8 7 = some .encode := by decide

/-! ## Small states -/

/-- The block right after INIT (10_state R53). -/
def idle : State := endInit State.reset

/-- The state a command leaves, when it completes. -/
def after (i : Instr) (s : State) : State :=
  match exec i s with
  | .next t => t
  | .fault _ => s
  | .refused _ => s

/-- The command completes. -/
def completes (i : Instr) (s : State) : Bool :=
  match exec i s with
  | .next _ => true
  | .fault _ => false
  | .refused _ => false

theorem exec_after {i : Instr} {s : State} (h : completes i s = true) : exec i s = .next (after i s) := by
  unfold completes at h
  unfold after
  cases hx : exec i s with
  | next t => rfl
  | fault f => rw [hx] at h; cases h
  | refused r => rw [hx] at h; cases h

/-- `s` with input symbols in the IN buffer and IN_LEN their number. -/
def withInput (s : State) (xs : List Byte) : State :=
  { s.writeBytes Config.inBase xs with inLen := BitVec.ofNat 32 xs.length }

/-- `s` with payload bytes in the PAY buffer and a bit length. -/
def withPayload (s : State) (bs : List Byte) (n : Word) : State :=
  { s.writeBytes Config.payBase bs with bitLen := n }

/-- The FREQ table of a few symbols. -/
def freqOf (l : List (Byte × Word)) : Vector Word 256 :=
  l.foldl (fun f e => setFreq f e.1 e.2) (Vector.replicate 256 0)

/-- The CB table of a few symbols. -/
def bookOf (l : List (Byte × CbEntry)) : Vector CbEntry 256 :=
  l.foldl (fun f e => setCb f e.1 e.2) (Vector.replicate 256 CbEntry.zero)

/-- "abracadabra" (95 L1.1). -/
def abra : List Byte := [0x61, 0x62, 0x72, 0x61, 0x63, 0x61, 0x64, 0x61, 0x62, 0x72, 0x61]

/-- The book of "abracadabra" (95 L1.1): a 0, c 100, d 101, b 110, r 111. -/
def abraBook : Vector CbEntry 256 :=
  bookOf [(0x61, ⟨1, 0⟩), (0x62, ⟨3, 6⟩), (0x63, ⟨3, 4⟩), (0x64, ⟨3, 5⟩), (0x72, ⟨3, 7⟩)]

/-- The counts of "abracadabra" (95 L1.1). -/
def counted : State := { idle with freq := freqOf [(0x61, 5), (0x62, 2), (0x63, 1), (0x64, 1), (0x72, 2)], total := 11 }

/-- The tree of "abracadabra". -/
def tree : State := after .buildTree counted

/-- One symbol, four times (95 L1.2). -/
def lone : State := { idle with freq := freqOf [(0x61, 4)], total := 4 }

/-- The book {a: 0} and the input "aa". -/
def aBook : State := withInput { idle with cb := bookOf [(0x61, ⟨1, 0⟩)] } [0x61, 0x61]

/-- The book {a: 0} and a payload of two bits. -/
def aPay (b : Byte) (n : Word) : State := withPayload { idle with cb := bookOf [(0x61, ⟨1, 0⟩)] } [b] n

/-! ## One step each, against 95_test_vectors -/

/-- L2.1: NOP after a failed PACK leaves STATUS 0 and IRQ_STATUS 3 (R102). -/
theorem test_nop_clears_report :
    let t := after .nop { idle with lastOp := 5, errCode := 6, err := true, errSym := 0x61, irqStatus := 3 }
    t.status = 0 ∧ t.errSym = 0 ∧ t.irqStatus = 3 := by decide +kernel

/-- L2.1: CLEAR after L1.1. -/
theorem test_clear :
    let t := after .clear { counted with treeValid := true, bitLen := 23, inLen := 11 }
    t.status = 0x00001000 ∧ t.total = 0 ∧ t.freqAt 0x61 = 0 ∧ t.bitLen = 0 ∧ t.inLen = 11 := by decide +kernel

/-- L2.1: `wr CTRL, 9`. -/
theorem test_illegal_opcode :
    (after (decode 0x9) idle).status = 0x00009102 ∧ (after (decode 0x9) idle).irqStatus = 3 := by decide +kernel

/-- L2.1: `wr CTRL, 0x13` and `wr CTRL, 0x80000000`. -/
theorem test_illegal_reserved_bits :
    (after (decode 0x13) idle).status = 0x00003102 ∧ (after (decode 0x80000000) idle).status = 0x00000102 := by
  decide +kernel

/-- R110 example: the counts of "abracadabra". -/
theorem test_freq_count :
    let t := after .freqCount (withInput idle abra)
    t.freqAt 0x61 = 5 ∧ t.freqAt 0x62 = 2 ∧ t.freqAt 0x63 = 1 ∧ t.freqAt 0x72 = 2 ∧ t.total = 11 ∧ t.status = 0x2000 := by
  decide +kernel

/-- L2.2: the second symbol overflows TOTAL. -/
theorem test_freq_count_overflow :
    let t := after .freqCount (withInput { idle with freq := freqOf [(0, 0xFFFFFFFE)], total := 0xFFFFFFFE } [0, 1])
    t.status = 0x00002302 ∧ t.errPos = 1 ∧ t.errSym = 1 ∧ t.freqAt 0 = 0xFFFFFFFF ∧ t.freqAt 1 = 0 := by
  decide +kernel

/-- L2.3: "mississippi", i:4 m:1 p:2 s:4. -/
theorem test_build_tree_ties :
    let t := after .buildTree { idle with freq := freqOf [(0x69, 4), (0x6D, 1), (0x70, 2), (0x73, 4)], total := 11 }
    t.nsym = 4 ∧ t.nnodes = 7 ∧ t.rootWord = 0x80000006 ∧ (t.nodeN 4).left = 1 ∧ (t.nodeN 4).right = 2 ∧
      (t.nodeN 5).left = 4 ∧ (t.nodeN 5).right = 0 ∧ (t.nodeN 6).left = 3 ∧ (t.nodeN 6).right = 5 := by
  decide +kernel

/-- L2.3: the read-back of the skewed tree 0:1 1:1 2:2 3:3 4:5. -/
theorem test_build_tree_read_back :
    let t := after .buildTree { idle with freq := freqOf [(0, 1), (1, 1), (2, 2), (3, 3), (4, 5)], total := 12 }
    (t.nodeN 4).info = 0x80100000 ∧ (t.nodeN 5).info = 0x00000200 ∧ (t.nodeN 6).info = 0x00000A02 ∧
      (t.nodeN 7).info = 0x00000C03 ∧ (t.nodeN 8).info = 0x00000E04 ∧ (t.nodeN 8).count = 12 := by
  decide +kernel

/-- R140 example: the codes of "abracadabra". -/
theorem test_gen_codes :
    let t := after .genCodes tree
    t.cbAt 0x61 = ⟨1, 0⟩ ∧ t.cbAt 0x63 = ⟨3, 4⟩ ∧ t.cbAt 0x64 = ⟨3, 5⟩ ∧ t.cbAt 0x62 = ⟨3, 6⟩ ∧ t.cbAt 0x72 = ⟨3, 7⟩ ∧
      t.cbAt 0x65 = ⟨0, 0⟩ := by decide +kernel

/-- L2.4: MAX_CODE_LEN = 2 on the same tree. -/
theorem test_gen_codes_too_long :
    let t := after .genCodes { tree with cfg := { Params.default with maxCodeLen := 2 } }
    t.status = 0x00004506 ∧ t.errSym = 0x62 ∧ t.errPos = 3 := by decide +kernel

/-- R150 example: the payload of "abracadabra". -/
theorem test_pack :
    let t := after .pack (withInput { idle with cb := abraBook } abra)
    t.bitLen = 23 ∧ Memory.Holds t.mem 0x30000 [0x6E, 0x8A, 0xDC] ∧ t.status = 0x5000 := by decide +kernel

/-- L2.5: UNKNOWN_SYMBOL on "abz". -/
theorem test_pack_unknown_symbol :
    let t := after .pack (withInput { idle with cb := abraBook } [0x61, 0x62, 0x7A])
    t.status = 0x00005602 ∧ t.errPos = 2 ∧ t.errSym = 0x7A ∧ t.bitLen = 0 ∧ Memory.Holds t.mem 0x30000 [0x60] := by
  decide +kernel

/-- R155 example: decoding "abracadabra". -/
theorem test_unpack :
    let t := after .unpack (withPayload { idle with cb := abraBook } [0x6E, 0x8A, 0xDC] 23)
    t.outLen = 11 ∧ Memory.Holds t.mem 0x20000 abra ∧ t.status = 0x6000 := by decide +kernel

/-- L1.4: two bits short. -/
theorem test_unpack_malformed :
    let t := after .unpack (withPayload { idle with cb := abraBook } [0x6E, 0x8A, 0xDC] 21)
    t.status = 0x00006802 ∧ t.errPos = 19 ∧ t.outLen = 0 ∧ Memory.Holds t.mem 0x20000 (abra.take 9) := by
  decide +kernel

/-- L1.1: ENCODE of "abracadabra". -/
theorem test_encode :
    let t := after .encode (withInput idle abra)
    t.status = 0x00007004 ∧ t.bitLen = 23 ∧ t.nnodes = 9 ∧ Memory.Holds t.mem 0x30000 [0x6E, 0x8A, 0xDC] := by
  decide +kernel

/-- L1.2: ENCODE of "aaaa". -/
theorem test_encode_single_symbol :
    let t := after .encode (withInput idle [0x61, 0x61, 0x61, 0x61])
    t.rootWord = 0x80000000 ∧ t.cbAt 0x61 = ⟨1, 0⟩ ∧ t.bitLen = 4 ∧ Memory.Holds t.mem 0x30000 [0x00] := by
  decide +kernel

/-- L2.8: unmapped, misaligned, read-only, past the buffer's depth; a CTRL read gives 0. -/
theorem test_bus_errors :
    (hostRead idle 0x080).2.1 = .slverr ∧ (hostRead idle 0x002).2.1 = .slverr ∧
      (hostWrite idle 0x000 0xF 5).1 = .slverr ∧ (hostRead idle 0x11000).2.1 = .slverr ∧
      (hostRead idle 0x008).1 = 0 ∧ (hostRead idle 0x008).2.1 = .okay ∧ (hostWrite idle 0x0FFFC 0xF 5).1 = .slverr := by
  decide +kernel

/-- R65 example: a word holding bytes 6E, 8A, DC, 00 at offsets 0 to 3 reads 0x00DC8A6E. -/
theorem test_window_word : (hostRead (withPayload idle [0x6E, 0x8A, 0xDC, 0x00] 23) 0x30000).1 = 0x00DC8A6E := by
  decide +kernel

/-- L2.9: during INIT STATUS reads 1 and TOTAL gets SLVERR. -/
theorem test_init_lockout :
    (hostRead State.reset 0x00C).1 = 1 ∧ (hostRead State.reset 0x02C).2.1 = .slverr := by decide +kernel

/-- R111 example: TOTAL = 11, FREQ[0x61] = 5, `setfreq 0x61, 7`. -/
theorem test_setfreq :
    ((writeFreq counted 0x61 7).map fun t => (t.freqAt 0x61, t.total)) = some (7, 13) := by decide +kernel

/-- R87: `setcode` is one SEL write, one CB_LEN write and eight CB_CODE writes, at 0x03C, 0x04C, 0x050 … 0x06C. -/
theorem test_setcode_expansion : (stmtSetcode 0x61 1 0).map (fun e => match e with
    | .txn (.write a _ _) => a.toNat
    | .txn (.read _) => 0
    | .engine => 0
    | .reset => 0) = [0x3C, 0x4C, 0x50, 0x54, 0x58, 0x5C, 0x60, 0x64, 0x68, 0x6C] := by decide +kernel

/-! ## Witnesses: states and operands that meet each statement's hypotheses -/

theorem idle_sound : idle.Inv := by
  and_intros <;> decide +kernel

theorem tree_sound : tree.Inv := by
  and_intros <;> decide +kernel

/-- Buffers of four bytes each. -/
def small : Params := { inDepth := 4, outDepth := 4, payDepth := 4, maxCodeLen := 255 }

/-- A full input buffer and a count that leaves room for exactly four more. -/
def almost (n : Word) : State :=
  withInput { idle with cfg := small, freq := freqOf [(0, n)], total := n } [0, 1, 0, 2]

/-- ENCODE running on `s`. -/
def running (s : State) : State := { s with engine := .busy 7, lastOp := 7 }

/-- The word 0x13 just accepted, and a STATUS read next. -/
def illegalBusy : State := { idle with engine := .busy 0x13, lastOp := 3, events := [.txn (.read 0x00C)] }

/-- P5: `wr CTRL, 0x13` completes before the next STATUS read (R84). -/
theorem test_illegal_completes_at_once :
    ∃ t, step illegalBusy = .next t ∧ t.events = [.txn (.read 0x00C)] ∧ t.status = 0x00003102 := by
  have h : step illegalBusy = exec (decode 0x13) illegalBusy := rfl
  refine ⟨after (decode 0x13) illegalBusy, h.trans (exec_after ?_), ?_, ?_⟩ <;> decide +kernel

/-- The payload 00 of `n` bits, decoded with {a: 0} into four bytes. -/
def aPaySmall (n : Word) : State := { aPay 0 n with cfg := small }

/-- The tree of "abracadabra" with codes of at most two bits. -/
def shallow : State := { tree with cfg := { Params.default with maxCodeLen := 2 } }

theorem witness_DecodeAndEncodeAgree :
    (Instr.illegalRes 1 0xF).WellFormed ∧ (Instr.illegalOp 7).WellFormed ∧ Instr.encode.WellFormed := by decide

theorem witness_DecodeFollowsOpcodeMap :
    (0x00000010 : Word).toNat / 16 ≠ 0 ∧ ((7 : Word).toNat / 16 = 0 ∧ (7 : Word).toNat % 16 ≤ 7) ∧
      ((8 : Word).toNat / 16 = 0 ∧ 8 ≤ (8 : Word).toNat % 16) ∧
      exec (decode 0xFFFFFFFF) idle = .next (after (decode 0xFFFFFFFF) idle) := by
  refine ⟨?_, ?_, ?_, exec_after ?_⟩ <;> decide +kernel

theorem witness_StepRunsTheDecodedCommand :
    ((running idle).engine = .busy 7 ∧ (running idle).events = []) ∧
      ({ running idle with events := [.engine, .reset] } : State).events = [.engine, .reset] ∧ 2 ^ 32 - 1 < 2 ^ 32 ∧
      ({ idle with events := [.txn (.read 0)] } : State).events = [.txn (.read 0)] ∧
      IllegalWord 0x13 ∧ IllegalWord 0x8 ∧ ¬ IllegalWord 7 ∧ illegalBusy.engine = .busy 0x13 ∧
      illegalBusy.events = [.txn (.read 0x00C)] ∧
      idle.engine = .idle ∧ idle.events = [] := by decide +kernel

theorem witness_CtrlWriteIsAccepted :
    let s : State := { idle with events := [.txn (.write 0x008 0xF 0xFFFFFFFF)] }
    s.engine = .idle ∧ s.events = [.txn (.write 0x008 0xF 0xFFFFFFFF)] := by decide +kernel

theorem witness_CtrlWriteWhileBusyIsDropped :
    let s : State := { running idle with events := [.txn (.write 0x008 0xF 1)] }
    s.engine = .busy 7 ∧ ¬ IllegalWord 7 ∧ s.events = [.txn (.write 0x008 0xF 1)] ∧ State.reset.engine = .init := by
  decide +kernel

theorem witness_CompletionOfEveryCommand :
    exec .pack (withInput idle abra) = .next (after .pack (withInput idle abra)) ∧
      exec .encode (withInput idle abra) = .next (after .encode (withInput idle abra)) := by
  refine ⟨exec_after ?_, exec_after ?_⟩ <;> decide +kernel

theorem witness_CommandBufferFootprint :
    (exec .unpack (aPaySmall 4) = .next (after .unpack (aPaySmall 4)) ∧
      Memory.lookup (after .unpack (aPaySmall 4)).mem 0x20003 ≠ Memory.lookup (aPaySmall 4).mem 0x20003) ∧
    (exec .pack aBook = .next (after .pack aBook) ∧
      Memory.lookup (after .pack aBook).mem 0x30000 ≠ Memory.lookup aBook.mem 0x30000) := by
  refine ⟨⟨exec_after ?_, ?_⟩, exec_after ?_, ?_⟩ <;> decide +kernel

theorem witness_PayloadAndBookSurvive :
    idle.cfg.Ok ∧ exec .buildTree counted = .next tree ∧ (aPaySmall 4).cfg.Ok ∧
      exec .unpack (aPaySmall 4) = .next (after .unpack (aPaySmall 4)) := by
  refine ⟨?_, exec_after ?_, ?_, exec_after ?_⟩ <;> decide +kernel

theorem witness_ClearResult : exec .clear tree = .next (after .clear tree) := exec_after (by decide +kernel)

theorem witness_IllegalWordResult :
    IllegalWord 0x00000010 ∧ IllegalWord 8 ∧ IllegalWord 15 ∧ ¬ IllegalWord 7 ∧ idle.engine = .idle := by
  decide +kernel

theorem witness_LengthChecksComeFirst :
    idle.cfg.inDepth < ({ idle with inLen := 4097 } : State).inLen.toNat ∧
      idle.cfg.payDepth * 8 < ({ idle with bitLen := 32769 } : State).bitLen.toNat := by decide +kernel

theorem witness_FreqCountCounts :
    let s := almost 0xFFFFFFFB
    s.TotalOk ∧ s.inLen.toNat = [0, 1, 0, 2].length ∧ [0, 1, 0, 2].length ≤ s.cfg.inDepth ∧
      Memory.Holds s.mem Config.inBase [0, 1, 0, 2] ∧ s.total.toNat + [0, 1, 0, 2].length < 2 ^ 32 := by decide +kernel

theorem witness_FreqCountOverflows :
    let s := almost 0xFFFFFFFC
    s.TotalOk ∧ s.inLen.toNat = ([0, 1, 0] ++ 2 :: []).length ∧ ([0, 1, 0] ++ 2 :: []).length ≤ s.cfg.inDepth ∧
      Memory.Holds s.mem Config.inBase ([0, 1, 0] ++ 2 :: []) ∧ s.total.toNat + [0, 1, 0].length = 2 ^ 32 - 1 := by
  decide +kernel

theorem witness_CountsOfOneInput :
    let s := withInput counted abra
    let t := after .clear s
    exec .clear s = .next t ∧ exec .freqCount t = .next (after .freqCount t) ∧ (after .freqCount t).err = false ∧
      abra.length = s.inLen.toNat ∧ Memory.Holds s.mem Config.inBase abra := by
  refine ⟨exec_after ?_, exec_after ?_, ?_, ?_, ?_⟩ <;> decide +kernel

theorem witness_FreqDataWrite :
    let s : State := { counted with sel := 0x161 }
    let x : Byte := s.sel.setWidth 8
    s.engine = .idle ∧ s.TotalOk ∧
      (s.total.toNat : Int) - (s.freqAt x).toNat + (0xFFFFFFFA : Word).toNat > 0xFFFFFFFF ∧
      (s.total.toNat : Int) - (s.freqAt x).toNat + (0xFFFFFFF9 : Word).toNat ≤ 0xFFFFFFFF ∧
      (running s).engine ≠ .idle := by decide +kernel

theorem witness_BuildTreeLeaves :
    exec .buildTree counted = .next tree ∧ (presentSymbols counted.freq)[4]? = some 0x72 := by
  refine ⟨exec_after ?_, ?_⟩ <;> decide +kernel

theorem witness_BuildTreeMergesFirstTwo :
    exec .buildTree counted = .next tree ∧ (tree.nsym.toNat ≤ 5 ∧ 5 < tree.nnodes.toNat) ∧
      (tree.nsym.toNat ≤ 8 ∧ 8 < tree.nnodes.toNat) := by
  refine ⟨exec_after ?_, ?_, ?_⟩ <;> decide +kernel

theorem witness_BuildTreeProperties :
    exec .buildTree counted = .next tree ∧ 1 ≤ tree.nsym.toNat ∧ counted.TotalOk ∧ tree.cfg.maxCodeLen = 255 ∧
      tree.LeafAt [true, true, true] 0x72 := by
  refine ⟨exec_after ?_, ?_, ?_, ?_, 4, ?_, ?_, ?_⟩ <;> decide +kernel

theorem witness_BuildTreeOneSymbol : lone.freqAt 0x61 ≠ 0 ∧ ∀ y, y ≠ 0x61 → lone.freqAt y = 0 := by decide +kernel

theorem witness_BuildTreeNoSymbol : (∀ y, idle.freqAt y = 0) ∧ idle.inLen = 0 := by decide +kernel

theorem witness_BuildTreeTwiceIsOnce : exec .buildTree counted = .next tree := exec_after (by decide +kernel)

theorem witness_CountsNeverWrap :
    counted.TotalOk ∧ exec .buildTree counted = .next tree ∧ tree.nsym.toNat ≤ 8 ∧ 8 < tree.nnodes.toNat := by
  refine ⟨?_, exec_after ?_, ?_, ?_⟩ <;> decide +kernel

theorem witness_GenCodesSpecialCases :
    idle.treeValid = false ∧ (after .buildTree lone).treeValid = true ∧ (after .buildTree lone).nsym = 1 := by
  decide +kernel

theorem witness_GenCodesEmptyBook :
    (after .buildTree idle).treeValid = true ∧ (after .buildTree idle).nsym = 0 := by decide +kernel

theorem witness_GenCodesCompletes : tree.Inv ∧ tree.treeValid = true ∧ tree.cfg.maxCodeLen = 255 := by
  refine ⟨tree_sound, ?_, ?_⟩ <;> decide +kernel

theorem witness_GenCodesPathsAreCodes :
    tree.Inv ∧ 2 ≤ tree.nsym.toNat ∧ exec .genCodes tree = .next (after .genCodes tree) ∧
      (after .genCodes tree).err = false ∧ ((after .genCodes tree).cbAt 0x61).len ≠ 0 ∧ tree.LeafAt [false] 0x61 := by
  refine ⟨tree_sound, ?_, exec_after ?_, ?_, ?_, 0, ?_, ?_, ?_⟩ <;> decide +kernel

theorem witness_GenCodesPrefixFree :
    tree.Inv ∧ exec .genCodes tree = .next (after .genCodes tree) ∧ (after .genCodes tree).err = false := by
  refine ⟨tree_sound, exec_after ?_, ?_⟩ <;> decide +kernel

theorem witness_BookCoversPresentSymbols :
    counted.cfg.Ok ∧ exec .buildTree counted = .next tree ∧ exec .genCodes tree = .next (after .genCodes tree) ∧
      (after .genCodes tree).err = false ∧ 2 ≤ tree.nsym.toNat := by
  refine ⟨?_, exec_after ?_, exec_after ?_, ?_, ?_⟩ <;> decide +kernel

theorem shallow_sound : shallow.Inv := by
  and_intros <;> decide +kernel

theorem witness_CodeTooLong :
    (shallow.Inv ∧ shallow.treeValid = true ∧ 2 ≤ shallow.nsym.toNat ∧
      ∃ p x, shallow.LeafAt p x ∧ shallow.cfg.maxCodeLen < p.length) ∧
    (tree.Inv ∧ 2 ≤ tree.nsym.toNat ∧ tree.cfg.maxCodeLen = 255 ∧ tree.LeafAt [true, true, false] 0x62) := by
  refine ⟨⟨shallow_sound, ?_, ?_, [true, true, false], 0x62, ⟨1, ?_, ?_, ?_⟩, ?_⟩, tree_sound, ?_, ?_, 1, ?_, ?_, ?_⟩ <;>
    decide +kernel

theorem witness_PackResult :
    aBook.cfg.Ok ∧ aBook.inLen.toNat = [0x61, 0x61].length ∧ [0x61, 0x61].length ≤ aBook.cfg.inDepth ∧
      Memory.Holds aBook.mem Config.inBase [0x61, 0x61] ∧ (∀ x ∈ [0x61, 0x61], (aBook.cbAt x).len ≠ 0) ∧
      (bookStream aBook.cb [0x61, 0x61]).length ≤ aBook.cfg.payDepth * 8 := by decide +kernel

/-- The book {a: 32 bits, b: 1 bit}, four payload bytes, the input "ac" or "ab": the second symbol has no code, or its
code is one bit too long. -/
def stopping (y : Byte) : State :=
  withInput { idle with cfg := small, cb := bookOf [(0x61, ⟨32, 0⟩), (0x62, ⟨1, 1⟩)] } [0x61, y]

theorem witness_PackStops : ∀ y ∈ [0x62, 0x63],
    (stopping y).cfg.Ok ∧ (stopping y).inLen.toNat = ([0x61] ++ y :: []).length ∧
      ([0x61] ++ y :: []).length ≤ (stopping y).cfg.inDepth ∧
      Memory.Holds (stopping y).mem Config.inBase ([0x61] ++ y :: []) ∧
      (∀ x ∈ [0x61], ((stopping y).cbAt x).len ≠ 0) ∧
      (bookStream (stopping y).cb [0x61]).length ≤ (stopping y).cfg.payDepth * 8 ∧
      (((stopping y).cbAt y).len = 0 ↔ y = 0x63) ∧
      (((stopping y).cbAt y).len ≠ 0 → (stopping y).cfg.payDepth * 8 <
        (bookStream (stopping y).cb [0x61]).length + ((stopping y).cbAt y).len.toNat) := by decide +kernel

theorem witness_PackFlushes :
    (stopping 0x62).cfg.Ok ∧ exec .pack (stopping 0x62) = .next (after .pack (stopping 0x62)) ∧
      (after .pack (stopping 0x62)).err = true ∧ exec .pack aBook = .next (after .pack aBook) := by
  refine ⟨?_, exec_after ?_, ?_, exec_after ?_⟩ <;> decide +kernel

theorem witness_CodeBitsAboveLenIgnored :
    let cb := bookOf [(0x61, ⟨1, 0xFE⟩)]
    (∀ x : Fin 256, (cb[x.val]).len = (aBook.cb[x.val]).len ∧
      ∀ j, j < (aBook.cb[x.val]).len.toNat → (cb[x.val]).code.getLsbD j = (aBook.cb[x.val]).code.getLsbD j) ∧
    exec .pack aBook = .next (after .pack aBook) ∧ exec .unpack (aPay 0 2) = .next (after .unpack (aPay 0 2)) ∧
    (aPay 0 2).cb = aBook.cb := by
  refine ⟨?_, exec_after ?_, exec_after ?_, ?_⟩ <;> decide +kernel

theorem witness_UnpackResult :
    (aPaySmall 2).cfg.Ok ∧ (aPaySmall 2).bitLen.toNat = [false, false].length ∧
      [false, false].length ≤ (aPaySmall 2).cfg.payDepth * 8 ∧ PayHolds (aPaySmall 2).mem [false, false] ∧
      Parses (aPaySmall 2).cb [0x61, 0x61] [false, false] [] ∧ [0x61, 0x61].length ≤ (aPaySmall 2).cfg.outDepth := by
  refine ⟨?_, ?_, ?_, ?_, ⟨1, ?_, 1, ?_, rfl⟩, ?_⟩ <;> decide +kernel

theorem witness_UnpackStops_malformed :
    let s := aPay 0b01000000 2
    s.cfg.Ok ∧ s.bitLen.toNat = [false, true].length ∧ [false, true].length ≤ s.cfg.payDepth * 8 ∧
      PayHolds s.mem [false, true] ∧ Parses s.cb [0x61] [false, true] [true] ∧ DeadEnd s.cb [true] ∧
      [0x61].length ≤ s.cfg.outDepth := by
  refine ⟨?_, ?_, ?_, ?_, ⟨1, ?_, rfl⟩, ?_, ?_⟩ <;> decide +kernel

theorem witness_UnpackStops_overflow :
    let s := aPaySmall 5
    s.cfg.Ok ∧ s.bitLen.toNat = (List.replicate 5 false).length ∧
      (List.replicate 5 false).length ≤ s.cfg.payDepth * 8 ∧ PayHolds s.mem (List.replicate 5 false) ∧
      Parses s.cb [0x61, 0x61, 0x61, 0x61] (List.replicate 5 false) [false] ∧ FirstMatch s.cb [false] 1 0x61 ∧
      [0x61, 0x61, 0x61, 0x61].length = s.cfg.outDepth := by
  refine ⟨?_, ?_, ?_, ?_, ⟨1, ?_, 1, ?_, 1, ?_, 1, ?_, rfl⟩, ?_, ?_⟩ <;> decide +kernel

theorem witness_UnpackIgnoresPadding :
    (aPay 0 2).bitLen.toNat = [false, false].length ∧ PayHolds (aPay 0 2).mem [false, false] ∧
      PayHolds (aPay 0b00111111 2).mem [false, false] := by decide +kernel

theorem witness_PackThenUnpack :
    aBook.cfg.Ok ∧ aBook.inLen.toNat = [0x61, 0x61].length ∧ Memory.Holds aBook.mem Config.inBase [0x61, 0x61] ∧
      [0x61, 0x61].length ≤ aBook.cfg.outDepth ∧ PrefixFree aBook.cb ∧ exec .pack aBook = .next (after .pack aBook) ∧
      (after .pack aBook).err = false := by
  refine ⟨?_, ?_, ?_, ?_, ?_, exec_after ?_, ?_⟩ <;> decide +kernel

/-- FREQ_COUNT, BUILD_TREE and GEN_CODES in a row, on cleared counts. -/
def threeSteps (s : State) : State :=
  after .genCodes (after .buildTree (after .freqCount { s with freq := Vector.replicate 256 0, total := 0 }))

/-- "abracadabra" with codes of at most `n` bits. -/
def limited (n : Nat) : State := { withInput idle abra with cfg := { Params.default with maxCodeLen := n } }

/-- Both clauses: with codes of at most 3 bits GEN_CODES ends without error, with at most 2 bits with one. -/
theorem witness_EncodeIsTheSequence : ∀ n ∈ [2, 3],
    let s := limited n
    let s1 := after .freqCount { s with freq := Vector.replicate 256 0, total := 0 }
    let s2 := after .buildTree s1
    s.inLen.toNat ≤ s.cfg.inDepth ∧ completes .freqCount { s with freq := Vector.replicate 256 0, total := 0 } = true ∧
      completes .buildTree s1 = true ∧ completes .genCodes s2 = true ∧ (threeSteps s).err = decide (n = 2) ∧
      completes .pack (threeSteps s) = true := by decide +kernel

theorem witness_EncodeCompletes :
    let s := withInput idle abra
    s.cfg.Ok ∧ s.inLen.toNat = abra.length ∧ abra.length ≤ s.cfg.inDepth ∧ Memory.Holds s.mem Config.inBase abra ∧
      s.cfg.maxCodeLen = 255 ∧ max 1 (abra.dedup.length - 1) * abra.length ≤ s.cfg.payDepth * 8 := by decide +kernel

theorem witness_EncodeThenUnpack :
    let s := withInput idle abra
    s.cfg.Ok ∧ s.inLen.toNat = abra.length ∧ Memory.Holds s.mem Config.inBase abra ∧ abra.length ≤ s.cfg.outDepth ∧
      exec .encode s = .next (after .encode s) ∧ (after .encode s).err = false := by
  refine ⟨?_, ?_, ?_, ?_, exec_after ?_, ?_⟩ <;> decide +kernel

theorem witness_TraversalFsmAgrees :
    let ls : List (Byte × List Bool) :=
      [(0x61, [false]), (0x63, [true, false, false]), (0x64, [true, false, true]), (0x62, [true, true, false]),
        (0x72, [true, true, true])]
    tree.paths = some ls ∧ ls.length ≤ 256 ∧ ∀ l ∈ ls, l.2.length ≤ 255 := by decide +kernel

/-- Each cause of SLVERR at a boundary, and its nearest neighbour without it. -/
theorem witness_BusErrors :
    idle.cfg.Ok ∧ (hostRead idle 0x001).2.1 = .slverr ∧ (hostRead idle 0x07C).2.1 = .okay ∧
      (hostRead idle 0x080).2.1 = .slverr ∧ (hostRead idle 0x0FFFC).2.1 = .slverr ∧
      (hostRead idle 0x10FFC).2.1 = .okay ∧ (hostRead idle 0x11000).2.1 = .slverr ∧
      (hostRead idle 0x21000).2.1 = .slverr ∧ (hostRead idle 0x31000).2.1 = .slverr ∧
      (hostRead (running idle) 0x018).2.1 = .slverr ∧ (hostRead (running idle) 0x014).2.1 = .okay ∧
      (hostWrite idle 0x018 0x7 1).1 = .slverr ∧ (hostWrite idle 0x07C 0xF 1).1 = .slverr ∧
      (hostWrite shallow 0x04C 0xF 3).1 = .slverr ∧ (hostWrite shallow 0x04C 0xF 0xFFFFFF02).1 = .okay ∧
      (hostWrite { counted with sel := 0x61 } 0x040 0xF 0xFFFFFFFA).1 = .slverr ∧
      (hostWrite (running idle) 0x008 0xF 0).1 = .slverr ∧ (hostWrite idle 0x008 0x7 0).1 = .slverr := by
  decide +kernel

theorem witness_WindowWordLayout : idle.cfg.Ok ∧ idle.engine = .idle ∧
    (inBuffer idle.cfg (0x10000 : BitVec 18).toNat ∧ (0x10000 : BitVec 18).toNat % 4 = 0) ∧
    (inBuffer idle.cfg (0x20FFC : BitVec 18).toNat ∧ (0x20FFC : BitVec 18).toNat % 4 = 0) ∧
    (inBuffer idle.cfg (0x30FFC : BitVec 18).toNat ∧ (0x30FFC : BitVec 18).toNat % 4 = 0) := by decide +kernel

theorem witness_RegisterReads : idle.engine = .idle := by decide +kernel

theorem witness_RegisterWrites : idle.engine = .idle ∧ (running idle).engine ≠ .idle := by decide +kernel

theorem witness_PackedRegisterLayouts :
    tree.engine = .idle ∧ ({ tree with sel := 8 } : State).sel.toNat < tree.nnodes.toNat ∧
      tree.nnodes.toNat ≤ ({ tree with sel := 9 } : State).sel.toNat := by decide +kernel

theorem witness_CodeBookWrites :
    shallow.engine = .idle ∧ shallow.cfg.maxCodeLen < (3 : Word).toNat % 256 ∧
      (0x102 : Word).toNat % 256 ≤ shallow.cfg.maxCodeLen := by decide +kernel

theorem witness_IrqLine :
    let s : State := { idle with irqEn := 1 }
    s.irqEn.getLsbD 0 = true ∧ exec .nop s = .next (after .nop s) := by
  refine ⟨?_, exec_after ?_⟩ <;> decide +kernel

theorem witness_ResetAndInit :
    ({ running tree with events := [.reset] } : State).events = [.reset] ∧ State.reset.InitOk ∧
      State.reset.engine = .init ∧ State.reset.events = [] := by
  refine ⟨rfl, fun _ => ?_, rfl, rfl⟩
  and_intros <;> rfl

theorem witness_StepKeepsInvariant : tree.Inv ∧ step tree = .next tree := ⟨tree_sound, rfl⟩

theorem running_sound : (running idle).Inv := by
  and_intros <;> decide +kernel

theorem witness_SoundStateNeverStops : (running idle).Inv ∧ (running idle).engine = .busy 7 :=
  ⟨running_sound, by decide +kernel⟩

theorem witness_EveryCommandCompletes : (running idle).Inv ∧ idle.Inv := ⟨running_sound, idle_sound⟩

end Sys2Proof.Tests
end

/-! Proofs: what one step does, an equation per event and per state of the engine (00_scope R9, R10). -/

namespace Sys2Proof.Machine

/-! ## The engine's move -/

theorem stepEngine_of_init {s : State} (h : s.engine = .init) : stepEngine s = .next (endInit s) := by
  simp only [stepEngine, h]

theorem stepEngine_of_idle {s : State} (h : s.engine = .idle) : stepEngine s = .next s := by
  simp only [stepEngine, h]

theorem stepEngine_of_busy {s : State} {w : Word} (h : s.engine = .busy w) : stepEngine s = exec (decode w) s := by
  simp only [stepEngine, h]

/-- Only a running illegal word keeps the next host transaction waiting (30_encoding R84). -/
theorem State.endsAtOnce_iff {s : State} : s.endsAtOnce = true ↔ ∃ w, s.engine = .busy w ∧ IllegalWord w := by
  cases h : s.engine with
  | init => simp [State.endsAtOnce, h]
  | idle => simp [State.endsAtOnce, h]
  | busy w => simp [State.endsAtOnce, h, endsAtOnce_decode]

/-! ## The step at each event -/

theorem step_of_no_event {s : State} (h : s.events = []) : step s = stepEngine s := by
  simp only [step, h]

theorem step_of_engine {s : State} {es : List Event} (h : s.events = .engine :: es) :
    step s = stepEngine { s with events := es } := by
  simp only [step, h]

theorem step_of_txn_waiting {s : State} {x : Txn} {es : List Event} (h : s.events = .txn x :: es)
    (hw : s.endsAtOnce = true) : step s = stepEngine s := by
  simp only [step, h, hw, if_true]

theorem step_of_txn {s : State} {x : Txn} {es : List Event} (h : s.events = .txn x :: es)
    (hw : ¬ s.endsAtOnce = true) : step s = .next (hostTxn x { s with events := es }) := by
  simp only [step, h, if_neg hw]

theorem step_of_reset {s : State} {es : List Event} (h : s.events = .reset :: es) :
    step s = .next (resetBlock { s with events := es }) := by
  simp only [step, h]

/-- Whatever events are still to come, the engine moves first after `withFetchWord`, and they stay as they were. -/
theorem step_withFetchWord (s : State) (nbits w : Nat) :
    step (s.withFetchWord nbits w) = stepEngine { s with engine := .busy (BitVec.ofNat 32 (w % 2 ^ nbits)) } := by
  cases h : s.events with
  | nil =>
    have hev : (s.withFetchWord nbits w).events = [] := by simp only [State.withFetchWord, h]
    rw [step_of_no_event hev]
    simp only [State.withFetchWord, h]
  | cons e es =>
    have hev : (s.withFetchWord nbits w).events = .engine :: e :: es := by simp only [State.withFetchWord, h]
    rw [step_of_engine hev]
    simp only [State.withFetchWord, h]

/-- Settles O4: an equation of `step` for each clause, and that only an illegal word makes a host transaction wait. -/
theorem stepRunsTheDecodedCommand : Obligations.StepRunsTheDecodedCommand := by
  unfold Obligations.StepRunsTheDecodedCommand
  refine ⟨fun s w hbusy hev => ?_, fun s w es hbusy hev => ?_, fun s w hw => ?_, fun s w x es hbusy hill hev => ?_,
    fun s x es hlegal hev => ?_, fun s hidle hev => ?_⟩
  · rw [step_of_no_event hev, stepEngine_of_busy hbusy]
  · rw [step_of_engine hev]
    exact stepEngine_of_busy hbusy
  · rw [step_withFetchWord, Nat.mod_eq_of_lt hw]
    exact stepEngine_of_busy rfl
  · have hwaits : s.endsAtOnce = true := State.endsAtOnce_iff.2 ⟨w, hbusy, hill⟩
    rw [step_of_txn_waiting hev hwaits, stepEngine_of_busy hbusy]
  · have hnow : ¬ s.endsAtOnce = true := fun hwaits =>
      have ⟨w, hbusy, hill⟩ := State.endsAtOnce_iff.1 hwaits
      hlegal w hbusy hill
    exact step_of_txn hev hnow
  · rw [step_of_no_event hev, stepEngine_of_idle hidle]

end Sys2Proof.Machine

/-! Proofs: every step keeps the machine's invariant (10_state R52). The invariant is split into what a command's body
has to keep (`State.DataSound`) and what concerns the report and the engine; each body is then one lemma. -/

namespace Sys2Proof.Machine

/-! ## The invariant in two parts -/

/-- The part of the invariant that a command's body has to keep; the rest is about the report and the engine, which no
body writes. -/
structure State.DataSound (s : State) : Prop where
  params : s.cfg.Ok
  total : s.TotalOk
  counts : s.CountsOk
  root : s.RootOk
  shape : s.TreeOk
  valid : s.ValidOk
  book : s.BookOk
  out : s.OutOk
  mem : s.MemOk

theorem State.inv_iff {s : State} : s.Inv ↔ s.DataSound ∧ s.ErrOk ∧ s.InitOk ∧ s.BusyOk := by
  constructor
  · rintro ⟨hparams, htotal, hcounts, hroot, hshape, hvalid, hbook, hout, herr, hmem, hinit, hbusy⟩
    exact ⟨⟨hparams, htotal, hcounts, hroot, hshape, hvalid, hbook, hout, hmem⟩, herr, hinit, hbusy⟩
  · rintro ⟨⟨hparams, htotal, hcounts, hroot, hshape, hvalid, hbook, hout, hmem⟩, herr, hinit, hbusy⟩
    exact ⟨hparams, htotal, hcounts, hroot, hshape, hvalid, hbook, hout, herr, hmem, hinit, hbusy⟩

/-- However the body ends, it leaves sound data. -/
def BodyResult.Sound : BodyResult → Prop
  | .done u => u.DataSound
  | .raised _ u => u.DataSound
  | .stopped _ => True

theorem BodyResult.Sound.andThen {r : BodyResult} {f : State → BodyResult} (hr : r.Sound)
    (hf : ∀ u, u.DataSound → (f u).Sound) : (r.andThen f).Sound := by
  cases r with
  | done u => exact hf u hr
  | raised e u => exact hr
  | stopped g => trivial

/-! ## The book (43_codebook) -/

/-- No entry of the book is longer than MAX_CODE_LEN: `State.BookOk` over the book alone, by symbol. -/
def BookFits (cfg : Params) (cb : Vector CbEntry 256) : Prop :=
  ∀ x : Byte, (cb[x.toNat]'x.isLt).len.toNat ≤ cfg.maxCodeLen

theorem State.bookOk_iff {s : State} : s.BookOk ↔ BookFits s.cfg s.cb := by
  constructor
  · intro h x
    exact h ⟨x.toNat, x.isLt⟩
  · intro h x
    have := h (BitVec.ofNat 8 x.val)
    simpa only [BitVec.toNat_ofNat, Nat.mod_eq_of_lt x.isLt] using this

theorem bookFits_emptyBook (cfg : Params) : BookFits cfg emptyBook := by
  intro x
  simp [emptyBook, CbEntry.zero]

theorem BookFits.set {cfg : Params} {cb : Vector CbEntry 256} (h : BookFits cfg cb) {x : Byte} {e : CbEntry}
    (he : e.len.toNat ≤ cfg.maxCodeLen) : BookFits cfg (setCb cb x e) := by
  intro y
  rw [getElem_setCb]
  split
  · exact he
  · exact h y

/-- Codes no longer than MAX_CODE_LEN make a book that fits. -/
theorem BookFits.write {cfg : Params} : ∀ (ls : List (Byte × List Bool)) (cb : Vector CbEntry 256),
    BookFits cfg cb → (∀ l ∈ ls, l.2.length ≤ cfg.maxCodeLen) → BookFits cfg (writeCodes ls cb)
  | [], _, h, _ => h
  | l :: ls, cb, h, hls => by
    have hlen : (CbEntry.ofSeq l.2).len.toNat ≤ cfg.maxCodeLen := by
      simp only [CbEntry.ofSeq, BitVec.toNat_ofNat]
      exact Nat.le_trans (Nat.mod_le _ _) (hls l List.mem_cons_self)
    exact BookFits.write ls _ (h.set hlen) fun m hm => hls m (List.mem_cons_of_mem _ hm)

theorem lowestSymbol_eq_none {ls : List (Byte × List Bool)} : lowestSymbol ls = none ↔ ls = [] := by
  cases ls with
  | nil => simp [lowestSymbol]
  | cons l ls =>
    simp only [lowestSymbol, List.cons_ne_nil, iff_false]
    split
    · simp
    · split <;> simp

theorem overLong_eq_nil {max : Nat} {ls : List (Byte × List Bool)} :
    overLong max ls = [] ↔ ∀ l ∈ ls, l.2.length ≤ max := by
  simp [overLong]

/-! ## The counts (41_frequency) -/

@[simp] theorem freqSum_replicate_zero : freqSum (Vector.replicate 256 0) = 0 := by
  simp only [freqSum, Vector.toList_replicate, List.map_replicate, List.sum_replicate]
  rfl

/-- Setting one count moves the sum by the difference. -/
theorem freqSum_setFreq (freq : Vector Word 256) (x : Byte) (c : Word) :
    freqSum (setFreq freq x c) + (freq[x.toNat]'x.isLt).toNat = freqSum freq + c.toNat := by
  have hlen : x.toNat < (freq.toList.map BitVec.toNat).length := by simpa using x.isLt
  have hset := List.sum_set (freq.toList.map BitVec.toNat) x.toNat c.toNat
  have hsame := List.sum_set (freq.toList.map BitVec.toNat) x.toNat (freq.toList.map BitVec.toNat)[x.toNat]
  rw [List.set_getElem_self] at hsame
  simp only [hlen, if_true, List.getElem_map, Vector.getElem_toList] at hset hsame
  simp only [freqSum, setFreq, Vector.toList_set, List.map_set]
  omega

/-- No count is above the sum. -/
theorem freq_le_freqSum (freq : Vector Word 256) (x : Byte) : (freq[x.toNat]'x.isLt).toNat ≤ freqSum freq :=
  List.le_sum_of_mem (List.mem_map.2 ⟨_, by simp, rfl⟩)

/-- The counting loop keeps TOTAL the sum of the counts, however it ends. -/
theorem countLoop_total : ∀ (xs : List Byte) (i : Nat) (freq : Vector Word 256) (total : Word),
    total.toNat = freqSum freq →
    (countLoop xs i freq total).2.1.toNat = freqSum (countLoop xs i freq total).1
  | [], _, _, _, h => h
  | x :: xs, i, freq, total, h => by
    unfold countLoop
    split
    · exact h
    · rename_i hmax
      have hlt : total.toNat + 1 < 2 ^ 32 := by
        have := total.isLt
        have : total.toNat ≠ 0xFFFFFFFF := fun e => hmax (BitVec.eq_of_toNat_eq e)
        omega
      have hle := freq_le_freqSum freq x
      have hsum := freqSum_setFreq freq x (freq[x.toNat]'x.isLt + 1)
      have hcount : (freq[x.toNat]'x.isLt + 1).toNat = (freq[x.toNat]'x.isLt).toNat + 1 := by
        rw [BitVec.toNat_add]; exact Nat.mod_eq_of_lt (by simp; omega)
      have htotal : (total + 1).toNat = total.toNat + 1 := by
        rw [BitVec.toNat_add]; exact Nat.mod_eq_of_lt hlt
      exact countLoop_total xs (i + 1) _ _ (by omega)

/-! ## The buffers (20_memory) -/

/-- Buffer bytes written at buffer addresses keep the memory's form. -/
theorem State.MemOk.writeBytes {s : State} (h : s.MemOk) {a : Nat} {bs : List Byte}
    (hin : ∀ x, a ≤ x → x < a + bs.length → inBuffer s.cfg x) : (s.writeBytes a bs).MemOk := by
  obtain ⟨hwf, hcells⟩ := h
  refine ⟨Memory.writeBytes_keeps_wf bs s.mem a hwf, fun c hc => ?_⟩
  rcases Memory.mem_writeBytes bs s.mem a c hc with ⟨hle, hlt⟩ | hold
  · exact hin c.1 hle hlt
  · exact hcells c hold

/-- Flushing a stream of at most PAY_DEPTH·8 bits leaves sound data (44_bitpack R152). -/
theorem State.DataSound.writePay {s : State} (h : s.DataSound) {bits : List Bool} (hfit : bits.length ≤ s.payBitCap) :
    (s.writePay bits).DataSound := by
  have hbytes : byteCount bits.length ≤ s.cfg.payDepth := by
    unfold byteCount State.payBitCap at *; omega
  refine { h with mem := h.mem.writeBytes fun x hle hlt => .inr (.inr ⟨hle, ?_⟩) }
  rw [streamBytes_length] at hlt
  omega

/-- Writing at most OUT_DEPTH symbols leaves sound data. -/
theorem State.DataSound.writeOut {s : State} (h : s.DataSound) {bs : List Byte} (hfit : bs.length ≤ s.cfg.outDepth) :
    (s.writeOut bs).DataSound :=
  { h with mem := h.mem.writeBytes fun _ hle hlt => .inr (.inl ⟨hle, by omega⟩) }

/-- The bits packed never pass the payload buffer's size (44_bitpack R150). -/
theorem packLoop_length (cb : Vector CbEntry 256) (cap : Nat) : ∀ (xs : List Byte) (i pos : Nat), pos ≤ cap →
    pos + (packLoop cb cap xs i pos).1.length ≤ cap
  | [], _, _, h => h
  | x :: xs, i, pos, h => by
    simp only [packLoop]
    split
    · exact h
    · split
      · exact h
      · have := packLoop_length cb cap xs (i + 1) (pos + (cb[x.toNat]'x.isLt).len.toNat) (by omega)
        simp only [List.length_append, CbEntry.codeSeq, seq_length]
        omega

/-- The symbols unpacked never pass OUT_DEPTH (44_bitpack R155). -/
theorem unpackLoop_length (cb : Vector CbEntry 256) (cap : Nat) : ∀ (bits : List Bool) (pos start : Nat)
    (cand : List Bool) (k : Nat), k ≤ cap → k + (unpackLoop cb cap bits pos start cand k).1.length ≤ cap
  | [], pos, start, cand, k, h => by
    simp only [unpackLoop]
    split <;> exact h
  | b :: bs, pos, start, cand, k, h => by
    simp only [unpackLoop]
    split
    · exact unpackLoop_length cb cap bs _ _ _ k h
    · split
      · exact h
      · have := unpackLoop_length cb cap bs (pos + 1) (pos + 1) [] (k + 1) (by omega)
        simp only [List.length_cons]
        omega

/-! ## The empty block -/

/-- Legal parameters, well-formed buffers, no counts, no tree, no codes and no output are sound. -/
theorem dataSound_of_empty {s : State} (hparams : s.cfg.Ok) (hmem : s.MemOk) (htotal : s.total = 0)
    (hfreq : s.freq = Vector.replicate 256 0) (hnsym : s.nsym = 0) (hnnodes : s.nnodes = 0)
    (hvalid : s.rootValid = false) (hindex : s.rootIndex = 0) (hcb : s.cb = emptyBook) (hout : s.outLen = 0) :
    s.DataSound where
  params := hparams
  total := by rw [State.TotalOk, htotal, hfreq, freqSum_replicate_zero]; rfl
  counts := by rw [State.CountsOk, hnsym, hnnodes]; decide
  root := by rw [State.RootOk, hvalid, hnsym, hindex, hnnodes]; decide
  shape i hi := by rw [hnnodes] at hi; exact absurd hi (Nat.not_lt_zero _)
  valid _ := hnsym
  book := by rw [State.bookOk_iff, hcb]; exact bookFits_emptyBook _
  out := by rw [State.OutOk, hout]; exact Nat.zero_le _
  mem := hmem

/-! ## The tree builder (42_tree_builder) -/

/-- What `State.TreeOk` asks of NODE[i] in a table with `n` leaves (10_state R47, 42_tree_builder R127 item 1). -/
def NodeOk (nodes : Vector Node 511) (n : Nat) (i : BitVec 9) : Prop :=
  ((nodeAt nodes i).isLeaf = true ↔ i.toNat < n) ∧
    ((nodeAt nodes i).isLeaf = false →
      (nodeAt nodes i).left.toNat < i.toNat ∧ (nodeAt nodes i).right.toNat < i.toNat ∧
      (nodeAt nodes i).count =
        (nodeAt nodes (nodeAt nodes i).left).count + (nodeAt nodes (nodeAt nodes i).right).count)

theorem State.treeOk_iff {s : State} :
    s.TreeOk ↔ ∀ i : BitVec 9, i.toNat < 511 → i.toNat < s.nnodes.toNat → NodeOk s.nodes s.nsym.toNat i := by
  constructor
  · intro h i hi hlt
    simpa only [NodeOk, nodeAt_eq s.nodes i hi] using h ⟨i.toNat, hi⟩ hlt
  · intro h i hlt
    have hi : (BitVec.ofNat 9 i.val).toNat = i.val := by rw [BitVec.toNat_ofNat]; omega
    have hnode : nodeAt s.nodes (BitVec.ofNat 9 i.val) = s.nodes[i.val] := by
      rw [nodeAt_eq _ _ (by omega)]
      simp only [hi]
    simpa only [NodeOk, hnode, hi] using h (BitVec.ofNat 9 i.val) (by omega) (by omega)

theorem nodeOk_of_isLeaf {nodes : Vector Node 511} {n : Nat} {i : BitVec 9} (hleaf : (nodeAt nodes i).isLeaf = true)
    (hlt : i.toNat < n) : NodeOk nodes n i :=
  ⟨iff_of_true hleaf hlt, fun hinner => absurd (hleaf.symm.trans hinner) (by decide)⟩

theorem nodeAt_setNode_before {nodes : Vector Node 511} {k : Nat} {nd : Node} {i : BitVec 9} (hk : k < 511)
    (hi : i.toNat < k) : nodeAt (setNode nodes k nd) i = nodeAt nodes i := by
  rw [nodeAt_setNode _ _ _ _ (by omega), if_neg (by omega)]

theorem nodeAt_setNode_self {nodes : Vector Node 511} {nd : Node} {i : BitVec 9} (hi : i.toNat < 511) :
    nodeAt (setNode nodes i.toNat nd) i = nd := by
  rw [nodeAt_setNode _ _ _ _ hi, if_pos rfl]

/-- A node keeps its shape when an entry behind it is written: its children stand before it. -/
theorem nodeOk_setNode {nodes : Vector Node 511} {n k : Nat} {i : BitVec 9} {nd : Node} (h : NodeOk nodes n i)
    (hk : k < 511) (hi : i.toNat < k) : NodeOk (setNode nodes k nd) n i := by
  obtain ⟨hleaf, hinner⟩ := h
  rw [NodeOk, nodeAt_setNode_before hk hi]
  refine ⟨hleaf, fun hf => ?_⟩
  obtain ⟨hleft, hright, hcount⟩ := hinner hf
  rw [nodeAt_setNode_before hk (by omega), nodeAt_setNode_before hk (by omega)]
  exact ⟨hleft, hright, hcount⟩

/-- The node over two earlier ones has the shape of an internal node (42_tree_builder R122). -/
theorem nodeOk_mergedNode {nodes : Vector Node 511} {n : Nat} {a c i : BitVec 9} (hi : i.toNat < 511)
    (hleaves : n ≤ i.toNat) (ha : a.toNat < i.toNat) (hc : c.toNat < i.toNat) :
    NodeOk (setNode nodes i.toNat (mergedNode nodes a c)) n i := by
  rw [NodeOk, nodeAt_setNode_self hi]
  refine ⟨iff_of_false (by simp [mergedNode]) (Nat.not_lt.2 hleaves), fun _ => ⟨ha, hc, ?_⟩⟩
  show (nodeAt nodes a).count + (nodeAt nodes c).count =
    (nodeAt (setNode nodes i.toNat _) a).count + (nodeAt (setNode nodes i.toNat _) c).count
  rw [nodeAt_setNode_before hi ha, nodeAt_setNode_before hi hc]

/-- The builder with `n` leaves loaded: every node created so far has its shape, the queue holds created nodes, and each
merge has made one node and shortened the queue by one. -/
structure Builder.Sound (n : Nat) (b : Builder) : Prop where
  shape : ∀ i : BitVec 9, i.toNat < b.next → NodeOk b.nodes n i
  queued : ∀ i ∈ b.queue, i.toNat < b.next
  sizes : b.next + b.queue.length = 2 * n
  leaves : n ≤ b.next
  symbols : n ≤ 256
  room : b.next ≤ 511

/-- The node written by a push, and the nodes before it. -/
theorem Builder.shape_push {n : Nat} {b : Builder} {nd : Node} (hroom : b.next < 511)
    (hold : ∀ i : BitVec 9, i.toNat < b.next → NodeOk b.nodes n i)
    (hnew : ∀ i : BitVec 9, i.toNat = b.next → NodeOk (setNode b.nodes b.next nd) n i) :
    ∀ i : BitVec 9, i.toNat < (b.push nd).next → NodeOk (b.push nd).nodes n i := by
  intro i hi
  rcases Nat.lt_succ_iff_lt_or_eq.1 hi with hlt | heq
  · exact nodeOk_setNode (hold i hlt) hroom hlt
  · exact hnew i heq

/-- The queue after a push. -/
theorem Builder.queued_push {b : Builder} {nd : Node} (h : ∀ i ∈ b.queue, i.toNat < b.next) :
    ∀ i ∈ (b.push nd).queue, i.toNat < (b.push nd).next := by
  intro i hi
  show i.toNat < b.next + 1
  rcases List.mem_append.1 hi with hq | hnew
  · exact Nat.lt_succ_of_lt (h i hq)
  · rw [List.mem_singleton.1 hnew, BitVec.toNat_ofNat]
    exact Nat.lt_succ_of_le (Nat.mod_le _ _)

/-- A leaf pushed while only leaves are there is one leaf more. -/
theorem Builder.Sound.pushLeaf {b : Builder} (h : b.Sound b.next) (hroom : b.next < 256) (x : Byte) (c : Word) :
    (b.push (leafNode x c)).Sound (b.next + 1) where
  shape := Builder.shape_push (by omega)
    (fun i hi => nodeOk_of_isLeaf ((h.shape i hi).1.2 hi) (Nat.lt_succ_of_lt hi))
    (fun i hi => nodeOk_of_isLeaf (by rw [← hi, nodeAt_setNode_self (by omega)]; rfl) (by omega))
  queued := Builder.queued_push h.queued
  sizes := by
    have := h.sizes
    simp only [Builder.push, List.length_append, List.length_singleton]
    omega
  leaves := Nat.le_refl _
  symbols := hroom
  room := by show b.next + 1 ≤ 511; omega

/-- The leaf load makes leaves only. -/
theorem leafLoad_sound : ∀ (cs : List Word) (x : Nat) (b : Builder), b.Sound b.next →
    b.next + cs.length ≤ 256 → (leafLoad cs x b).Sound (leafLoad cs x b).next
  | [], _, _, h, _ => h
  | c :: cs, x, b, h, hroom => by
    rw [List.length_cons] at hroom
    rw [leafLoad]
    split
    · exact leafLoad_sound cs (x + 1) _ (h.pushLeaf (by omega) _ _) (by show b.next + 1 + _ ≤ _; omega)
    · exact leafLoad_sound cs (x + 1) b h (by omega)

theorem loadedLeaves_sound (s : State) : (loadedLeaves s).Sound (loadedLeaves s).next :=
  leafLoad_sound _ _ _
    ⟨fun _ hi => absurd hi (Nat.not_lt_zero _), fun _ hi => absurd hi List.not_mem_nil, rfl, Nat.le_refl _,
      Nat.zero_le _, Nat.zero_le _⟩ (by simp)

/-- A merge step takes two nodes off the queue and pushes the node over them (42_tree_builder R122). -/
theorem mergeStep_eq_some {b b' : Builder} (h : mergeStep b = some b') :
    ∃ a c q, b.queue.Perm (a :: c :: q) ∧ b' = ({ b with queue := q } : Builder).push (mergedNode b.nodes a c) := by
  unfold mergeStep at h
  split at h
  · cases h
  · rename_i a q hfirst
    split at h
    · cases h
    · rename_i c q' hsecond
      cases h
      exact ⟨a, c, q', (popFirst_perm hfirst).trans ((popFirst_perm hsecond).cons a), rfl⟩

/-- A merge step fails only on a queue of fewer than two nodes. -/
theorem mergeStep_eq_none {b : Builder} (h : mergeStep b = none) : b.queue.length ≤ 1 := by
  unfold mergeStep at h
  split at h
  · rename_i hfirst
    simp [popFirst_eq_none.1 hfirst]
  · rename_i a q hfirst
    split at h
    · rename_i hsecond
      have := (popFirst_perm hfirst).length_eq
      rw [popFirst_eq_none.1 hsecond] at this
      exact Nat.le_of_eq this
    · cases h

/-- A merge step keeps the builder sound and shortens the queue by one. -/
theorem mergeStep_sound {n : Nat} {b b' : Builder} (h : b.Sound n) (hstep : mergeStep b = some b') :
    b'.Sound n ∧ b'.queue ≠ [] ∧ b'.queue.length + 1 = b.queue.length := by
  obtain ⟨a, c, q, hperm, rfl⟩ := mergeStep_eq_some hstep
  have hqueued : ∀ i ∈ a :: c :: q, i.toNat < b.next := fun i hi => h.queued i (hperm.mem_iff.2 hi)
  obtain ⟨ha, hc, hq⟩ : a.toNat < b.next ∧ c.toNat < b.next ∧ ∀ i ∈ q, i.toNat < b.next := by
    simpa only [List.forall_mem_cons] using hqueued
  have hlen := hperm.length_eq
  simp only [List.length_cons] at hlen
  obtain ⟨hshape, -, hsizes, hleaves, hsymbols, -⟩ := h
  have hroom : b.next < 511 := by omega
  have hnew : ∀ i : BitVec 9, i.toNat = b.next → NodeOk (setNode b.nodes b.next (mergedNode b.nodes a c)) n i :=
    fun i hi => hi ▸ nodeOk_mergedNode (by omega) (by omega) (by omega) (by omega)
  have hpushed : (q ++ [BitVec.ofNat 9 b.next]).length = q.length + 1 := List.length_append
  refine ⟨⟨Builder.shape_push hroom hshape hnew, Builder.queued_push hq, ?_, Nat.le_succ_of_le hleaves, hsymbols,
    hroom⟩, List.append_ne_nil_of_right_ne_nil _ (List.cons_ne_nil _ _), ?_⟩
  · show b.next + 1 + (q ++ [BitVec.ofNat 9 b.next]).length = 2 * n
    omega
  · show (q ++ [BitVec.ofNat 9 b.next]).length + 1 = b.queue.length
    omega

/-- The merge loop ends with one node in the queue, the root (42_tree_builder R126). -/
theorem mergeLoop_sound {n : Nat} : ∀ (fuel : Nat) (b : Builder), b.Sound n → b.queue ≠ [] →
    b.queue.length ≤ fuel + 1 → (mergeLoop fuel b).Sound n ∧ (mergeLoop fuel b).queue.length = 1
  | 0, b, h, hne, hfuel => ⟨h, by have := List.length_pos_iff.2 hne; show b.queue.length = 1; omega⟩
  | fuel + 1, b, h, hne, hfuel => by
    have hpos := List.length_pos_iff.2 hne
    rw [mergeLoop]
    split
    · rename_i hnone
      exact ⟨h, Nat.le_antisymm (mergeStep_eq_none hnone) hpos⟩
    · rename_i b' hsome
      obtain ⟨hsound, hne', hlen⟩ := mergeStep_sound h hsome
      exact mergeLoop_sound fuel b' hsound hne' (by omega)

/-- With one node left in the queue, the finished tree in the registers is sound (42_tree_builder R126). -/
theorem Builder.Sound.dataSound {n : Nat} {b : Builder} {s : State} (h : b.Sound n) (hone : b.queue.length = 1)
    (hs : s.DataSound) :
    ({ s with
      nodes := b.nodes, nsym := BitVec.ofNat 9 n, nnodes := BitVec.ofNat 10 b.next, rootValid := true,
      rootIndex := BitVec.ofNat 9 (b.next - 1), treeValid := true } : State).DataSound := by
  obtain ⟨hshape, -, hsizes, hleaves, hsymbols, hroom⟩ := h
  have hnsym : (BitVec.ofNat 9 n).toNat = n := by rw [BitVec.toNat_ofNat]; omega
  have hnnodes : (BitVec.ofNat 10 b.next).toNat = b.next := by rw [BitVec.toNat_ofNat]; omega
  have hindex : (BitVec.ofNat 9 (b.next - 1)).toNat = b.next - 1 := by rw [BitVec.toNat_ofNat]; omega
  refine { hs with counts := ?_, root := ?_, shape := ?_, valid := ?_ }
  · simp only [State.CountsOk, hnsym, hnnodes]
    rw [if_neg (by omega)]
    omega
  · simp only [State.RootOk, hnsym, hnnodes, hindex, true_iff, and_true]
    omega
  · rw [State.treeOk_iff]
    intro i _ hi
    rw [hnsym]
    exact hshape i (by rwa [hnnodes] at hi)
  · intro hfalse
    cases hfalse

/-! ## The bodies -/

theorem clearBody_sound {s : State} (h : s.DataSound) : (clearBody s).Sound :=
  dataSound_of_empty h.params h.mem rfl rfl rfl rfl rfl rfl rfl rfl

theorem freqCountBody_sound {s : State} (h : s.DataSound) : (freqCountBody s).Sound := by
  have hcount : ({ (s.inSymbols s.inLen.toNat).2 with
      freq := (countLoop (s.inSymbols s.inLen.toNat).1 0 s.freq s.total).1
      total := (countLoop (s.inSymbols s.inLen.toNat).1 0 s.freq s.total).2.1 } : State).DataSound :=
    { h with total := countLoop_total _ _ _ _ h.total }
  unfold freqCountBody
  split
  · exact h
  · simp only
    split <;> exact hcount

theorem genCodesBody_sound {s : State} (h : s.DataSound) : (genCodesBody s).Sound := by
  have hempty : BookFits s.cfg emptyBook := bookFits_emptyBook _
  unfold genCodesBody
  split
  · exact h
  split
  · exact { h with book := State.bookOk_iff.2 hempty }
  split
  · obtain ⟨-, -, -, hmax, -⟩ := h.params
    exact { h with book := State.bookOk_iff.2 (hempty.set hmax) }
  split
  · trivial
  split
  · exact { h with book := State.bookOk_iff.2 hempty }
  · rename_i ls _ _ hnone
    have hlen : ∀ l ∈ ls, l.2.length ≤ s.cfg.maxCodeLen := overLong_eq_nil.1 (lowestSymbol_eq_none.1 hnone)
    exact { h with book := State.bookOk_iff.2 (hempty.write ls _ hlen) }

theorem packBody_sound {s : State} (h : s.DataSound) : (packBody s).Sound := by
  unfold packBody
  split
  · exact { h with }
  · have hread : (s.inSymbols s.inLen.toNat).2.DataSound := { h with }
    have hfit := packLoop_length s.cb s.payBitCap (s.inSymbols s.inLen.toNat).1 0 0 (Nat.zero_le _)
    rw [Nat.zero_add] at hfit
    have hpay := hread.writePay hfit
    simp only
    split <;> exact { hpay with }

theorem unpackBody_sound {s : State} (h : s.DataSound) : (unpackBody s).Sound := by
  unfold unpackBody
  split
  · exact { h with out := Nat.zero_le _ }
  · have hread : (s.payBits s.bitLen.toNat).2.DataSound := { h with }
    have hfit := unpackLoop_length s.cb s.cfg.outDepth (s.payBits s.bitLen.toNat).1 0 0 [] 0 (Nat.zero_le _)
    rw [Nat.zero_add] at hfit
    have hout := hread.writeOut hfit
    simp only
    split
    · refine { hout with out := ?_ }
      exact Nat.le_trans (by simpa using Nat.mod_le _ _) hfit
    · exact { hout with out := Nat.zero_le _ }

theorem buildTreeBody_sound {s : State} (h : s.DataSound) : (buildTreeBody s).Sound := by
  have hload := loadedLeaves_sound s
  have hlen : (loadedLeaves s).queue.length = (loadedLeaves s).next := by have := hload.sizes; omega
  unfold buildTreeBody
  simp only
  split
  · refine { h with counts := ?_, root := ?_, shape := ?_, valid := ?_ }
    · simp only [State.CountsOk]
      decide
    · simp only [State.RootOk]
      decide
    · intro i hi
      exact absurd hi (Nat.not_lt_zero _)
    · intro hfalse
      cases hfalse
  split
  · rename_i hone
    have hsound := hload.dataSound (hlen.trans hone) h
    rwa [hone] at hsound
  · rename_i hzero _
    obtain ⟨hbuilt, hroot⟩ := mergeLoop_sound (loadedLeaves s).queue.length _ hload
      (List.ne_nil_of_length_pos (by omega)) (Nat.le_succ _)
    exact hbuilt.dataSound hroot h

/-! ## Every command -/

theorem encodeGenCodes_sound {s : State} (h : s.DataSound) : (encodeGenCodes s).Sound := by
  have hgen := genCodesBody_sound h
  unfold encodeGenCodes
  cases hbody : genCodesBody s with
  | done u => rwa [hbody] at hgen
  | raised e u =>
    have hu : u.DataSound := by rwa [hbody] at hgen
    exact { hu with }
  | stopped f => trivial

theorem encodeBody_sound {s : State} (h : s.DataSound) : (encodeBody s).Sound := by
  unfold encodeBody
  split
  · exact { h with }
  · have hzero : ({ s with freq := Vector.replicate 256 0, total := 0 } : State).DataSound :=
      { h with total := freqSum_replicate_zero.symm }
    exact (((freqCountBody_sound hzero).andThen fun _ => buildTreeBody_sound).andThen fun _ =>
      encodeGenCodes_sound).andThen fun _ => packBody_sound

theorem bodyOf_sound (i : Instr) {s : State} (h : s.DataSound) : (bodyOf i s).Sound := by
  cases i with
  | nop => exact h
  | clear => exact clearBody_sound h
  | freqCount => exact freqCountBody_sound h
  | buildTree => exact buildTreeBody_sound h
  | genCodes => exact genCodesBody_sound h
  | pack => exact packBody_sound h
  | unpack => exact unpackBody_sound h
  | encode => exact encodeBody_sound h
  | illegalOp _ => exact h
  | illegalRes _ _ => exact h

/-- An idle engine leaves only the data and the report to check. -/
theorem State.DataSound.inv_of_idle {s : State} (h : s.DataSound) (hidle : s.engine = .idle) (herr : s.ErrOk) :
    s.Inv :=
  State.inv_iff.2 ⟨h, herr, fun hinit => by simp [hidle] at hinit,
    fun hbusy => by simp [hidle, Engine.running] at hbusy⟩

theorem ErrCode.bits_bounds (c : ErrCode) : c.bits ≠ 0 ∧ c.bits.toNat ≤ 10 := by
  cases c <;> decide

/-- A command that completes, from sound data, meets the whole invariant (40_control R101). -/
theorem exec_keeps_inv {i : Instr} {s t : State} (h : s.DataSound) (hexec : exec i s = .next t) : t.Inv := by
  have haccept : (s.accept (encode i)).DataSound := { h with }
  have hsound := bodyOf_sound i haccept
  cases hbody : bodyOf i (s.accept (encode i)) with
  | done u =>
    have hu : u.DataSound := by rwa [hbody] at hsound
    have ht := (exec_done hbody).symm.trans hexec
    cases ht
    exact State.DataSound.inv_of_idle { hu with } rfl ⟨by simp [State.endedOk], Nat.zero_le _⟩
  | raised e u =>
    have hu : u.DataSound := by rwa [hbody] at hsound
    have ht := (exec_raised hbody).symm.trans hexec
    cases ht
    obtain ⟨hne, hle⟩ := e.code.bits_bounds
    exact State.DataSound.inv_of_idle { hu with } rfl ⟨iff_of_true rfl hne, hle⟩
  | stopped f =>
    rw [exec_eq, hbody] at hexec
    cases hexec

/-! ## The host port -/

theorem State.DataSound.accept_inv {s : State} (h : s.DataSound) (w : Word) : (s.accept w).Inv :=
  State.inv_iff.2 ⟨{ h with }, ⟨by simp, Nat.zero_le _⟩, fun hinit => by simp at hinit,
    fun _ => ⟨rfl, rfl, rfl, rfl, rfl⟩⟩

/-- A FREQ_DATA write that is not refused keeps TOTAL the sum (41_frequency R111). -/
theorem writeFreq_keeps_inv {s t : State} {x : Byte} {d : Word} (h : s.Inv) (hidle : s.engine = .idle)
    (hw : writeFreq s x d = some t) : t.Inv := by
  obtain ⟨hdata, herr, -, -⟩ := State.inv_iff.1 h
  have hset : freqSum (setFreq s.freq x d) + (s.freqAt x).toNat = freqSum s.freq + d.toNat := freqSum_setFreq s.freq x d
  have hle : (s.freqAt x).toNat ≤ freqSum s.freq := freq_le_freqSum s.freq x
  have htotal : s.total.toNat = freqSum s.freq := hdata.total
  simp only [writeFreq] at hw
  split at hw
  · cases hw
  · rename_i hfits
    cases hw
    refine State.DataSound.inv_of_idle { hdata with total := ?_ } hidle herr
    simp only [State.TotalOk, BitVec.toNat_ofInt]
    omega

/-- A CB_LEN write that is not refused keeps the book's lengths (10_state R43). -/
theorem writeCbLen_keeps_inv {s t : State} {x : Byte} {d : Word} (h : s.Inv) (hidle : s.engine = .idle)
    (hw : writeCbLen s x d = some t) : t.Inv := by
  obtain ⟨hdata, herr, -, -⟩ := State.inv_iff.1 h
  simp only [writeCbLen] at hw
  split at hw
  · cases hw
  · rename_i hfits
    cases hw
    have hbook := (State.bookOk_iff.1 hdata.book).set (x := x) (e := { s.cbAt x with len := d.extractLsb' 0 8 })
      (Nat.le_of_not_lt hfits)
    exact State.DataSound.inv_of_idle { hdata with book := State.bookOk_iff.2 hbook } hidle herr

/-- A CB_CODEk write leaves every LEN as it was (10_state R44). -/
theorem writeCbCode_keeps_inv {s : State} (h : s.Inv) (hidle : s.engine = .idle) (x : Byte) (k : Fin 8) (d : Word) :
    (writeCbCode s x k d).Inv := by
  obtain ⟨hdata, herr, -, -⟩ := State.inv_iff.1 h
  have hbook := State.bookOk_iff.1 hdata.book
  exact State.DataSound.inv_of_idle { hdata with book := State.bookOk_iff.2 (hbook.set (hbook x)) } hidle herr

/-- A register write that is not refused, while idle. -/
theorem writeReg_keeps_inv_of_idle {s t : State} {d : Word} {r : Reg} (h : s.Inv) (hidle : s.engine = .idle)
    (hw : writeReg s d r = some t) : t.Inv := by
  obtain ⟨hdata, herr, -, -⟩ := State.inv_iff.1 h
  cases r with
  | irqEn | irqStatus | inLen | bitLen | sel => cases hw; exact State.DataSound.inv_of_idle { hdata with } hidle herr
  | freqData => exact writeFreq_keeps_inv h hidle hw
  | cbLen => exact writeCbLen_keeps_inv h hidle hw
  | cbCode k => cases hw; exact writeCbCode_keeps_inv h hidle _ k d
  | _ => cases hw

/-- A register write that is not refused keeps the invariant; the busy-exempt registers are no part of it. -/
theorem writeReg_keeps_inv {s t : State} {d : Word} {r : Reg} (h : s.Inv)
    (hok : s.engine = .idle ∨ r.busyExempt = true) (hw : writeReg s d r = some t) : t.Inv := by
  rcases hok with hidle | hexempt
  · exact writeReg_keeps_inv_of_idle h hidle hw
  · cases r with
    | irqEn | irqStatus => cases hw; exact h
    | id | version | status | cfgInDepth | cfgOutDepth | cfgPayDepth | cfgMaxCodeLen => cases hw
    | _ => cases hexempt

/-- The four bytes at an aligned buffer address lie in the same buffer: the depths are multiples of 4 (00_scope R5). -/
theorem inBuffer_word {p : Params} (hp : p.Ok) {a : Nat} (halign : a % 4 = 0) (h : inBuffer p a) :
    ∀ x, a ≤ x → x < a + 4 → inBuffer p x := by
  obtain ⟨⟨hin, -⟩, ⟨hout, -⟩, ⟨hpay, -⟩, -⟩ := hp
  simp only [inBuffer, Config.inBase, Config.outBase, Config.payBase] at h ⊢
  omega

/-- The buffer a window address reaches is the one it lies in. -/
theorem targetOf_buffer {p : Params} {addr : BitVec 18} {a : Nat} (h : targetOf p addr = .buffer a) :
    a = addr.toNat ∧ inBuffer p a := by
  simp only [targetOf] at h
  split at h
  · split at h <;> cases h
  · split at h
    · cases h; exact ⟨rfl, ‹_›⟩
    · cases h

theorem writeCtrl_keeps_inv {s : State} (h : s.Inv) (w : Word) : (writeCtrl s w).2.Inv := by
  unfold writeCtrl
  split
  · exact (State.inv_iff.1 h).1.accept_inv w
  · exact h

/-- A misaligned write does nothing (20_memory R61). -/
theorem hostWrite_misaligned {s : State} {a : BitVec 18} (h : a.toNat % 4 ≠ 0) (strb : BitVec 4) (d : Word) :
    hostWrite s a strb d = (.slverr, s) := by
  rw [hostWrite, if_pos (.inl h)]

theorem hostWrite_keeps_inv {s : State} (h : s.Inv) (a : BitVec 18) (strb : BitVec 4) (d : Word) :
    (hostWrite s a strb d).2.Inv := by
  by_cases halign : a.toNat % 4 = 0
  · rcases hostWrite_cases s a strb d with hw | ⟨-, hw⟩ | ⟨r, t, -, hok, hreg, hw⟩ | ⟨b, htarget, hidle, hw⟩ <;> rw [hw]
    · exact h
    · exact writeCtrl_keeps_inv h d
    · exact writeReg_keeps_inv h hok hreg
    · obtain ⟨hdata, herr, -, -⟩ := State.inv_iff.1 h
      obtain ⟨rfl, hin⟩ := targetOf_buffer htarget
      have hmem := hdata.mem.writeBytes (bs := bytesOfWord d) (inBuffer_word hdata.params halign hin)
      exact State.DataSound.inv_of_idle { hdata with mem := hmem } hidle herr
  · rw [hostWrite_misaligned halign]
    exact h

theorem hostTxn_keeps_inv {s : State} (h : s.Inv) (x : Txn) : (hostTxn x s).Inv := by
  cases x with
  | read a =>
    obtain ⟨n, -, hread⟩ := hostRead_state s a
    simp only [hostTxn, hread]
    exact h
  | write a strb d => exact hostWrite_keeps_inv h a strb d

/-! ## Reset and the engine's move -/

/-- The reset values, with legal parameters, are sound (10_state R53). -/
theorem State.ResetValues.dataSound {s : State} (h : s.ResetValues) (hparams : s.cfg.Ok) : s.DataSound := by
  obtain ⟨-, -, -, -, -, -, hout, -, -, htotal, hnsym, hnnodes, hvalid, hindex, -, hfreq, hcb, hmem⟩ := h
  have hmemOk : s.MemOk := by
    rw [State.MemOk, hmem]
    exact ⟨List.Pairwise.nil, fun _ hc => absurd hc List.not_mem_nil⟩
  exact dataSound_of_empty hparams hmemOk htotal hfreq hnsym hnnodes hvalid hindex hcb hout

theorem resetBlock_resetValues (s : State) : (resetBlock s).ResetValues := by
  and_intros <;> rfl

/-- A reset leaves a sound state whatever it interrupts (70_reset_and_hazards R200). -/
theorem resetBlock_inv {s : State} (hparams : s.cfg.Ok) : (resetBlock s).Inv :=
  State.inv_iff.2 ⟨(resetBlock_resetValues s).dataSound hparams, ⟨by simp [resetBlock, State.reset], Nat.zero_le _⟩,
    fun _ => resetBlock_resetValues s, fun hbusy => by simp [resetBlock, State.reset, Engine.running] at hbusy⟩

/-- The end of INIT leaves the reset values, which INIT has kept (70_reset_and_hazards R201). -/
theorem endInit_resetValues {s : State} (h : s.ResetValues) : (endInit s).ResetValues := by
  obtain ⟨hlast, hcode, herr, hvalid, hin, hbit, hout, hpos, hsym, htotal, hnsym, hnnodes, hroot, hindex, hsel, -, -,
    hmem⟩ := h
  exact ⟨hlast, hcode, herr, hvalid, hin, hbit, hout, hpos, hsym, htotal, hnsym, hnnodes, hroot, hindex, hsel, rfl, rfl,
    hmem⟩

theorem stepEngine_keeps_inv {s t : State} (h : s.Inv) (hstep : stepEngine s = .next t) : t.Inv := by
  obtain ⟨hdata, herr, hinit, -⟩ := State.inv_iff.1 h
  rcases stepEngine_cases hstep with ⟨hengine, rfl⟩ | ⟨-, rfl⟩ | ⟨w, -, hexec⟩
  · exact ((endInit_resetValues (hinit hengine)).dataSound hdata.params).inv_of_idle rfl herr
  · exact h
  · exact exec_keeps_inv hdata hexec

/-- Settles O58: by the cases of a step; a command's body keeps the data and completion makes the report
(`exec_keeps_inv`), a host transaction keeps the whole (`hostTxn_keeps_inv`). -/
theorem stepKeepsInvariant : Obligations.StepKeepsInvariant := by
  unfold Obligations.StepKeepsInvariant
  intro s t h hstep
  have hnext : ∀ es, ({ s with events := es } : State).Inv := fun _ => h
  rcases step_cases hstep with ⟨-, hengine⟩ | ⟨es, -, hengine⟩ | ⟨x, es, -, -, hengine⟩ | ⟨x, es, -, -, rfl⟩ |
    ⟨es, -, rfl⟩
  · exact stepEngine_keeps_inv h hengine
  · exact stepEngine_keeps_inv (hnext es) hengine
  · exact stepEngine_keeps_inv h hengine
  · exact hostTxn_keeps_inv (hnext es) x
  · exact resetBlock_inv (State.inv_iff.1 h).1.params

/-- Settles O57: the reset state is what a reset leaves of it. -/
theorem resetIsSound : Obligations.ResetIsSound :=
  resetBlock_inv (s := State.reset) (by decide)

end Sys2Proof.Machine

/-! Proofs: the registers on the host port, read and written at their offsets (10_state R23 to R45), and reset. -/

namespace Sys2Proof.Machine

/-! ## The port at a register's offset -/

theorem Reg.offset_aligned (r : Reg) : r.offset.toNat % 4 = 0 := by
  cases r with
  | cbCode k => fin_cases k <;> rfl
  | _ => rfl

theorem targetOf_offset (p : Params) (r : Reg) : targetOf p r.offset = .reg r := by
  cases r with
  | cbCode k => fin_cases k <;> rfl
  | _ => rfl

/-- Reading a register that the host may use answers OKAY with its value (10_state R23). -/
theorem hostRead_offset {s : State} {r : Reg} (h : s.engine = .idle ∨ r.busyExempt = true) :
    hostRead s r.offset = (readReg s r, .okay, s) := by
  simp only [hostRead, r.offset_aligned, targetOf_offset, ne_eq, not_true, if_false, if_pos h]

/-- A write that a register takes. -/
theorem hostWrite_offset {s t : State} {r : Reg} {d : Word} (h : s.engine = .idle ∨ r.busyExempt = true)
    (hw : writeReg s d r = some t) : hostWrite s r.offset 0xF d = (.okay, t) := by
  cases r with
  | ctrl => cases hw
  | _ =>
    simp only [hostWrite, targetOf_offset, Reg.offset_aligned, ne_eq, not_true, or_self, if_false, if_pos h, hw]

/-- A write that a register other than CTRL refuses. -/
theorem hostWrite_offset_refused {s : State} {r : Reg} {d : Word} (hr : r ≠ .ctrl) (hw : writeReg s d r = none) :
    hostWrite s r.offset 0xF d = (.slverr, s) := by
  cases r with
  | ctrl => exact absurd rfl hr
  | _ =>
    simp only [hostWrite, targetOf_offset, Reg.offset_aligned, ne_eq, not_true, or_self, hw, ite_self]

/-- Settles O51: each literal address is a register's offset, and `hostRead_offset` reads there. -/
theorem registerReads : Obligations.RegisterReads := by
  unfold Obligations.RegisterReads
  refine ⟨fun s => ?_, fun s hidle => ?_⟩
  · have hread : ∀ r : Reg, r.busyExempt = true → hostRead s r.offset = (readReg s r, .okay, s) := fun _ h =>
      hostRead_offset (.inr h)
    exact ⟨hread .id rfl, hread .version rfl, hread .irqEn rfl, hread .irqStatus rfl, hread .cfgInDepth rfl,
      hread .cfgOutDepth rfl, hread .cfgPayDepth rfl, hread .cfgMaxCodeLen rfl⟩
  · have hread : ∀ r : Reg, hostRead s r.offset = (readReg s r, .okay, s) := fun _ => hostRead_offset (.inl hidle)
    exact ⟨hread .ctrl, hread .inLen, hread .bitLen, hread .outLen, hread .errPos, hread .errSym, hread .total,
      hread .nsym, hread .nnodes, hread .sel, hread .freqData, hread .nodeCount, hread .cbLen⟩

/-- Settles O53: each literal address is a register's offset, and `hostWrite_offset` writes there. -/
theorem registerWrites : Obligations.RegisterWrites := by
  unfold Obligations.RegisterWrites
  intro s d
  refine ⟨hostWrite_offset (r := .irqEn) (.inr rfl) rfl, hostWrite_offset (r := .irqStatus) (.inr rfl) rfl,
    fun hidle => ⟨hostWrite_offset (r := .inLen) (.inl hidle) rfl, hostWrite_offset (r := .bitLen) (.inl hidle) rfl,
      hostWrite_offset (r := .sel) (.inl hidle) rfl⟩⟩

/-! ## The fields of a register word -/

/-- A field of a register word, read back from its own bits. -/
theorem extractLsb'_field {n v : Nat} (k : Nat) (x : BitVec v) (h : k + v ≤ n) :
    (x.setWidth n <<< k).extractLsb' k v = x := by
  apply BitVec.eq_of_getLsbD_eq
  intro i hi
  simp [hi, show k + i < n by omega]

/-- A field of a register word leaves the bits beside it 0. -/
theorem extractLsb'_beside_field {n k v p m : Nat} (x : BitVec v) (h : p + m ≤ k ∨ k + v ≤ p) :
    (x.setWidth n <<< k).extractLsb' p m = 0#m := by
  apply BitVec.eq_of_getLsbD_eq
  intro i hi
  have hout : p + i < k ∨ x.getLsbD (p + i - k) = false :=
    h.imp (by omega) fun hge => BitVec.getLsbD_of_ge _ _ (by omega)
  rcases hout with hlt | hzero
  · simp [hlt]
  · simp [hzero]

theorem extractLsb'_low_field {n v : Nat} (x : BitVec v) (h : v ≤ n) :
    (x.setWidth n).extractLsb' 0 v = x := by
  simpa using extractLsb'_field 0 x (by simpa using h)

theorem extractLsb'_above_low_field {n v p m : Nat} (x : BitVec v) (h : v ≤ p) :
    (x.setWidth n).extractLsb' p m = 0#m := by
  simpa using extractLsb'_beside_field (n := n) (k := 0) (p := p) (m := m) x (.inr (by simpa using h))

theorem status_fields (s : State) :
    s.status.extractLsb' 16 16 = 0 ∧ s.status.extractLsb' 12 4 = s.lastOp ∧ s.status.extractLsb' 8 4 = s.errCode ∧
      s.status.extractLsb' 3 5 = 0 ∧ s.status.getLsbD 2 = s.treeValid ∧ s.status.getLsbD 1 = s.err ∧
      s.status.getLsbD 0 = s.busy := by
  simp [State.status, BitVec.extractLsb'_or, extractLsb'_field, extractLsb'_beside_field,
    extractLsb'_above_low_field]

theorem info_fields (nd : Node) :
    nd.info.getLsbD 31 = nd.isLeaf ∧ nd.info.extractLsb' 26 5 = 0 ∧ nd.info.extractLsb' 18 8 = nd.symbol ∧
      nd.info.extractLsb' 9 9 = nd.right ∧ nd.info.extractLsb' 0 9 = nd.left := by
  simp [Node.info, BitVec.extractLsb'_or, extractLsb'_field, extractLsb'_beside_field, extractLsb'_low_field,
    extractLsb'_above_low_field]

theorem rootWord_fields (s : State) :
    s.rootWord.getLsbD 31 = s.rootValid ∧ s.rootWord.extractLsb' 9 22 = 0 ∧
      s.rootWord.extractLsb' 0 9 = if s.rootValid then s.rootIndex else 0 := by
  cases hv : s.rootValid with
  | false => simp [State.rootWord, hv]
  | true => simp [State.rootWord, hv, BitVec.extractLsb'_or, extractLsb'_low_field, extractLsb'_above_low_field]

theorem busy_eq (s : State) : s.busy = decide (s.engine ≠ .idle) := by
  cases h : s.engine <;> simp [State.busy, h]

/-- Settles O52: the words read are `status`, `rootWord` and `info`, and their fields are read back one by one. -/
theorem packedRegisterLayouts : Obligations.PackedRegisterLayouts := by
  unfold Obligations.PackedRegisterLayouts
  refine ⟨fun s => ⟨s.status, hostRead_offset (r := .status) (.inr rfl), ?_⟩,
    fun s hidle => ⟨s.rootWord, hostRead_offset (r := .root) (.inl hidle), rootWord_fields s⟩,
    fun s hidle hsel => ⟨(nodeAt s.nodes s.sel).info, ?_, info_fields _⟩, fun s hidle hsel => ?_⟩
  · rw [← busy_eq]
    exact status_fields s
  · refine (hostRead_offset (r := .nodeInfo) (.inl hidle)).trans ?_
    rw [readReg, if_pos hsel]
  · refine (hostRead_offset (r := .nodeInfo) (.inl hidle)).trans ?_
    rw [readReg, if_neg (Nat.not_lt.2 hsel)]

/-! ## The code book's window -/

/-- The bits of CODE after word `k` is written (10_state R44). -/
theorem setCodeWord_getLsbD (code : BitVec 256) (k : Fin 8) (v : Word) (j : Nat) (hj : j < 256) :
    (setCodeWord code k.val v).getLsbD j =
      if 32 * k.val ≤ j ∧ j < 32 * k.val + 32 then v.getLsbD (j - 32 * k.val) else code.getLsbD j := by
  have hmask : (0xFFFFFFFF : BitVec 256) = (BitVec.allOnes 32).setWidth 256 := by decide
  simp only [setCodeWord, hmask, BitVec.getLsbD_or, BitVec.getLsbD_and, BitVec.getLsbD_not, BitVec.getLsbD_shiftLeft,
    BitVec.getLsbD_setWidth, BitVec.getLsbD_allOnes, hj]
  split
  · rename_i h
    simp [show ¬ j < 32 * k.val by omega, show j - 32 * k.val < 32 by omega, show j - 32 * k.val < 256 by omega]
  · rename_i h
    by_cases hlt : j < 32 * k.val
    · simp [hlt]
    · simp [hlt, show ¬ j - 32 * k.val < 32 by omega, BitVec.getLsbD_of_ge v (j - 32 * k.val) (by omega)]

/-- Word `j` of CODE after word `k` is written (10_state R44). -/
theorem codeWord_setCodeWord (code : BitVec 256) (j k : Fin 8) (v : Word) :
    codeWord (setCodeWord code k.val v) j.val = if j = k then v else codeWord code j.val := by
  apply BitVec.eq_of_getLsbD_eq
  intro i hi
  have hbit : 32 * j.val + i < 256 := by have := j.isLt; omega
  simp only [codeWord, BitVec.getLsbD_extractLsb', hi, decide_true, Bool.true_and, setCodeWord_getLsbD _ _ _ _ hbit]
  by_cases hjk : j = k
  · subst hjk
    rw [if_pos (by omega), if_pos rfl, Nat.add_sub_cancel_left]
  · have hne : j.val ≠ k.val := fun e => hjk (Fin.ext e)
    rw [if_neg (by omega), if_neg hjk]
    simp [hi]

theorem lowByte_toNat (d : Word) : (d.extractLsb' 0 8).toNat = d.toNat % 256 := by
  simp [BitVec.extractLsb'_toNat]

theorem writeCbLen_refused {s : State} {d : Word} (x : Byte) (h : s.cfg.maxCodeLen < d.toNat % 256) :
    writeCbLen s x d = none := by
  rw [← lowByte_toNat] at h
  exact if_pos h

theorem writeCbLen_taken {s : State} {d : Word} (x : Byte) (h : d.toNat % 256 ≤ s.cfg.maxCodeLen) :
    writeCbLen s x d = some { s with cb := setCb s.cb x { s.cbAt x with len := d.extractLsb' 0 8 } } := by
  rw [← lowByte_toNat] at h
  exact if_neg (Nat.not_lt.2 h)

/-- CB after a write of CB_LEN (10_state R43). -/
theorem cbAt_setLen (s : State) (x y : Byte) (v : Byte) :
    ({ s with cb := setCb s.cb x { s.cbAt x with len := v } } : State).cbAt y =
      if x = y then { s.cbAt x with len := v } else s.cbAt y :=
  getElem_setCb s.cb x y _

/-- CB after a write of CB_CODEk (10_state R44). -/
theorem cbAt_writeCbCode (s : State) (x y : Byte) (k : Fin 8) (d : Word) :
    (writeCbCode s x k d).cbAt y =
      if x = y then { s.cbAt x with code := setCodeWord (s.cbAt x).code k.val d } else s.cbAt y :=
  getElem_setCb s.cb x y _

/-- Settles O54: a write replaces one entry, of which CB_LEN changes LEN (`cbAt_setLen`) and CB_CODEk one word of CODE
(`cbAt_writeCbCode`, `codeWord_setCodeWord`). -/
theorem codeBookWrites : Obligations.CodeBookWrites := by
  unfold Obligations.CodeBookWrites
  intro s d hidle x
  refine ⟨fun hlong => ?_, fun hfits => ?_, fun k => ?_⟩
  · exact hostWrite_offset_refused (r := .cbLen) (by decide) (writeCbLen_refused x hlong)
  · refine ⟨_, hostWrite_offset (r := .cbLen) (.inl hidle) (writeCbLen_taken x hfits), rfl, ?_, ?_, fun y hy => ?_⟩
    · rw [cbAt_setLen, if_pos rfl, lowByte_toNat]
    · rw [cbAt_setLen, if_pos rfl]
    · rw [cbAt_setLen, if_neg hy.symm]
  · have hentry : (writeCbCode s x k d).cbAt x = { s.cbAt x with code := setCodeWord (s.cbAt x).code k.val d } := by
      rw [cbAt_writeCbCode, if_pos rfl]
    have hword : ∀ j : Fin 8, codeWord ((writeCbCode s x k d).cbAt x).code j.val =
        if j = k then d else codeWord (s.cbAt x).code j.val := fun j => by
      rw [hentry, codeWord_setCodeWord]
    have hself := (hword k).trans (if_pos rfl)
    have hread := hostRead_offset (s := writeCbCode s x k d) (r := .cbCode k) (.inl hidle)
    refine ⟨writeCbCode s x k d, hostWrite_offset (r := .cbCode k) (.inl hidle) rfl, rfl, by rw [hentry],
      fun y hy => by rw [cbAt_writeCbCode, if_neg hy.symm], hself, fun j hj => (hword j).trans (if_neg hj), ?_⟩
    exact hread.trans (congrArg (·, Resp.okay, writeCbCode s x k d) hself)

/-! ## Reset and INIT -/

/-- Of the reset values STATUS shows BUSY only (10_state R27, R53). -/
theorem State.ResetValues.status {s : State} (h : s.ResetValues) : s.status = (BitVec.ofBool s.busy).setWidth 32 := by
  obtain ⟨hlast, hcode, herr, hvalid, -⟩ := h
  simp [State.status, hlast, hcode, herr, hvalid]

/-- Settles O56: both steps leave the reset values, of which STATUS shows BUSY only. -/
theorem resetAndInit : Obligations.ResetAndInit := by
  unfold Obligations.ResetAndInit
  refine ⟨fun s es hev => ?_, fun s hinit hengine hev => ?_⟩
  · exact ⟨_, step_of_reset hev, rfl, resetBlock_resetValues _, rfl, rfl,
      by simp [State.irq, resetBlock, State.reset], rfl, rfl, (resetBlock_resetValues _).status⟩
  · have hvalues := endInit_resetValues (hinit hengine)
    exact ⟨endInit s, by rw [step_of_no_event hev, stepEngine_of_init hengine], rfl, hvalues, rfl, rfl, rfl,
      hvalues.status⟩

end Sys2Proof.Machine

/-! Proofs: PACK and UNPACK see of the book only the codes it gives (10_state R44). -/

namespace Sys2Proof.Machine

/-! ## Codes -/

/-- Two entries give their symbol the same code. -/
def CbEntry.SameCode (e f : CbEntry) : Prop := e.len = f.len ∧ e.codeSeq = f.codeSeq

/-- Two books give every symbol the same code. -/
def SameCodes (cb cb' : Vector CbEntry 256) : Prop :=
  ∀ x : Byte, (cb[x.toNat]'x.isLt).SameCode (cb'[x.toNat]'x.isLt)

/-- A comparison with a candidate sees the code only: the value below LEN is the one the code spells. -/
theorem codeMatches_congr {e f : CbEntry} (h : e.SameCode f) (cand : List Bool) :
    codeMatches cand e = codeMatches cand f := by
  obtain ⟨hlen, hseq⟩ := h
  have hval : e.code.toNat % 2 ^ e.len.toNat = f.code.toNat % 2 ^ f.len.toNat := by
    rw [← val_seq e.code _ (Nat.le_of_lt e.len.isLt), ← val_seq f.code _ (Nat.le_of_lt f.len.isLt)]
    exact congrArg val hseq
  rw [codeMatches, codeMatches, ← hlen]
  by_cases hcand : e.len.toNat = cand.length
  · rw [← hcand, hval, hlen]
  · rw [beq_eq_false_iff_ne.2 hcand]
    rfl

theorem matchCode_congr {cb cb' : Vector CbEntry 256} (h : SameCodes cb cb') (cand : List Bool) :
    matchCode cb cand = matchCode cb' cand := by
  have hmatches : cb.toList.map (codeMatches cand) = cb'.toList.map (codeMatches cand) := by
    refine List.ext_getElem (by simp) fun n hn _ => ?_
    have hlt : n < 256 := by simpa using hn
    have hsame := h (BitVec.ofNat 8 n)
    simp only [BitVec.toNat_ofNat, Nat.mod_eq_of_lt (show n < 2 ^ 8 from hlt)] at hsame
    simpa using codeMatches_congr hsame cand
  rw [matchCode, matchCode, ← Function.id_comp (codeMatches cand), ← List.findIdx?_map, hmatches, List.findIdx?_map]

theorem packLoop_congr {cb cb' : Vector CbEntry 256} (h : SameCodes cb cb') (cap : Nat) :
    ∀ (xs : List Byte) (i pos : Nat), packLoop cb cap xs i pos = packLoop cb' cap xs i pos
  | [], _, _ => rfl
  | x :: xs, i, pos => by
    obtain ⟨hlen, hseq⟩ := h x
    simp only [packLoop, hlen, hseq, packLoop_congr h cap xs]

theorem unpackLoop_congr {cb cb' : Vector CbEntry 256} (h : SameCodes cb cb') (cap : Nat) : ∀ (bits : List Bool)
    (pos start : Nat) (cand : List Bool) (k : Nat),
    unpackLoop cb cap bits pos start cand k = unpackLoop cb' cap bits pos start cand k
  | [], _, _, _, _ => rfl
  | b :: bs, pos, start, cand, k => by
    simp only [unpackLoop, matchCode_congr h, unpackLoop_congr h cap bs]

/-- The body's end with another book in the state it left. -/
def BodyResult.withBook (cb : Vector CbEntry 256) : BodyResult → BodyResult
  | .done u => .done { u with cb := cb }
  | .raised e u => .raised e { u with cb := cb }
  | .stopped f => .stopped f

theorem packBody_withBook {s : State} {cb : Vector CbEntry 256} (h : SameCodes cb s.cb) :
    packBody { s with cb := cb } = (packBody s).withBook cb := by
  have hread : ({ s with cb := cb } : State).inSymbols s.inLen.toNat =
      ((s.inSymbols s.inLen.toNat).1, { (s.inSymbols s.inLen.toNat).2 with cb := cb }) := rfl
  have hcap : ({ s with cb := cb } : State).payBitCap = s.payBitCap := rfl
  simp only [packBody, hread, hcap, packLoop_congr h]
  split
  · rfl
  · split <;> rfl

theorem unpackBody_withBook {s : State} {cb : Vector CbEntry 256} (h : SameCodes cb s.cb) :
    unpackBody { s with cb := cb } = (unpackBody s).withBook cb := by
  have hread : ({ s with cb := cb } : State).payBits s.bitLen.toNat =
      ((s.payBits s.bitLen.toNat).1, { (s.payBits s.bitLen.toNat).2 with cb := cb }) := rfl
  have hcap : ({ s with cb := cb } : State).payBitCap = s.payBitCap := rfl
  simp only [unpackBody, hread, hcap, unpackLoop_congr h]
  split
  · rfl
  · split <;> rfl

theorem finish_withBook {r : BodyResult} {t : State} (cb : Vector CbEntry 256) (h : r.finish = .next t) :
    (r.withBook cb).finish = .next { t with cb := cb } := by
  rcases BodyResult.finish_next.1 h with ⟨u, rfl, rfl⟩ | ⟨e, u, rfl, rfl⟩ <;> rfl

/-- Settles O36: the code of an entry depends on its low bits only (`seq_congr`), and both bodies on the codes only. -/
theorem codeBitsAboveLenIgnored : Obligations.CodeBitsAboveLenIgnored := by
  unfold Obligations.CodeBitsAboveLenIgnored
  intro s t cb i hi hbits hexec
  have hsame : SameCodes cb s.cb := fun x => by
    obtain ⟨hlen, hlow⟩ := hbits ⟨x.toNat, x.isLt⟩
    refine ⟨hlen, ?_⟩
    rw [CbEntry.codeSeq, CbEntry.codeSeq, hlen]
    exact seq_congr hlow
  have hbody : bodyOf i (({ s with cb := cb } : State).accept (encode i)) =
      (bodyOf i (s.accept (encode i))).withBook cb := by
    rcases hi with rfl | rfl
    · exact packBody_withBook (s := s.accept (encode .pack)) hsame
    · exact unpackBody_withBook (s := s.accept (encode .unpack)) hsame
  rw [exec_eq] at hexec
  rw [exec_eq, hbody]
  exact finish_withBook cb hexec

end Sys2Proof.Machine

/-! Proofs: the buffers (20_memory): a window word on the host port, the bytes a command can change, and the payload bits
UNPACK reads. -/

namespace Sys2Proof.Machine

/-! ## A window word (20_memory R63 to R65) -/

@[simp] theorem bytesOfWord_length (d : Word) : (bytesOfWord d).length = 4 := rfl

theorem getElem_bytesOfWord (d : Word) (j : Nat) (h : j < 4) : (bytesOfWord d)[j] = d.extractLsb' (8 * j) 8 := by
  interval_cases j <;> rfl

/-- Every window lies above the registers, so a buffer address reaches its own bytes. -/
theorem targetOf_of_inBuffer {p : Params} {a : BitVec 18} (h : inBuffer p a.toNat) : targetOf p a = .buffer a.toNat := by
  have habove : ¬ a.toNat < 0x80 := by
    simp only [inBuffer, Config.inBase, Config.outBase, Config.payBase] at h
    omega
  simp only [targetOf, if_neg habove, if_pos h]

section
variable {s : State} {a : BitVec 18} (hidle : s.engine = .idle) (halign : a.toNat % 4 = 0) (hin : inBuffer s.cfg a.toNat)
include hidle halign hin

theorem hostWrite_buffer (d : Word) : hostWrite s a 0xF d = (.okay, s.writeBytes a.toNat (bytesOfWord d)) := by
  simp only [hostWrite, halign, targetOf_of_inBuffer hin, ne_eq, not_true, or_self, if_false, if_pos hidle]

/-- Four written bytes are read as the word they make, and no free value is drawn. -/
theorem hostRead_buffer {d : Word} (hbytes : Memory.Holds s.mem a.toNat (bytesOfWord d)) :
    hostRead s a = (d, .okay, s) := by
  have hread : s.readBytes a.toNat 4 = (bytesOfWord d, s) := by
    have hmem := Memory.readBytes_written s.mem (bytesOfWord d) a.toNat s.draws fun i hi => hbytes ⟨i, hi⟩
    rw [bytesOfWord_length] at hmem
    rw [State.readBytes, hmem]
  simp only [hostRead, halign, targetOf_of_inBuffer hin, ne_eq, not_true, if_false, if_pos hidle, hread,
    wordOfBytes_bytesOfWord]

end

/-- Settles O50: the write stores `bytesOfWord d`, and reading those four bytes makes the word again. -/
theorem windowWordLayout : Obligations.WindowWordLayout := by
  unfold Obligations.WindowWordLayout
  intro s a d _ hidle halign hin
  have hbytes := holds_writeBytes s.mem a.toNat (bytesOfWord d)
  refine ⟨s.writeBytes a.toNat (bytesOfWord d), hostWrite_buffer hidle halign hin d, rfl, fun j hj => ?_, fun b hb => ?_,
    hostRead_buffer (s := s.writeBytes a.toNat (bytesOfWord d)) hidle halign hin hbytes⟩
  · rw [← getElem_bytesOfWord d j hj]
    exact hbytes ⟨j, hj⟩
  · exact Memory.lookup_writeBytes_outside _ _ _ _ hb

/-! ## The bytes a command can change (20_memory R70) -/

/-- However the body ends, the state it leaves meets `P`. -/
def BodyResult.Leaves (P : State → Prop) : BodyResult → Prop
  | .done u => P u
  | .raised _ u => P u
  | .stopped _ => True

theorem BodyResult.Leaves.mono {P Q : State → Prop} {r : BodyResult} (hr : r.Leaves P) (h : ∀ u, P u → Q u) :
    r.Leaves Q := by
  cases r with
  | done u => exact h u hr
  | raised e u => exact h u hr
  | stopped g => trivial

/-- A raise in the first body leaves what that body left; else the second body decides. -/
theorem BodyResult.Leaves.andThen {P Q : State → Prop} {r : BodyResult} {f : State → BodyResult} (hr : r.Leaves P)
    (hraise : ∀ u, P u → Q u) (hf : ∀ u, P u → (f u).Leaves Q) : (r.andThen f).Leaves Q := by
  cases r with
  | done u => exact hf u hr
  | raised e u => exact hraise u hr
  | stopped g => trivial

/-- A command's buffers are those its body left. -/
theorem exec_leaves_mem {P : State → Prop} {i : Instr} {s t : State} (hbody : (bodyOf i (s.accept (encode i))).Leaves P)
    (hexec : exec i s = .next t) : ∃ u, P u ∧ t.mem = u.mem := by
  rcases exec_next.1 hexec with ⟨u, hu, rfl⟩ | ⟨e, u, hu, rfl⟩ <;> rw [hu] at hbody <;> exact ⟨u, hbody, rfl⟩

/-- `u` has the parameters and the buffers of `s`. -/
def SameBuffers (s u : State) : Prop := u.cfg = s.cfg ∧ u.mem = s.mem

theorem SameBuffers.trans {s u v : State} (h : SameBuffers s u) (k : SameBuffers u v) : SameBuffers s v :=
  ⟨k.1.trans h.1, k.2.trans h.2⟩

theorem BodyResult.Leaves.andThen_buffers {s : State} {r : BodyResult} {f : State → BodyResult}
    (hr : r.Leaves (SameBuffers s)) (hf : ∀ u, (f u).Leaves (SameBuffers u)) :
    (r.andThen f).Leaves (SameBuffers s) :=
  hr.andThen (fun _ h => h) fun u h => (hf u).mono fun _ => h.trans

/-- Every byte that `u` holds differently from `s` is one of the `n` bytes at `base`. -/
def ChangesWithin (base n : Nat) (s u : State) : Prop :=
  ∀ a, Memory.lookup u.mem a ≠ Memory.lookup s.mem a → base ≤ a ∧ a < base + n

theorem changesWithin_of_mem_eq {base n : Nat} {s u : State} (h : u.mem = s.mem) : ChangesWithin base n s u :=
  fun a ha => absurd (by rw [h]) ha

theorem changesWithin_writeBytes {base n : Nat} {s : State} {bs : List Byte} (h : bs.length ≤ n) :
    ChangesWithin base n s (s.writeBytes base bs) := fun a ha => by
  by_contra hout
  exact ha (Memory.lookup_writeBytes_outside s.mem base a bs (by omega))

/-- A stream that the payload buffer holds touches at most its PAY_DEPTH bytes. -/
theorem changesWithin_writePay {s : State} {bits : List Bool} (h : bits.length ≤ s.payBitCap) :
    ChangesWithin Config.payBase s.cfg.payDepth s (s.writePay bits) :=
  changesWithin_writeBytes (by rw [streamBytes_length]; unfold byteCount State.payBitCap at *; omega)

theorem freqCountBody_leaves_buffers (s : State) : (freqCountBody s).Leaves (SameBuffers s) := by
  unfold freqCountBody
  split
  · exact ⟨rfl, rfl⟩
  · simp only
    split <;> exact ⟨rfl, rfl⟩

theorem buildTreeBody_leaves_buffers (s : State) : (buildTreeBody s).Leaves (SameBuffers s) := by
  unfold buildTreeBody
  simp only
  split
  · exact ⟨rfl, rfl⟩
  · split <;> exact ⟨rfl, rfl⟩

theorem genCodesBody_leaves_buffers (s : State) : (genCodesBody s).Leaves (SameBuffers s) := by
  unfold genCodesBody
  split
  · exact ⟨rfl, rfl⟩
  split
  · exact ⟨rfl, rfl⟩
  split
  · exact ⟨rfl, rfl⟩
  split
  · trivial
  · split <;> exact ⟨rfl, rfl⟩

theorem encodeGenCodes_leaves_buffers (s : State) : (encodeGenCodes s).Leaves (SameBuffers s) := by
  have hgen := genCodesBody_leaves_buffers s
  unfold encodeGenCodes
  cases hbody : genCodesBody s <;> rw [hbody] at hgen <;> exact hgen

/-- PACK flushes no more bits than the payload buffer holds (44_bitpack R152). -/
theorem packBody_changesWithin (s : State) :
    (packBody s).Leaves (ChangesWithin Config.payBase s.cfg.payDepth s) := by
  unfold packBody
  split
  · exact changesWithin_of_mem_eq rfl
  · have hfit := packLoop_length s.cb s.payBitCap (s.inSymbols s.inLen.toNat).1 0 0 (Nat.zero_le _)
    rw [Nat.zero_add] at hfit
    have hflush := changesWithin_writePay (s := s) hfit
    simp only
    split <;> exact hflush

/-- UNPACK writes at most OUT_DEPTH symbols (44_bitpack R155). -/
theorem unpackBody_changesWithin (s : State) :
    (unpackBody s).Leaves (ChangesWithin Config.outBase s.cfg.outDepth s) := by
  unfold unpackBody
  split
  · exact changesWithin_of_mem_eq rfl
  · have hfit := unpackLoop_length s.cb s.cfg.outDepth (s.payBits s.bitLen.toNat).1 0 0 [] 0 (Nat.zero_le _)
    rw [Nat.zero_add] at hfit
    have hout := changesWithin_writeBytes (base := Config.outBase) (s := s) hfit
    simp only
    split <;> exact hout

/-- ENCODE writes what its PACK writes: the three bodies before it leave the buffers alone (45_entrypoints R170). -/
theorem encodeBody_changesWithin (s : State) :
    (encodeBody s).Leaves (ChangesWithin Config.payBase s.cfg.payDepth s) := by
  unfold encodeBody
  split
  · exact changesWithin_of_mem_eq rfl
  · have hcount : (freqCountBody { s with freq := Vector.replicate 256 0, total := 0 }).Leaves (SameBuffers s) :=
      freqCountBody_leaves_buffers _
    refine ((hcount.andThen_buffers buildTreeBody_leaves_buffers).andThen_buffers encodeGenCodes_leaves_buffers).andThen
      (fun u h => changesWithin_of_mem_eq h.2) ?_
    rintro u ⟨hcfg, hmem⟩
    have hpack := packBody_changesWithin u
    rw [hcfg] at hpack
    exact hpack.mono fun v hv a ha => hv a (hmem ▸ ha)

/-- The commands other than PACK, UNPACK and ENCODE write no buffer byte. -/
theorem bodyOf_leaves_buffers {i : Instr} (hpack : i ≠ .pack) (hunpack : i ≠ .unpack) (hencode : i ≠ .encode)
    (s : State) : (bodyOf i s).Leaves (SameBuffers s) := by
  cases i with
  | nop | clear | illegalOp | illegalRes => exact ⟨rfl, rfl⟩
  | freqCount => exact freqCountBody_leaves_buffers s
  | buildTree => exact buildTreeBody_leaves_buffers s
  | genCodes => exact genCodesBody_leaves_buffers s
  | pack => exact absurd rfl hpack
  | unpack => exact absurd rfl hunpack
  | encode => exact absurd rfl hencode

theorem exec_mem_eq {i : Instr} {s t : State} (hexec : exec i s = .next t) (hpack : i ≠ .pack) (hunpack : i ≠ .unpack)
    (hencode : i ≠ .encode) : t.mem = s.mem := by
  obtain ⟨u, ⟨-, hu⟩, hmem⟩ := exec_leaves_mem (bodyOf_leaves_buffers hpack hunpack hencode _) hexec
  rw [hmem, hu, State.accept_mem]

/-- What the body changes the command changes: acceptance and completion leave the buffers alone. -/
theorem exec_changesWithin {base n : Nat} {i : Instr} {s t : State}
    (hbody : (bodyOf i (s.accept (encode i))).Leaves (ChangesWithin base n (s.accept (encode i))))
    (hexec : exec i s = .next t) : ChangesWithin base n s t := fun a hne => by
  obtain ⟨u, hu, hmem⟩ := exec_leaves_mem hbody hexec
  exact hu a (hmem ▸ hne)

/-- Settles O8: PACK and ENCODE change bytes within PAY, UNPACK within OUT, and every other body leaves the buffers. -/
theorem commandBufferFootprint : Obligations.CommandBufferFootprint := by
  unfold Obligations.CommandBufferFootprint
  intro i s t hexec a hne
  cases i with
  | pack => exact .inr ⟨.inl rfl, exec_changesWithin (packBody_changesWithin _) hexec a hne⟩
  | encode => exact .inr ⟨.inr rfl, exec_changesWithin (encodeBody_changesWithin _) hexec a hne⟩
  | unpack => exact .inl ⟨rfl, exec_changesWithin (unpackBody_changesWithin _) hexec a hne⟩
  | nop | clear | freqCount | buildTree | genCodes | illegalOp | illegalRes =>
    exact absurd (by rw [exec_mem_eq hexec nofun nofun nofun]) hne

/-! ## The payload bits UNPACK reads (20_memory R66) -/

/-- Two memories with the same payload bits give the scan one list of bits, so one list of symbols and one report. -/
theorem unpackBody_finish_of_payHolds {s : State} {mem : List Host.Cell} {bits : List Bool}
    (hlen : s.bitLen.toNat = bits.length) (hs : PayHolds s.mem bits) (hmem : PayHolds mem bits) :
    ∃ t outs, (unpackBody s).finish = .next t ∧ t.mem = Memory.writeBytes s.mem Config.outBase outs ∧
      (unpackBody { s with mem := mem }).finish = .next { t with mem := Memory.writeBytes mem Config.outBase outs } := by
  have hread := payBits_of_holds hs
  have hread' := payBits_of_holds (s := { s with mem := mem }) hmem
  have hcap : ({ s with mem := mem } : State).payBitCap = s.payBitCap := rfl
  simp only [unpackBody, hlen, hread, hread', hcap]
  split
  · exact ⟨_, [], rfl, rfl, rfl⟩
  · split <;> exact ⟨_, _, rfl, rfl, rfl⟩

/-- Settles O40: `unpackBody_finish_of_payHolds` after the command's acceptance. -/
theorem unpackIgnoresPadding : Obligations.UnpackIgnoresPadding := by
  unfold Obligations.UnpackIgnoresPadding
  intro s mem bits hlen hs hmem
  simp only [exec_eq]
  exact unpackBody_finish_of_payHolds (s := s.accept (encode .unpack)) hlen hs hmem

end Sys2Proof.Machine

/-! Proofs: a command word and its two fields, and decoding and encoding of command words (30_encoding R80 to R84). -/

namespace Sys2Proof

/-! ## The fields of a word (30_encoding R80) -/

theorem opField_toNat (w : Word) : (opField w).toNat = w.toNat % 16 := by
  simp [opField, BitVec.extractLsb'_toNat]

theorem resField_toNat (w : Word) : (resField w).toNat = w.toNat / 16 := by
  simp only [resField, BitVec.extractLsb'_toNat, Nat.shiftRight_eq_div_pow]
  omega

theorem resField_eq_zero_iff {w : Word} : resField w = 0 ↔ w.toNat / 16 = 0 := by
  rw [← BitVec.toNat_inj, resField_toNat]
  exact Iff.rfl

/-- A word is its two fields, RES above OP. -/
theorem resField_append_opField (w : Word) : resField w ++ opField w = w :=
  (BitVec.extractLsb'_append_extractLsb'_eq_extractLsb' rfl).trans BitVec.extractLsb'_eq_self

/-- The words with no reserved bit set are the sixteen values of OP, and what holds of those is checked value by value. -/
theorem eq_setWidth_opField {w : Word} (hres : resField w = 0) : w = (opField w).setWidth 32 := by
  have hzero := resField_eq_zero_iff.1 hres
  apply BitVec.eq_of_toNat_eq
  rw [BitVec.toNat_setWidth, opField_toNat]
  omega

/-! ## The rows of the opcode map (30_encoding R82 to R84) -/

theorem decode_of_resField_ne_zero {w : Word} (hres : resField w ≠ 0) :
    decode w = .illegalRes (resField w) (opField w) :=
  if_neg hres

theorem decode_opcode_of_le (op : BitVec 4) : op.toNat ≤ 7 →
    [Instr.nop, .clear, .freqCount, .buildTree, .genCodes, .pack, .unpack, .encode][op.toNat]? =
      some (decode (op.setWidth 32)) := by
  decide +revert

theorem decode_opcode_of_ge (op : BitVec 4) : 8 ≤ op.toNat → decode (op.setWidth 32) = .illegalOp (op.setWidth 3) := by
  decide +revert

theorem decode_opcode_wellFormed (op : BitVec 4) : (decode (op.setWidth 32)).WellFormed := by
  decide +revert

theorem encode_decode_opcode (op : BitVec 4) : encode (decode (op.setWidth 32)) = op.setWidth 32 := by
  decide +revert

theorem decode_encode_illegalOp (low : BitVec 3) : decode (encode (.illegalOp low)) = .illegalOp low := by
  decide +revert

/-! ## Decoding and encoding, both ways -/

theorem decode_wellFormed (w : Word) : (decode w).WellFormed := by
  by_cases hres : resField w = 0
  · rw [eq_setWidth_opField hres]
    exact decode_opcode_wellFormed _
  · rw [decode_of_resField_ne_zero hres]
    exact bne_iff_ne.2 hres

theorem encode_decode (w : Word) : encode (decode w) = w := by
  by_cases hres : resField w = 0
  · rw [eq_setWidth_opField hres]
    exact encode_decode_opcode _
  · rw [decode_of_resField_ne_zero hres]
    exact resField_append_opField w

/-- Well-formedness is needed for a word with reserved bits: with RES = 0 it would decode to another row. -/
theorem decode_encode_illegalRes {res : BitVec 28} (op : BitVec 4) (hres : res ≠ 0) :
    decode (encode (.illegalRes res op)) = .illegalRes res op := by
  obtain ⟨hresField, hopField⟩ := Laws.CommandWord.illegalRes res op
  rw [decode_of_resField_ne_zero (hresField.trans_ne hres), hresField, hopField]

theorem decode_encode {i : Instr} (hwf : i.WellFormed) : decode (encode i) = i := by
  cases i with
  | nop | clear | freqCount | buildTree | genCodes | pack | unpack | encode => rfl
  | illegalOp low => exact decode_encode_illegalOp low
  | illegalRes res op => exact decode_encode_illegalRes op (bne_iff_ne.1 hwf)

/-- Settles O1: `decode_encode` row by row, `encode_decode` by whether the word has a reserved bit set. -/
theorem decodeAndEncodeAgree : Obligations.DecodeAndEncodeAgree :=
  ⟨fun _ hwf => decode_encode hwf, fun w => ⟨decode_wellFormed w, encode_decode w⟩⟩

/-- Settles O3: eleven fixed words, decoded. -/
theorem opcodeWordsDecode : Obligations.OpcodeWordsDecode := by
  unfold Obligations.OpcodeWordsDecode
  decide

end Sys2Proof

namespace Sys2Proof.Machine

/-- Acceptance writes LAST_OP, and neither the body nor completion changes it (40_control R100, R101). -/
theorem exec_lastOp {i : Instr} {s t : State} (hexec : exec i s = .next t) : t.lastOp = opField (encode i) := by
  have hkeeps := bodyOf_keeps i (s.accept (encode i))
  obtain ⟨u, hbody, rfl⟩ | ⟨e, u, hbody, rfl⟩ := exec_next.1 hexec <;>
    · rw [hbody] at hkeeps
      exact hkeeps.lastOp

/-- Settles O2: a clause per row of the opcode map, and `exec_lastOp` at the word, which `encode_decode` gives back. -/
theorem decodeFollowsOpcodeMap : Obligations.DecodeFollowsOpcodeMap := by
  unfold Obligations.DecodeFollowsOpcodeMap
  intro w
  refine ⟨fun hres => ?_, fun hres hop => ?_, fun hres hop => ?_, fun s t hexec => ?_⟩
  · exact ⟨_, _, decode_of_resField_ne_zero (mt resField_eq_zero_iff.1 hres)⟩
  · rw [← opField_toNat] at hop ⊢
    have hrow := decode_opcode_of_le (opField w) hop
    rwa [← eq_setWidth_opField (resField_eq_zero_iff.2 hres)] at hrow
  · rw [← opField_toNat] at hop
    have hrow := decode_opcode_of_ge (opField w) hop
    rw [← eq_setWidth_opField (resField_eq_zero_iff.2 hres)] at hrow
    exact ⟨_, hrow⟩
  · rw [exec_lastOp hexec, encode_decode, opField_toNat]

end Sys2Proof.Machine

/-! Proofs: the engine control (40_control): no command stops in a sound state, acceptance and completion, NOP, CLEAR and
the illegal words. -/

namespace Sys2Proof.Machine

/-! ## No command stops (40_control R101) -/

/-- The body runs to its end or raises an error. -/
def BodyResult.Ends : BodyResult → Prop
  | .done _ => True
  | .raised _ _ => True
  | .stopped _ => False

theorem BodyResult.Ends.finish {r : BodyResult} (h : r.Ends) : ∃ t, r.finish = .next t := by
  cases r with
  | done u => exact ⟨_, rfl⟩
  | raised e u => exact ⟨_, rfl⟩
  | stopped f => exact h.elim

/-- The second body runs only from a state that the first one left without an error, which is sound. -/
theorem BodyResult.Ends.andThen {r : BodyResult} {f : State → BodyResult} (hr : r.Ends) (hsound : r.Sound)
    (hf : ∀ u, u.DataSound → (f u).Ends) : (r.andThen f).Ends := by
  cases r with
  | done u => exact hf u hsound
  | raised e u => trivial
  | stopped g => exact hr.elim

/-- The walk from a node ends within more levels than the node's index: every child stands before its parent. -/
theorem exists_leafPaths {nodes : Vector Node 511} {n m : Nat}
    (hshape : ∀ i : BitVec 9, i.toNat < 511 → i.toNat < m → NodeOk nodes n i) :
    ∀ (fuel : Nat) (i : BitVec 9) (p : List Bool), i.toNat < fuel → i.toNat < 511 → i.toNat < m →
      ∃ ls, leafPaths nodes fuel i p = some ls
  | 0, _, _, hfuel, _, _ => absurd hfuel (Nat.not_lt_zero _)
  | fuel + 1, i, p, hfuel, htable, hvalid => by
    obtain ⟨-, hinner⟩ := hshape i htable hvalid
    rw [leafPaths]
    cases hleaf : (nodeAt nodes i).isLeaf with
    | true => exact ⟨_, rfl⟩
    | false =>
      obtain ⟨hleft, hright, -⟩ := hinner hleaf
      have hchild : ∀ (j : BitVec 9) (q : List Bool), j.toNat < i.toNat → ∃ ls, leafPaths nodes fuel j q = some ls :=
        fun j q hj => exists_leafPaths hshape fuel j q (by omega) (by omega) (by omega)
      obtain ⟨l, hl⟩ := hchild _ (p ++ [false]) hleft
      obtain ⟨r, hr⟩ := hchild _ (p ++ [true]) hright
      exact ⟨l ++ r, by simp [hl, hr]⟩

/-- A sound block's tree is one: the walk from its root ends within N_NODE levels (10_state R52 items 2 to 4). -/
theorem State.DataSound.exists_paths {s : State} (h : s.DataSound) (hnsym : s.nsym ≠ 0) : ∃ ls, s.paths = some ls := by
  obtain ⟨hle, hnnodes⟩ := h.counts
  obtain ⟨-, hroot⟩ := h.root
  have hpos : s.nsym.toNat ≠ 0 := fun hzero => hnsym (BitVec.eq_of_toNat_eq hzero)
  rw [if_neg hpos] at hnnodes
  exact exists_leafPaths (State.treeOk_iff.1 h.shape) Config.nNode s.rootIndex [] (by rw [Config.nNode]; omega)
    (by omega) (by omega)

theorem freqCountBody_ends (s : State) : (freqCountBody s).Ends := by
  unfold freqCountBody
  split
  · trivial
  · simp only
    split <;> trivial

theorem buildTreeBody_ends (s : State) : (buildTreeBody s).Ends := by
  unfold buildTreeBody
  simp only
  split
  · trivial
  · split <;> trivial

/-- The walk's fault is the one way a body can stop, and a sound block never takes it. -/
theorem genCodesBody_ends {s : State} (h : s.DataSound) : (genCodesBody s).Ends := by
  unfold genCodesBody
  split
  · trivial
  split
  · trivial
  split
  · trivial
  · obtain ⟨ls, hpaths⟩ := h.exists_paths ‹¬ s.nsym = 0›
    simp only [hpaths]
    split <;> trivial

theorem packBody_ends (s : State) : (packBody s).Ends := by
  unfold packBody
  split
  · trivial
  · simp only
    split <;> trivial

theorem unpackBody_ends (s : State) : (unpackBody s).Ends := by
  unfold unpackBody
  split
  · trivial
  · simp only
    split <;> trivial

theorem encodeGenCodes_ends {s : State} (h : s.DataSound) : (encodeGenCodes s).Ends := by
  have hgen := genCodesBody_ends h
  unfold encodeGenCodes
  cases hbody : genCodesBody s with
  | done u => trivial
  | raised e u => trivial
  | stopped f => rwa [hbody] at hgen

/-- ENCODE's sub-steps each end, and each leaves a sound state for the next (45_entrypoints R170). -/
theorem encodeBody_ends {s : State} (h : s.DataSound) : (encodeBody s).Ends := by
  unfold encodeBody
  split
  · trivial
  · have hzero : ({ s with freq := Vector.replicate 256 0, total := 0 } : State).DataSound :=
      { h with total := freqSum_replicate_zero.symm }
    have hcount := freqCountBody_sound hzero
    have htree := hcount.andThen fun _ => buildTreeBody_sound
    have hcodes := htree.andThen fun _ => encodeGenCodes_sound
    exact (((freqCountBody_ends _).andThen hcount fun u _ => buildTreeBody_ends u).andThen htree fun _ =>
      encodeGenCodes_ends).andThen hcodes fun u _ => packBody_ends u

theorem bodyOf_ends (i : Instr) {s : State} (h : s.DataSound) : (bodyOf i s).Ends := by
  cases i with
  | nop | clear | illegalOp | illegalRes => trivial
  | freqCount => exact freqCountBody_ends s
  | buildTree => exact buildTreeBody_ends s
  | genCodes => exact genCodesBody_ends h
  | pack => exact packBody_ends s
  | unpack => exact unpackBody_ends s
  | encode => exact encodeBody_ends h

/-- From sound data every command completes. -/
theorem exec_completes (i : Instr) {s : State} (h : s.DataSound) : ∃ t, exec i s = .next t := by
  have haccept : (s.accept (encode i)).DataSound := { h with }
  rw [exec_eq]
  exact (bodyOf_ends i haccept).finish

theorem stepEngine_completes {s : State} (h : s.DataSound) : ∃ t, stepEngine s = .next t := by
  cases hengine : s.engine with
  | init => exact ⟨_, stepEngine_of_init hengine⟩
  | idle => exact ⟨_, stepEngine_of_idle hengine⟩
  | busy w =>
    rw [stepEngine_of_busy hengine]
    exact exec_completes (decode w) h

/-- Settles O59: a host transaction and a reset always answer, and the engine's move does from sound data
(`stepEngine_completes`), where GEN_CODES's walk ends (`State.DataSound.exists_paths`). -/
theorem soundStateNeverStops : Obligations.SoundStateNeverStops := by
  unfold Obligations.SoundStateNeverStops State.Safe
  intro s hinv
  have hdata : s.DataSound := (State.inv_iff.1 hinv).1
  cases hev : s.events with
  | nil =>
    rw [step_of_no_event hev]
    exact stepEngine_completes hdata
  | cons e es =>
    cases e with
    | txn x =>
      by_cases hwaits : s.endsAtOnce = true
      · rw [step_of_txn_waiting hev hwaits]
        exact stepEngine_completes hdata
      · exact ⟨_, step_of_txn hev hwaits⟩
    | engine =>
      rw [step_of_engine hev]
      exact stepEngine_completes { hdata with }
    | reset => exact ⟨_, step_of_reset hev⟩

/-! ## Completion (40_control R101) -/

/-- Completion writes all that acceptance wrote but LAST_OP, which it is given. -/
@[simp] theorem State.accept_endedOk (s : State) (w : Word) (op : BitVec 4) :
    (s.accept w).endedOk op = s.endedOk op := rfl

@[simp] theorem State.accept_endedErr (s : State) (w : Word) (op code : BitVec 4) (pos : Nat) (sym : Byte) :
    (s.accept w).endedErr op code pos sym = s.endedErr op code pos sym := rfl

/-- A command that completes left its frame alone in the body, and then ended without an error or with one. -/
theorem exec_ended {i : Instr} {s t : State} (hexec : exec i s = .next t) :
    ∃ u, BodyFrame (s.accept (encode i)) u ∧
      (t = u.endedOk (opField (encode i)) ∨
        ∃ e : CmdError, t = u.endedErr (opField (encode i)) e.code.bits e.pos e.sym) := by
  have hkeeps := bodyOf_keeps i (s.accept (encode i))
  rcases exec_next.1 hexec with ⟨u, hbody, -⟩ | ⟨e, u, hbody, -⟩ <;> rw [hbody] at hkeeps
  · have ht := hexec.symm.trans (exec_done hbody)
    cases ht
    exact ⟨u, hkeeps, .inl rfl⟩
  · have ht := hexec.symm.trans (exec_raised hbody)
    cases ht
    exact ⟨u, hkeeps, .inr ⟨e, rfl⟩⟩

/-- Settles O7: the body leaves its frame alone, and the report is that of one of the two endings (`exec_ended`). -/
theorem completionOfEveryCommand : Obligations.CompletionOfEveryCommand := by
  unfold Obligations.CompletionOfEveryCommand
  intro i s t hexec
  obtain ⟨u, hframe, hended⟩ := exec_ended hexec
  have hirq : u.irqStatus = s.irqStatus := hframe.irqStatus
  have hhost : u.inLen = s.inLen ∧ u.sel = s.sel ∧ u.irqEn = s.irqEn ∧ u.cfg = s.cfg ∧ u.events = s.events ∧
      u.resp = s.resp := ⟨hframe.inLen, hframe.sel, hframe.irqEn, hframe.cfg, hframe.events, hframe.resp⟩
  rcases hended with rfl | ⟨e, rfl⟩
  · refine ⟨rfl, ?_, ?_, ?_, ?_, Nat.zero_le _, hhost⟩ <;> simp [State.endedOk, hirq]
  · obtain ⟨hne, hle⟩ := e.code.bits_bounds
    refine ⟨rfl, ?_, ?_, ?_, iff_of_true rfl hne, hle, hhost⟩
    · simp [State.endedErr]
    · simpa [State.endedErr] using .inr (decide_eq_true hne)
    · simp [State.endedErr, hirq]

/-! ## Acceptance (40_control R100) -/

theorem hostWrite_ctrl (s : State) (w : Word) : hostWrite s Reg.ctrl.offset 0xF w = writeCtrl s w := by
  simp only [hostWrite, targetOf_offset, Reg.offset_aligned, ne_eq, not_true, or_self, if_false]

/-- The step at a whole-word CTRL write to an idle block. -/
theorem step_ctrlWrite {s : State} {w : Word} {es : List Event} (hidle : s.engine = .idle)
    (hev : s.events = .txn (.write Reg.ctrl.offset 0xF w) :: es) :
    step s = .next (({ s with events := es, resp := some (.write .okay) } : State).accept w) := by
  have hnow : ¬ s.endsAtOnce = true := by simp [State.endsAtOnce, hidle]
  rw [step_of_txn hev hnow, hostTxn, hostWrite_ctrl, writeCtrl, if_pos hidle]
  rfl

/-- Settles O5: the write is accepted (`step_ctrlWrite`), and an accepted word makes the engine busy. -/
theorem ctrlWriteIsAccepted : Obligations.CtrlWriteIsAccepted := by
  unfold Obligations.CtrlWriteIsAccepted
  intro s w es hidle hev
  refine ⟨_, step_ctrlWrite hidle hev, rfl, ?_⟩
  obtain ⟨-, -, -, -, -, -, hbusy⟩ :=
    status_fields (({ s with events := es, resp := some (.write .okay) } : State).accept w)
  exact hbusy

/-! ## NOP, CLEAR and the illegal words (40_control R102 to R104) -/

/-- Settles O10: the body is empty, so the command is acceptance and completion. -/
theorem nopResult : Obligations.NopResult := by
  unfold Obligations.NopResult
  intro s
  obtain ⟨-, hop⟩ := Laws.CommandWord.nop
  rw [exec_done (i := .nop) rfl, hop, State.accept_endedOk]

/-- The data that CLEAR zeroes (40_control R103). -/
def State.cleared (s : State) : State :=
  { s with
    freq := Vector.replicate 256 0, cb := Vector.replicate 256 CbEntry.zero, total := 0, nsym := 0, nnodes := 0,
    rootValid := false, rootIndex := 0, treeValid := false, bitLen := 0, outLen := 0 }

theorem exec_clear (s : State) : exec .clear s = .next (s.cleared.endedOk 1) := by
  obtain ⟨-, hop⟩ := Laws.CommandWord.clear
  rw [exec_done (i := .clear) rfl, hop]
  rfl

/-- Zeroing again, and setting DONE again, changes nothing. -/
theorem State.cleared_endedOk_idem (s : State) : (s.cleared.endedOk 1).cleared.endedOk 1 = s.cleared.endedOk 1 := by
  simp [State.cleared, State.endedOk, BitVec.or_assoc]

/-- Settles O11: `exec_clear`, and clearing is idempotent. -/
theorem clearResult : Obligations.ClearResult := by
  unfold Obligations.ClearResult
  refine ⟨exec_clear, fun s t hexec => ?_⟩
  have ht := (exec_clear s).symm.trans hexec
  cases ht
  rw [exec_clear, State.cleared_endedOk_idem]

/-- Both ILLEGAL rows raise ILLEGAL_OP at position 0 for symbol 0 (40_control R104). -/
theorem exec_illegal {i : Instr} (h : endsAtOnce i = true) (s : State) :
    exec i s = .next (s.endedErr (opField (encode i)) 1 0 0) := by
  cases i with
  | illegalOp low => exact exec_raised (i := .illegalOp low) rfl
  | illegalRes res op => exact exec_raised (i := .illegalRes res op) rfl
  | _ => cases h

theorem opField_encode_illegalOp (low : BitVec 3) : opField (encode (.illegalOp low)) = 8 ||| low.setWidth 4 := by
  decide +revert

theorem opField_eq_ofNat (w : Word) : opField w = BitVec.ofNat 4 (w.toNat % 16) := by
  rw [← opField_toNat, BitVec.ofNat_toNat, BitVec.setWidth_eq]

theorem exec_decode_illegal {w : Word} (h : IllegalWord w) (s : State) :
    exec (decode w) s = .next (s.endedErr (BitVec.ofNat 4 (w.toNat % 16)) 1 0 0) := by
  rw [exec_illegal ((endsAtOnce_decode w).2 h), encode_decode, opField_eq_ofNat]

/-- Settles O12: `exec_illegal` for the rows and the words; the accepted word keeps the next transaction waiting
(`State.endsAtOnce_iff`), so the step after acceptance runs it. -/
theorem illegalWordResult : Obligations.IllegalWordResult := by
  unfold Obligations.IllegalWordResult
  refine ⟨fun low s => ?_, fun res op s => ?_, fun w s hill => exec_decode_illegal hill s,
    fun w s x es hill hidle hev => ?_⟩
  · rw [exec_illegal rfl, opField_encode_illegalOp]
  · obtain ⟨-, hop⟩ := Laws.CommandWord.illegalRes res op
    rw [exec_illegal rfl, hop]
  · refine ⟨_, _, step_ctrlWrite hidle hev, ?_, rfl⟩
    rw [step_of_txn_waiting rfl (State.endsAtOnce_iff.2 ⟨w, rfl, hill⟩), stepEngine_of_busy (w := w) rfl,
      exec_decode_illegal hill, State.accept_endedErr]

end Sys2Proof.Machine

/-! Proofs: the length checks (60_exceptions R184 item 1) and the frequency counter (41_frequency). -/

namespace Sys2Proof.Machine

/-! ## The length checks -/

theorem freqCountBody_badLen {s : State} (h : s.cfg.inDepth < s.inLen.toNat) :
    freqCountBody s = .raised { code := .badLen, pos := 0, sym := 0 } s := if_pos h

theorem packBody_badLen {s : State} (h : s.cfg.inDepth < s.inLen.toNat) :
    packBody s = .raised { code := .badLen, pos := 0, sym := 0 } { s with bitLen := 0 } := if_pos h

theorem encodeBody_badLen {s : State} (h : s.cfg.inDepth < s.inLen.toNat) :
    encodeBody s = .raised { code := .badLen, pos := 0, sym := 0 } { s with bitLen := 0 } := if_pos h

theorem unpackBody_malformedLength {s : State} (h : s.payBitCap < s.bitLen.toNat) :
    unpackBody s = .raised { code := .malformedLength, pos := 0, sym := 0 } { s with outLen := 0 } := if_pos h

/-- Settles O13: each body's check is its first branch, and a raise completes the command (`exec_raised`). -/
theorem lengthChecksComeFirst : Obligations.LengthChecksComeFirst := by
  unfold Obligations.LengthChecksComeFirst
  refine ⟨fun s hlong => ⟨?_, ?_, ?_⟩, fun s hlong => ?_⟩
  · exact exec_raised (i := .freqCount) (freqCountBody_badLen (s := s.accept (encode .freqCount)) hlong)
  · exact exec_raised (i := .pack) (packBody_badLen (s := s.accept (encode .pack)) hlong)
  · exact exec_raised (i := .encode) (encodeBody_badLen (s := s.accept (encode .encode)) hlong)
  · exact exec_raised (i := .unpack) (unpackBody_malformedLength (s := s.accept (encode .unpack)) hlong)

/-! ## The counting loop (41_frequency R110) -/

/-- Symbols that TOTAL has room for are counted, and the loop goes on behind them. -/
theorem countLoop_append (rest : List Byte) : ∀ (xs : List Byte) (i : Nat) (freq : Vector Word 256) (total : Word),
    total.toNat + xs.length < 2 ^ 32 →
    countLoop (xs ++ rest) i freq total =
      countLoop rest (i + xs.length) (countLoop xs i freq total).1 (countLoop xs i freq total).2.1
  | [], _, _, _, _ => rfl
  | x :: xs, i, freq, total, hroom => by
    rw [List.length_cons] at hroom
    have hnotMax : total ≠ 0xFFFFFFFF := by rintro rfl; simp at hroom; omega
    have htotal : (total + 1).toNat = total.toNat + 1 :=
      BitVec.toNat_add_of_lt (by show total.toNat + 1 < 2 ^ 32; omega)
    have ih := countLoop_append rest xs (i + 1) (setFreq freq x (freq[x.toNat]'x.isLt + 1)) (total + 1) (by omega)
    simp only [List.cons_append, countLoop, if_neg hnotMax, ih, List.length_cons]
    rw [show i + 1 + xs.length = i + (xs.length + 1) by omega]

/-- What the loop leaves where TOTAL has room, in exact numbers: no count passes TOTAL, so none wraps. -/
theorem countLoop_exact {xs : List Byte} {freq : Vector Word 256} {total : Word} (i : Nat)
    (htotal : total.toNat = freqSum freq) (hroom : total.toNat + xs.length < 2 ^ 32) :
    ∃ f t, countLoop xs i freq total = (f, t, none) ∧ t.toNat = total.toNat + xs.length ∧
      ∀ x : Byte, (f[x.toNat]'x.isLt).toNat = (freq[x.toNat]'x.isLt).toNat + xs.count x := by
  obtain ⟨hend, hcounts⟩ := countLoop_fits xs i freq total hroom
  refine ⟨_, _, Prod.ext rfl hend, ?_, fun x => ?_⟩
  · rw [BitVec.toNat_add, BitVec.toNat_ofNat, Nat.add_mod_mod, Nat.mod_eq_of_lt hroom]
  · have hle := freq_le_freqSum freq x
    have hcount : xs.count x ≤ xs.length := List.count_le_length
    rw [hcounts x, BitVec.toNat_add, BitVec.toNat_ofNat, Nat.add_mod_mod, Nat.mod_eq_of_lt (by omega)]

/-- The loop stops before the symbol at which TOTAL is full. -/
theorem countLoop_overflow {before : List Byte} (after : List Byte) (y : Byte) {freq : Vector Word 256} {total : Word}
    (htotal : total.toNat = freqSum freq) (hfull : total.toNat + before.length = 2 ^ 32 - 1) :
    ∃ f t, countLoop (before ++ y :: after) 0 freq total =
        (f, t, some { code := .countOverflow, pos := before.length, sym := y }) ∧
      t.toNat = 2 ^ 32 - 1 ∧
      ∀ x : Byte, (f[x.toNat]'x.isLt).toNat = (freq[x.toNat]'x.isLt).toNat + before.count x := by
  have hroom : total.toNat + before.length < 2 ^ 32 := by omega
  obtain ⟨f, t, hbefore, ht, hcounts⟩ := countLoop_exact 0 htotal hroom
  have hmax : t = 0xFFFFFFFF := BitVec.eq_of_toNat_eq (ht.trans hfull)
  refine ⟨f, t, ?_, ht.trans hfull, hcounts⟩
  rw [countLoop_append _ _ _ _ _ hroom, hbefore, Nat.zero_add]
  exact if_pos hmax

/-! ## FREQ_COUNT (41_frequency R110) -/

section
variable {s r : State} {xs : List Byte} {f : Vector Word 256} {t : Word} (hlen : s.inLen.toNat ≤ s.cfg.inDepth)
  (hread : s.inSymbols s.inLen.toNat = (xs, r))
include hlen hread

theorem freqCountBody_done (hcount : countLoop xs 0 s.freq s.total = (f, t, none)) :
    freqCountBody s = .done { r with freq := f, total := t } := by
  rw [freqCountBody, if_neg (Nat.not_lt.2 hlen)]
  simp only [hread, hcount]

theorem freqCountBody_raised {e : CmdError} (hcount : countLoop xs 0 s.freq s.total = (f, t, some e)) :
    freqCountBody s = .raised e { r with freq := f, total := t } := by
  rw [freqCountBody, if_neg (Nat.not_lt.2 hlen)]
  simp only [hread, hcount]

end

theorem inSymbols_length (s : State) (n : Nat) : (s.inSymbols n).1.length = n :=
  Memory.readBytes_length s.mem n Config.inBase s.draws

/-- Written input is read as it is after acceptance too. -/
theorem inSymbols_accept_of_holds {s : State} {xs : List Byte} (w : Word) (hlen : s.inLen.toNat = xs.length)
    (hmem : Memory.Holds s.mem Config.inBase xs) :
    (s.accept w).inSymbols (s.accept w).inLen.toNat = (xs, s.accept w) := by
  rw [State.accept_inLen, hlen]
  exact inSymbols_of_holds hmem

/-- Settles O14: the loop's exact result (`countLoop_exact`), carried through the body. -/
theorem freqCountCounts : Obligations.FreqCountCounts := by
  unfold Obligations.FreqCountCounts
  intro s xs htotal hlen hdepth hmem hroom
  obtain ⟨f, t, hcount, ht, hcounts⟩ := countLoop_exact 0 htotal hroom
  have hbody := freqCountBody_done (s := s.accept (encode .freqCount)) (hlen.trans_le hdepth)
    (inSymbols_accept_of_holds _ hlen hmem) hcount
  exact ⟨_, exec_done (i := .freqCount) hbody, rfl, ht, hcounts⟩

/-- Settles O15: the loop's stop (`countLoop_overflow`), carried through the body. -/
theorem freqCountOverflows : Obligations.FreqCountOverflows := by
  unfold Obligations.FreqCountOverflows
  intro s before after y htotal hlen hdepth hmem hfull
  obtain ⟨f, t, hcount, ht, hcounts⟩ := countLoop_overflow after y htotal hfull
  have hbody := freqCountBody_raised (s := s.accept (encode .freqCount)) (hlen.trans_le hdepth)
    (inSymbols_accept_of_holds _ hlen hmem) hcount
  exact ⟨_, exec_raised (i := .freqCount) hbody, rfl, ht, hcounts⟩

/-! ## CLEAR, then FREQ_COUNT (41_frequency R112) -/

/-- A FREQ_COUNT that ends without an error passed its length check. -/
theorem inLen_le_of_freqCount {s u : State} (hexec : exec .freqCount s = .next u) (herr : u.err = false) :
    s.inLen.toNat ≤ s.cfg.inDepth := by
  by_contra hlong
  rw [exec_raised (i := .freqCount) (freqCountBody_badLen (s := s.accept (encode .freqCount)) (Nat.not_le.1 hlong))]
    at hexec
  cases hexec
  cases herr

/-- From zero counts TOTAL has room for any input, written or not: the counts are those of the symbols read. -/
theorem freqCount_of_zero_counts {s r u : State} {xs : List Byte} (hfreq : s.freq = Vector.replicate 256 0)
    (htotal : s.total = 0)
    (hread : (s.accept (encode .freqCount)).inSymbols (s.accept (encode .freqCount)).inLen.toNat = (xs, r))
    (hexec : exec .freqCount s = .next u) (herr : u.err = false) :
    u.total = s.inLen ∧ ∀ x, (u.freqAt x).toNat = xs.count x := by
  have hlen : xs.length = s.inLen.toNat := by
    have hall := inSymbols_length (s.accept (encode .freqCount)) s.inLen.toNat
    rwa [← State.accept_inLen s (encode .freqCount), hread] at hall
  have hsum : s.total.toNat = freqSum s.freq := by rw [htotal, hfreq, freqSum_replicate_zero]; rfl
  have hzero : s.total.toNat = 0 := by rw [htotal]; rfl
  obtain ⟨f, t, hcount, ht, hcounts⟩ := countLoop_exact (xs := xs) 0 hsum (by have := s.inLen.isLt; omega)
  have hbody := freqCountBody_done (s := s.accept (encode .freqCount)) (inLen_le_of_freqCount hexec herr) hread hcount
  have hu := (exec_done (i := .freqCount) hbody).symm.trans hexec
  cases hu
  refine ⟨BitVec.eq_of_toNat_eq (ht.trans (by omega)), fun x => (hcounts x).trans ?_⟩
  simp [hfreq]

/-- Settles O16: CLEAR leaves zero counts and the input, and `freqCount_of_zero_counts` counts from there. -/
theorem countsOfOneInput : Obligations.CountsOfOneInput := by
  unfold Obligations.CountsOfOneInput
  intro s t u hclear hcount herr
  have ht := (exec_clear s).symm.trans hclear
  cases ht
  refine ⟨(freqCount_of_zero_counts rfl rfl rfl hcount herr).1, fun xs hlen hmem => ?_⟩
  have hread := inSymbols_accept_of_holds (s := s.cleared.endedOk 1) (encode .freqCount) hlen.symm hmem
  exact (freqCount_of_zero_counts rfl rfl hread hcount herr).2

/-! ## FREQ_DATA (41_frequency R111) -/

/-- A write while busy that the register's lockout refuses (70_reset_and_hazards R204). -/
theorem hostWrite_offset_locked {s : State} {r : Reg} (hr : r ≠ .ctrl) (hbusy : s.engine ≠ .idle)
    (hlocked : r.busyExempt = false) (d : Word) : hostWrite s r.offset 0xF d = (.slverr, s) := by
  have hrefused : ¬ (s.engine = .idle ∨ r.busyExempt = true) := by simp [hbusy, hlocked]
  cases r with
  | ctrl => exact absurd rfl hr
  | _ =>
    simp only [hostWrite, targetOf_offset, Reg.offset_aligned, ne_eq, not_true, or_self, if_false, if_neg hrefused]

section
variable {s : State} {x : Byte} {d : Word}

theorem writeFreq_refused (h : (s.total.toNat : Int) - (s.freqAt x).toNat + d.toNat > 0xFFFFFFFF) :
    writeFreq s x d = none := if_pos h

/-- Where the sum fits TOTAL takes it as it is: FREQ[x] is part of TOTAL, so the sum is not negative. -/
theorem writeFreq_taken (hsum : s.TotalOk)
    (h : (s.total.toNat : Int) - (s.freqAt x).toNat + d.toNat ≤ 0xFFFFFFFF) :
    ∃ t : Word, writeFreq s x d = some { s with freq := setFreq s.freq x d, total := t } ∧
      (t.toNat : Int) = (s.total.toNat : Int) - (s.freqAt x).toNat + d.toNat := by
  refine ⟨_, if_neg (Int.not_lt.2 h), ?_⟩
  have hle : (s.freqAt x).toNat ≤ freqSum s.freq := freq_le_freqSum s.freq x
  have htotal : s.total.toNat = freqSum s.freq := hsum
  rw [BitVec.toNat_ofInt]
  omega

end

/-- FREQ after one entry is written. -/
theorem freqAt_setFreq (s : State) (x y : Byte) (d t : Word) :
    ({ s with freq := setFreq s.freq x d, total := t } : State).freqAt y = if x = y then d else s.freqAt y :=
  getElem_setFreq s.freq x y d

/-- Settles O17: the write reaches `writeFreq` at the register's offset, whose exact sum refuses it or is TOTAL's new
value; while busy the lockout refuses it. -/
theorem freqDataWrite : Obligations.FreqDataWrite := by
  unfold Obligations.FreqDataWrite
  intro s d x sum
  refine ⟨fun _ hover => ?_, fun hidle hsum hfits => ?_, fun hbusy => ?_⟩
  · exact hostWrite_offset_refused (r := .freqData) (by decide) (writeFreq_refused hover)
  · obtain ⟨t, hwrite, ht⟩ := writeFreq_taken hsum hfits
    refine ⟨_, hostWrite_offset (r := .freqData) (.inl hidle) hwrite, rfl, ?_, fun y hy => ?_, ht⟩
    · rw [freqAt_setFreq, if_pos rfl]
    · rw [freqAt_setFreq, if_neg hy.symm]
  · exact hostWrite_offset_locked (r := .freqData) (by decide) hbusy rfl d

end Sys2Proof.Machine

/-! Proofs: the tree builder (42_tree_builder). BUILD_TREE writes each NODE entry once, so every fact about a merge is
stated on the finished table, of which the table at any moment of the build is a part (`Builder.PartOf`). -/

namespace Sys2Proof.Machine

/-! ## The symbols present (42_tree_builder R121) -/

theorem mem_allSymbols (x : Byte) : x ∈ (List.range 256).map (BitVec.ofNat 8) :=
  List.mem_map.2 ⟨x.toNat, List.mem_range.2 x.isLt, by simp⟩

theorem mem_presentSymbols {freq : Vector Word 256} {x : Byte} :
    x ∈ presentSymbols freq ↔ freq[x.toNat]'x.isLt ≠ 0 := by
  simp only [presentSymbols, List.mem_filter, mem_allSymbols, true_and, decide_eq_true_eq]

theorem presentSymbols_nodup (freq : Vector Word 256) : (presentSymbols freq).Nodup := by
  refine List.Nodup.filter _ (List.Nodup.map_on (fun i hi j hj heq => ?_) List.nodup_range)
  have hval := congrArg BitVec.toNat heq
  rw [List.mem_range] at hi hj
  simpa only [BitVec.toNat_ofNat, Nat.mod_eq_of_lt hi, Nat.mod_eq_of_lt hj] using hval

theorem presentSymbols_length_le (freq : Vector Word 256) : (presentSymbols freq).length ≤ 256 := by
  refine (List.length_filter_le _ _).trans ?_
  rw [List.length_map, List.length_range]

/-- FREQ lists the counts of the symbols in ascending order (10_state R46). -/
theorem freq_toList (freq : Vector Word 256) :
    freq.toList = (List.range 256).map fun i => freq[(BitVec.ofNat 8 i).toNat]'(BitVec.ofNat 8 i).isLt := by
  refine List.ext_getElem (by simp) fun i hi _ => ?_
  rw [Vector.length_toList] at hi
  simp [Nat.mod_eq_of_lt hi]

/-- The nonzero counts are those of the symbols present. -/
theorem length_filter_freq (freq : Vector Word 256) :
    (freq.toList.filter (fun c => c ≠ 0)).length = (presentSymbols freq).length := by
  rw [freq_toList, presentSymbols, List.filter_map, List.filter_map, List.length_map, List.length_map]
  rfl

/-- The counts of the symbols present are all of the sum. -/
theorem sum_presentSymbols (freq : Vector Word 256) :
    ((presentSymbols freq).map fun x => (freq[x.toNat]'x.isLt).toNat).sum = freqSum freq := by
  have hsplit := List.sum_map_ite (fun x : Byte => freq[x.toNat]'x.isLt ≠ 0) (fun x => (freq[x.toNat]'x.isLt).toNat)
    (fun _ => 0) ((List.range 256).map (BitVec.ofNat 8))
  have hzero : ∀ x : Byte, (if freq[x.toNat]'x.isLt ≠ 0 then (freq[x.toNat]'x.isLt).toNat else 0) =
      (freq[x.toNat]'x.isLt).toNat := by
    intro x
    split
    · rfl
    · rename_i h
      rw [not_not.1 h]
      rfl
  simp only [hzero, List.map_const', List.sum_replicate, smul_zero, add_zero] at hsplit
  rw [freqSum, freq_toList, presentSymbols, ← hsplit, List.map_map, List.map_map]
  rfl

/-! ## Pushing nodes (42_tree_builder R121, R122) -/

theorem Builder.next_pushes : ∀ (nds : List Node) (b : Builder), (nds.foldl Builder.push b).next = b.next + nds.length
  | [], _ => rfl
  | nd :: nds, b => by
    rw [List.foldl_cons, Builder.next_pushes nds, List.length_cons, Nat.add_comm nds.length, ← Nat.add_assoc]
    rfl

theorem Builder.queue_pushes : ∀ (nds : List Node) (b : Builder),
    (nds.foldl Builder.push b).queue = b.queue ++ (List.range' b.next nds.length).map (BitVec.ofNat 9)
  | [], b => (List.append_nil _).symm
  | nd :: nds, b => by
    rw [List.foldl_cons, Builder.queue_pushes nds, List.length_cons, List.range'_succ, List.map_cons]
    exact List.append_assoc _ _ _

/-- The nodes created so far stand in the table `f` as they were written. -/
def Builder.PartOf (b : Builder) (f : Vector Node 511) : Prop :=
  ∀ i : BitVec 9, i.toNat < b.next → nodeAt f i = nodeAt b.nodes i

theorem toNat_ofNat_of_room {k : Nat} (h : k < 511) : (BitVec.ofNat 9 k).toNat = k := by
  rw [BitVec.toNat_ofNat, Nat.mod_eq_of_lt (by omega)]

/-- Where a push's result stands in `f`, so does what was there before, and the new node behind it. -/
theorem Builder.PartOf.of_push {b : Builder} {nd : Node} {f : Vector Node 511} (h : (b.push nd).PartOf f)
    (hroom : b.next < 511) : b.PartOf f ∧ nodeAt f (BitVec.ofNat 9 b.next) = nd := by
  have hindex := toNat_ofNat_of_room hroom
  refine ⟨fun i hi => ?_, ?_⟩
  · exact (h i (Nat.lt_succ_of_lt hi)).trans (nodeAt_setNode_before hroom hi)
  · refine (h _ (hindex.trans_lt (Nat.lt_succ_self _))).trans ?_
    show nodeAt (setNode b.nodes b.next nd) _ = nd
    rw [nodeAt_setNode _ _ _ _ (by omega), if_pos hindex.symm]

theorem Builder.PartOf.of_pushes {f : Vector Node 511} : ∀ {nds : List Node} {b : Builder},
    (nds.foldl Builder.push b).PartOf f → b.next + nds.length ≤ 511 →
    b.PartOf f ∧ ∀ k nd, nds[k]? = some nd → nodeAt f (BitVec.ofNat 9 (b.next + k)) = nd
  | [], _, h, _ => ⟨h, by simp⟩
  | nd :: nds, b, h, hroom => by
    rw [List.length_cons] at hroom
    obtain ⟨hpush, hlater⟩ := Builder.PartOf.of_pushes (b := b.push nd) h (by show b.next + 1 + _ ≤ _; omega)
    obtain ⟨hpart, hnode⟩ := hpush.of_push (by omega)
    refine ⟨hpart, fun k nd' hk => ?_⟩
    cases k with
    | zero => exact hnode.trans (Option.some.inj hk)
    | succ k =>
      have hindex : (b.push nd).next + k = b.next + (k + 1) := Nat.add_right_comm b.next 1 k
      rw [← hlater k nd' hk, hindex]

/-- The builder with `f` for its table. -/
def Builder.over (b : Builder) (f : Vector Node 511) : Builder := { b with nodes := f }

theorem setNode_eq_self {f : Vector Node 511} {k : Nat} {nd : Node} (hk : k < 511)
    (h : nodeAt f (BitVec.ofNat 9 k) = nd) : setNode f k nd = f := by
  rw [nodeAt_eq _ _ (by rwa [toNat_ofNat_of_room hk])] at h
  simp only [toNat_ofNat_of_room hk] at h
  refine Vector.ext fun i hi => ?_
  rw [setNode, Vector.getElem_setIfInBounds]
  split
  · simp only [← h, ‹k = i›]
  · rfl

/-- Pushing again onto a table that holds the node already changes only the queue. -/
theorem Builder.over_push {b : Builder} {nd : Node} {f : Vector Node 511} (hroom : b.next < 511)
    (h : nodeAt f (BitVec.ofNat 9 b.next) = nd) : (b.over f).push nd = (b.push nd).over f := by
  show Builder.mk (setNode f b.next nd) _ _ = Builder.mk f _ _
  rw [setNode_eq_self hroom h]
  rfl

theorem Builder.over_pushes {f : Vector Node 511} : ∀ {nds : List Node} {b : Builder},
    (nds.foldl Builder.push b).PartOf f → b.next + nds.length ≤ 511 →
    nds.foldl Builder.push (b.over f) = (nds.foldl Builder.push b).over f
  | [], _, _, _ => rfl
  | nd :: nds, b, h, hroom => by
    rw [List.length_cons] at hroom
    have hlater : (b.push nd).next + nds.length ≤ 511 := by show b.next + 1 + _ ≤ _; omega
    obtain ⟨-, hnode⟩ := (Builder.PartOf.of_pushes (b := b.push nd) h hlater).1.of_push (by omega)
    rw [List.foldl_cons, Builder.over_push (by omega) hnode]
    exact Builder.over_pushes (b := b.push nd) h hlater

/-! ## The leaf load (42_tree_builder R121) -/

/-- The leaves of the symbols present, ascending. -/
def presentLeaves (freq : Vector Word 256) : List Node :=
  (presentSymbols freq).map fun x => leafNode x (freq[x.toNat]'x.isLt)

@[simp] theorem presentLeaves_length (freq : Vector Word 256) :
    (presentLeaves freq).length = (presentSymbols freq).length := List.length_map _

/-- The load over the counts of consecutive symbols pushes a leaf for each nonzero one. -/
theorem leafLoad_eq_pushes (count : Byte → Word) : ∀ (m x : Nat) (b : Builder),
    leafLoad ((List.range' x m).map fun i => count (BitVec.ofNat 8 i)) x b =
      ((((List.range' x m).map (BitVec.ofNat 8)).filter fun y => count y ≠ 0).map fun y =>
        leafNode y (count y)).foldl Builder.push b
  | 0, _, _ => rfl
  | m + 1, x, b => by
    simp only [List.range'_succ, List.map_cons, leafLoad]
    rw [leafLoad_eq_pushes count m (x + 1)]
    by_cases hzero : count (BitVec.ofNat 8 x) = 0
    · rw [if_neg (not_not.2 hzero), List.filter_cons_of_neg (by simpa using hzero)]
    · rw [if_pos hzero, List.filter_cons_of_pos (by simpa using hzero)]
      rfl

/-- The builder before the first leaf. -/
def Builder.empty (nodes : Vector Node 511) : Builder := { nodes := nodes, queue := [], next := 0 }

theorem loadedLeaves_eq (s : State) :
    loadedLeaves s = (presentLeaves s.freq).foldl Builder.push (Builder.empty s.nodes) := by
  rw [loadedLeaves, freq_toList, List.range_eq_range']
  refine (leafLoad_eq_pushes s.freqAt 256 0 _).trans ?_
  rw [presentLeaves, presentSymbols, List.range_eq_range']
  rfl

theorem loadedLeaves_next (s : State) : (loadedLeaves s).next = (presentSymbols s.freq).length := by
  rw [loadedLeaves_eq, Builder.next_pushes, presentLeaves_length]
  exact Nat.zero_add _

theorem loadedLeaves_queue (s : State) :
    (loadedLeaves s).queue = (List.range (presentSymbols s.freq).length).map (BitVec.ofNat 9) := by
  rw [loadedLeaves_eq, Builder.queue_pushes, presentLeaves_length, List.range_eq_range']
  rfl

/-- The leaves stand at the front of the table. -/
theorem nodeAt_leaf {s : State} {f : Vector Node 511} (h : (loadedLeaves s).PartOf f) {k : Nat} {x : Byte}
    (hk : (presentSymbols s.freq)[k]? = some x) : nodeAt f (BitVec.ofNat 9 k) = leafNode x (s.freqAt x) := by
  rw [loadedLeaves_eq] at h
  have hroom := presentSymbols_length_le s.freq
  obtain ⟨-, hleaves⟩ := h.of_pushes (by rw [presentLeaves_length]; show 0 + _ ≤ _; omega)
  have hleaf : (presentLeaves s.freq)[k]? = some (leafNode x (s.freqAt x)) := by
    rw [presentLeaves, List.getElem?_map, hk]
    rfl
  simpa only [Builder.empty, Nat.zero_add] using hleaves k _ hleaf

end Sys2Proof.Machine

/-! Proofs: the merges of BUILD_TREE (42_tree_builder R120, R122, R126), each described on the finished table. -/

namespace Sys2Proof.Machine

/-! ## The priority key (42_tree_builder R120) -/

/-- `KEY(i) = {COUNT, i}` as a number (42_tree_builder R120). -/
def nodeKey (nodes : Vector Node 511) (i : BitVec 9) : Nat := (nodeAt nodes i).count.toNat * 512 + i.toNat

theorem nodeKey_inj {nodes : Vector Node 511} {i j : BitVec 9} (h : nodeKey nodes i = nodeKey nodes j) : i = j := by
  have hi := i.isLt
  have hj := j.isLt
  unfold nodeKey at h
  exact BitVec.eq_of_toNat_eq (by omega)

/-- The smaller count, or of equal counts the smaller index, is the smaller key. -/
theorem nodeKey_lt_iff {nodes : Vector Node 511} {i j : BitVec 9} :
    nodeKey nodes i < nodeKey nodes j ↔ (nodeAt nodes i).count.toNat < (nodeAt nodes j).count.toNat ∨
      ((nodeAt nodes i).count = (nodeAt nodes j).count ∧ i.toNat < j.toNat) := by
  have hi := i.isLt
  have hj := j.isLt
  rw [nodeKey, nodeKey, ← BitVec.toNat_inj]
  omega

theorem before_iff {nodes : Vector Node 511} {i j : BitVec 9} :
    before nodes i j = true ↔ nodeKey nodes i < nodeKey nodes j := by
  simp only [before, nodeKey_lt_iff, Bool.or_eq_true, Bool.and_eq_true, decide_eq_true_eq, beq_iff_eq]

theorem firstOf_le (nodes : Vector Node 511) : ∀ (q : List (BitVec 9)) (m i : BitVec 9), i ∈ m :: q →
    nodeKey nodes (firstOf nodes m q) ≤ nodeKey nodes i
  | [], m, i, h => by rw [List.mem_singleton.1 h]; exact Nat.le_refl _
  | j :: q, m, i, h => by
    rw [firstOf]
    split <;> rename_i hbefore <;> rw [before_iff] at hbefore
    · have ih := firstOf_le nodes q j
      rcases List.mem_cons.1 h with rfl | hi
      · exact (ih j List.mem_cons_self).trans (Nat.le_of_lt hbefore)
      · exact ih i hi
    · have ih := firstOf_le nodes q m
      rcases List.mem_cons.1 h with rfl | hi
      · exact ih i List.mem_cons_self
      · rcases List.mem_cons.1 hi with rfl | hi
        · exact (ih m List.mem_cons_self).trans (Nat.not_lt.1 hbefore)
        · exact ih i (List.mem_cons_of_mem _ hi)

/-- The popped entry has the smallest key of the queue. -/
theorem popFirst_le {nodes : Vector Node 511} {q rest : List (BitVec 9)} {a : BitVec 9}
    (h : popFirst nodes q = some (a, rest)) : ∀ i ∈ rest, nodeKey nodes a ≤ nodeKey nodes i := by
  intro i hi
  have hq : i ∈ q := (popFirst_perm h).mem_iff.2 (List.mem_cons_of_mem a hi)
  cases q with
  | nil => cases hq
  | cons j q =>
    cases h
    exact firstOf_le nodes q j i hq

theorem before_congr {f g : Vector Node 511} {i j : BitVec 9} (hi : nodeAt f i = nodeAt g i)
    (hj : nodeAt f j = nodeAt g j) : before f i j = before g i j := by
  rw [before, before, hi, hj]

theorem firstOf_congr {f g : Vector Node 511} : ∀ {q : List (BitVec 9)} {m : BitVec 9},
    (∀ i ∈ m :: q, nodeAt f i = nodeAt g i) → firstOf f m q = firstOf g m q
  | [], _, _ => rfl
  | j :: q, m, h => by
    obtain ⟨hm, hj, hq⟩ : nodeAt f m = nodeAt g m ∧ nodeAt f j = nodeAt g j ∧ ∀ i ∈ q, nodeAt f i = nodeAt g i := by
      simpa only [List.forall_mem_cons] using h
    rw [firstOf, firstOf, before_congr hj hm]
    split
    · exact firstOf_congr (List.forall_mem_cons.2 ⟨hj, hq⟩)
    · exact firstOf_congr (List.forall_mem_cons.2 ⟨hm, hq⟩)

/-- A pop looks only at the queue's own entries. -/
theorem popFirst_congr {f g : Vector Node 511} {q : List (BitVec 9)} (h : ∀ i ∈ q, nodeAt f i = nodeAt g i) :
    popFirst f q = popFirst g q := by
  cases q with
  | nil => rfl
  | cons i q => rw [popFirst, popFirst, firstOf_congr h]

/-! ## One merge (42_tree_builder R122) -/

/-- On the finished table `f` a merge leads from `b` to `b'`: `a` pops first, `c` second, `q'` stays in the queue. -/
structure Builder.MergesOn (f : Vector Node 511) (b b' : Builder) (a c : BitVec 9) (q q' : List (BitVec 9)) : Prop where
  first : popFirst f b.queue = some (a, q)
  second : popFirst f q = some (c, q')
  room : b.next < 511
  node : nodeAt f (BitVec.ofNat 9 b.next) = mergedNode f a c
  after : b' = ({ b with queue := q' } : Builder).push (mergedNode f a c)

theorem mergeStep_of_pops {b : Builder} {a c : BitVec 9} {q q' : List (BitVec 9)}
    (hfirst : popFirst b.nodes b.queue = some (a, q)) (hsecond : popFirst b.nodes q = some (c, q')) :
    mergeStep b = some (({ b with queue := q' } : Builder).push (mergedNode b.nodes a c)) := by
  simp only [mergeStep, hfirst, hsecond]

theorem exists_pops_of_mergeStep {b b' : Builder} (h : mergeStep b = some b') :
    ∃ a c q q', popFirst b.nodes b.queue = some (a, q) ∧ popFirst b.nodes q = some (c, q') ∧
      b' = ({ b with queue := q' } : Builder).push (mergedNode b.nodes a c) := by
  unfold mergeStep at h
  split at h
  · cases h
  · split at h
    · cases h
    · cases h
      exact ⟨_, _, _, _, ‹_›, ‹_›, rfl⟩

theorem mergeStep_eq_none_iff {b : Builder} : mergeStep b = none ↔ b.queue.length ≤ 1 := by
  refine ⟨mergeStep_eq_none, fun hshort => ?_⟩
  by_contra hsome
  obtain ⟨b', hb'⟩ := Option.ne_none_iff_exists'.1 hsome
  obtain ⟨a, c, q, hperm, -⟩ := mergeStep_eq_some hb'
  have hlen := hperm.length_eq
  simp only [List.length_cons] at hlen
  omega

/-- A merge whose result stands in `f` is a merge on `f`: the entries it looks at stood in the table already. -/
theorem Builder.PartOf.of_mergeStep {n : Nat} {b b' : Builder} {f : Vector Node 511} (hsound : b.Sound n)
    (hstep : mergeStep b = some b') (h : b'.PartOf f) : b.PartOf f ∧ ∃ a c q q', b.MergesOn f b' a c q q' := by
  obtain ⟨a, c, q, q', hfirst, hsecond, rfl⟩ := exists_pops_of_mergeStep hstep
  have hroom : b.next < 511 := (mergeStep_sound hsound hstep).1.room
  obtain ⟨hpart, hnode⟩ := h.of_push (b := { b with queue := q' }) hroom
  have hqueue : ∀ i ∈ b.queue, nodeAt f i = nodeAt b.nodes i := fun i hi => hpart i (hsound.queued i hi)
  have hrest : ∀ i ∈ a :: q, nodeAt f i = nodeAt b.nodes i :=
    fun i hi => hqueue i ((popFirst_perm hfirst).mem_iff.2 hi)
  obtain ⟨ha, hq⟩ := List.forall_mem_cons.1 hrest
  have hc : nodeAt f c = nodeAt b.nodes c := hq c ((popFirst_perm hsecond).mem_iff.2 List.mem_cons_self)
  have hmerged : mergedNode f a c = mergedNode b.nodes a c := by rw [mergedNode, mergedNode, ha, hc]
  refine ⟨hpart, a, c, q, q', ⟨?_, ?_, hroom, hnode.trans hmerged.symm, by rw [hmerged]⟩⟩
  · rw [popFirst_congr hqueue, hfirst]
  · rw [popFirst_congr hq, hsecond]

section
variable {f : Vector Node 511} {b b' : Builder} {a c : BitVec 9} {q q' : List (BitVec 9)}
  (h : b.MergesOn f b' a c q q')
include h

theorem Builder.MergesOn.perm : b.queue.Perm (a :: c :: q') :=
  (popFirst_perm h.first).trans ((popFirst_perm h.second).cons a)

theorem Builder.MergesOn.next_eq : b'.next = b.next + 1 := by rw [h.after]; rfl

theorem Builder.MergesOn.queue_eq : b'.queue = q' ++ [BitVec.ofNat 9 b.next] := by rw [h.after]; rfl

/-- On the finished table itself the merge rewrites the node that stands there. -/
theorem Builder.MergesOn.over : mergeStep (b.over f) = some (b'.over f) := by
  rw [mergeStep_of_pops (b := b.over f) h.first h.second, h.after]
  exact congrArg some (Builder.over_push (b := { b with queue := q' }) h.room h.node)

/-- Without repeated entries the two popped come strictly first. -/
theorem Builder.MergesOn.keys (hnodup : b.queue.Nodup) :
    nodeKey f a < nodeKey f c ∧ ∀ i ∈ q', nodeKey f c < nodeKey f i := by
  have hdistinct := h.perm.nodup_iff.1 hnodup
  simp only [List.nodup_cons, List.mem_cons, not_or] at hdistinct
  obtain ⟨⟨hac, -⟩, hc, -⟩ := hdistinct
  have hmem : c ∈ q := (popFirst_perm h.second).mem_iff.2 List.mem_cons_self
  refine ⟨lt_of_le_of_ne (popFirst_le h.first c hmem) fun heq => hac (nodeKey_inj heq), fun i hi => ?_⟩
  exact lt_of_le_of_ne (popFirst_le h.second i hi) fun heq => hc (nodeKey_inj heq ▸ hi)

end

/-! ## The merge loop (42_tree_builder R123, R126) -/

theorem mergeLoop_of_none {b : Builder} (h : mergeStep b = none) : ∀ fuel, mergeLoop fuel b = b
  | 0 => rfl
  | fuel + 1 => by rw [mergeLoop, h]

theorem mergeLoop_of_some {b b' : Builder} (h : mergeStep b = some b') (fuel : Nat) :
    mergeLoop (fuel + 1) b = mergeLoop fuel b' := by rw [mergeLoop, h]

theorem Builder.PartOf.of_mergeLoop {n : Nat} {f : Vector Node 511} : ∀ {fuel : Nat} {b : Builder}, b.Sound n →
    (mergeLoop fuel b).PartOf f → b.PartOf f
  | 0, _, _, h => h
  | fuel + 1, b, hsound, h => by
    cases hstep : mergeStep b with
    | none => rwa [mergeLoop_of_none hstep] at h
    | some b' =>
      rw [mergeLoop_of_some hstep] at h
      have hpart := Builder.PartOf.of_mergeLoop (mergeStep_sound hsound hstep).1 h
      exact (hpart.of_mergeStep hsound hstep).1

/-- What every merge on the finished table keeps, the merge loop keeps. -/
theorem mergeLoop_keeps {n : Nat} {f : Vector Node 511} {P : Builder → Prop}
    (hmerge : ∀ {b b' a c q q'}, b.Sound n → P b → b.MergesOn f b' a c q q' → P b') :
    ∀ {fuel : Nat} {b : Builder}, b.Sound n → (mergeLoop fuel b).PartOf f → P b → P (mergeLoop fuel b)
  | 0, _, _, _, hP => hP
  | fuel + 1, b, hsound, hpart, hP => by
    cases hstep : mergeStep b with
    | none => rwa [mergeLoop_of_none hstep]
    | some b' =>
      have hsound' := (mergeStep_sound hsound hstep).1
      rw [mergeLoop_of_some hstep] at hpart ⊢
      obtain ⟨-, a, c, q, q', hon⟩ := (hpart.of_mergeLoop hsound').of_mergeStep hsound hstep
      exact mergeLoop_keeps hmerge hsound' hpart (hmerge hsound hP hon)

/-- The merge loop run on its own finished table does the same merges and changes no node. -/
theorem mergeLoop_over {n : Nat} {f : Vector Node 511} : ∀ {fuel : Nat} {b : Builder}, b.Sound n →
    (mergeLoop fuel b).PartOf f → mergeLoop fuel (b.over f) = (mergeLoop fuel b).over f
  | 0, _, _, _ => rfl
  | fuel + 1, b, hsound, hpart => by
    cases hstep : mergeStep b with
    | none =>
      have hover : mergeStep (b.over f) = none :=
        mergeStep_eq_none_iff.2 (show b.queue.length ≤ 1 from mergeStep_eq_none hstep)
      rw [mergeLoop_of_none hstep, mergeLoop_of_none hover]
    | some b' =>
      have hsound' := (mergeStep_sound hsound hstep).1
      rw [mergeLoop_of_some hstep] at hpart ⊢
      obtain ⟨-, a, c, q, q', hon⟩ := (hpart.of_mergeLoop hsound').of_mergeStep hsound hstep
      rw [mergeLoop_of_some hon.over, mergeLoop_over hsound' hpart]

end Sys2Proof.Machine

/-! Proofs: what BUILD_TREE leaves (42_tree_builder R121, R123): one result for every number of symbols, the leaves, and
the same tree again when it runs twice. -/

namespace Sys2Proof.Machine

/-! ## The body (42_tree_builder R123) -/

/-- `s` with the finished tree in NODE, NSYM, NNODES, ROOT and TREE_VALID; R124 and R125 are its cases of one symbol and
of none. -/
def State.built (s : State) : State :=
  { s with
    nodes := (builtTree s).nodes
    nsym := BitVec.ofNat 9 (presentSymbols s.freq).length
    nnodes := BitVec.ofNat 10 (builtTree s).next
    rootValid := (presentSymbols s.freq).length ≠ 0
    rootIndex := BitVec.ofNat 9 ((builtTree s).next - 1)
    treeValid := true }

/-- With fewer than two leaves no merge runs. -/
theorem builtTree_of_short {s : State} (h : (presentSymbols s.freq).length ≤ 1) : builtTree s = loadedLeaves s := by
  refine mergeLoop_of_none (mergeStep_eq_none_iff.2 ?_) _
  rwa [loadedLeaves_queue, List.length_map, List.length_range]

theorem loadedLeaves_of_none {s : State} (h : presentSymbols s.freq = []) : loadedLeaves s = Builder.empty s.nodes := by
  rw [loadedLeaves_eq, presentLeaves, h]
  rfl

theorem buildTreeBody_eq (s : State) : buildTreeBody s = .done s.built := by
  unfold buildTreeBody
  simp only [loadedLeaves_next]
  split
  · rename_i hzero
    rw [State.built, builtTree_of_short (by omega), loadedLeaves_of_none (List.length_eq_zero_iff.1 hzero), hzero]
    rfl
  split
  · rename_i hone
    rw [State.built, builtTree_of_short (by omega), loadedLeaves_next, hone]
    rfl
  · rename_i hzero _
    simp only [State.built, ne_eq, hzero, not_false_eq_true, decide_true]

theorem exec_buildTree (s : State) : exec .buildTree s = .next (s.built.endedOk 3) := by
  obtain ⟨-, hop⟩ := Laws.CommandWord.buildTree
  rw [exec_done (i := .buildTree) (buildTreeBody_eq _), hop]
  rfl

theorem eq_of_exec_buildTree {s t : State} (h : exec .buildTree s = .next t) : t = s.built.endedOk 3 := by
  cases (exec_buildTree s).symm.trans h
  rfl

theorem builtTree_sound (s : State) : (builtTree s).Sound (presentSymbols s.freq).length := by
  have hload := loadedLeaves_sound s
  rw [loadedLeaves_next] at hload
  by_cases hshort : (presentSymbols s.freq).length ≤ 1
  · rwa [builtTree_of_short hshort]
  · have hlen : (loadedLeaves s).queue.length = (presentSymbols s.freq).length := by simp [loadedLeaves_queue]
    exact (mergeLoop_sound _ _ hload (List.ne_nil_of_length_pos (by omega)) (Nat.le_succ _)).1

/-- The tree has 2n − 1 nodes, or none (42_tree_builder R127 item 1). -/
theorem builtTree_next (s : State) : (builtTree s).next = 2 * (presentSymbols s.freq).length - 1 := by
  have hload := loadedLeaves_sound s
  have hlen : (loadedLeaves s).queue.length = (presentSymbols s.freq).length := by simp [loadedLeaves_queue]
  rw [loadedLeaves_next] at hload
  by_cases hshort : (presentSymbols s.freq).length ≤ 1
  · rw [builtTree_of_short hshort, loadedLeaves_next]
    omega
  · obtain ⟨hsound, hone⟩ : (builtTree s).Sound _ ∧ (builtTree s).queue.length = 1 :=
      mergeLoop_sound _ _ hload (List.ne_nil_of_length_pos (by omega)) (Nat.le_succ _)
    have := hsound.sizes
    omega

@[simp] theorem State.built_nsym (s : State) : s.built.nsym.toNat = (presentSymbols s.freq).length := by
  have := presentSymbols_length_le s.freq
  rw [State.built, BitVec.toNat_ofNat]
  omega

@[simp] theorem State.built_nnodes (s : State) : s.built.nnodes.toNat = 2 * (presentSymbols s.freq).length - 1 := by
  have := presentSymbols_length_le s.freq
  rw [State.built, BitVec.toNat_ofNat, builtTree_next]
  omega

@[simp] theorem State.built_rootIndex (s : State) :
    s.built.rootIndex.toNat = 2 * (presentSymbols s.freq).length - 1 - 1 := by
  have := presentSymbols_length_le s.freq
  rw [State.built, BitVec.toNat_ofNat, builtTree_next]
  omega

@[simp] theorem State.built_rootValid (s : State) :
    s.built.rootValid = true ↔ 1 ≤ (presentSymbols s.freq).length := by
  rw [State.built, decide_eq_true_eq]
  omega

@[simp] theorem State.endedOk_nsym (s : State) (op : BitVec 4) : (s.endedOk op).nsym = s.nsym := rfl
@[simp] theorem State.endedOk_nnodes (s : State) (op : BitVec 4) : (s.endedOk op).nnodes = s.nnodes := rfl
@[simp] theorem State.endedOk_rootValid (s : State) (op : BitVec 4) : (s.endedOk op).rootValid = s.rootValid := rfl
@[simp] theorem State.endedOk_rootIndex (s : State) (op : BitVec 4) : (s.endedOk op).rootIndex = s.rootIndex := rfl

/-- Settles O18: the body's one result (`buildTreeBody_eq`), and how many nodes it has (`builtTree_next`). -/
theorem buildTreeCompletes : Obligations.BuildTreeCompletes := by
  unfold Obligations.BuildTreeCompletes
  intro s
  refine ⟨_, exec_buildTree s, rfl, s.built_nsym, ?_, ?_, ?_⟩
  · rw [State.endedOk_nnodes, State.endedOk_nsym, s.built_nnodes, s.built_nsym]
    split <;> omega
  · rw [State.endedOk_rootValid, State.endedOk_nsym, s.built_rootValid, s.built_nsym]
  · rw [State.endedOk_rootIndex, State.endedOk_nnodes, s.built_rootIndex, s.built_nnodes]

/-! ## The leaves (42_tree_builder R121) -/

theorem Builder.partOf_self (b : Builder) : b.PartOf b.nodes := fun _ _ => rfl

/-- The leaves stay where the load put them. -/
theorem loadedLeaves_partOf_builtTree (s : State) : (loadedLeaves s).PartOf (builtTree s).nodes :=
  Builder.PartOf.of_mergeLoop (loadedLeaves_sound s) (builtTree s).partOf_self

/-- Settles O19: the load pushes the leaves in order (`nodeAt_leaf`), and no merge rewrites one. -/
theorem buildTreeLeaves : Obligations.BuildTreeLeaves := by
  unfold Obligations.BuildTreeLeaves
  intro s t hexec k x hk
  cases eq_of_exec_buildTree hexec
  exact nodeAt_leaf (loadedLeaves_partOf_builtTree s) hk

/-! ## Building again (42_tree_builder R123) -/

/-- The build over its own finished table does the same loads and merges. -/
theorem builtTree_built (s : State) : builtTree s.built = builtTree s := by
  have hpart := loadedLeaves_partOf_builtTree s
  have hload : loadedLeaves s.built = (loadedLeaves s).over (builtTree s).nodes := by
    have hroom := presentSymbols_length_le s.freq
    rw [loadedLeaves_eq] at hpart ⊢
    rw [loadedLeaves_eq]
    exact Builder.over_pushes hpart (by rw [presentLeaves_length]; show 0 + _ ≤ _; omega)
  rw [builtTree, hload]
  exact mergeLoop_over (loadedLeaves_sound s) (builtTree s).partOf_self

/-- Settles O24: building over the finished table gives the same builder (`builtTree_built`), so the same registers. -/
theorem buildTreeTwiceIsOnce : Obligations.BuildTreeTwiceIsOnce := by
  unfold Obligations.BuildTreeTwiceIsOnce
  intro s t hexec
  cases eq_of_exec_buildTree hexec
  have hagain : builtTree (s.built.endedOk 3) = builtTree s := builtTree_built s
  rw [exec_buildTree, State.built, hagain]
  simp [State.built, State.endedOk, BitVec.or_assoc]

end Sys2Proof.Machine

/-! Proofs: the merge FSM of BUILD_TREE (42_tree_builder R128). -/

namespace Sys2Proof.Machine

theorem BuildFsm.iterate_add (k : Nat) : ∀ (j : Nat) (m : BuildFsm), m.iterate (j + k) = (m.iterate j).iterate k
  | 0, m => by rw [Nat.zero_add, BuildFsm.iterate]
  | j + 1, m => by
    rw [Nat.add_right_comm, BuildFsm.iterate, BuildFsm.iterate_add k j, BuildFsm.iterate]

/-- B_LOAD from symbol `x` on loads the leaves of the symbols left and goes on to B_CHECK. -/
theorem BuildFsm.iterate_load (s : State) : ∀ (m x : Nat) (b : Builder), x + m = 255 →
    BuildFsm.iterate (m + 1) { phase := .load x, builder := b, block := s } =
      { phase := .check
        builder := leafLoad ((List.range' x (m + 1)).map fun i => s.freqAt (BitVec.ofNat 8 i)) x b
        block := s }
  | 0, x, b, hx => by
    simp only [BuildFsm.iterate, BuildFsm.next, if_pos (show x = 255 from hx)]
    rfl
  | m + 1, x, b, hx => by
    rw [BuildFsm.iterate]
    simp only [BuildFsm.next, if_neg (show x ≠ 255 by omega)]
    exact BuildFsm.iterate_load s m (x + 1) _ (by omega)

theorem BuildFsm.iterate_start (s : State) :
    (BuildFsm.start s).iterate 256 = { phase := .check, builder := loadedLeaves s, block := s } := by
  rw [loadedLeaves, freq_toList, List.range_eq_range']
  exact BuildFsm.iterate_load s 255 0 _ rfl

/-- B_CHECK, B_POP1, B_POP2 and B_MERGE are one merge step. -/
theorem BuildFsm.iterate_merge {b b' : Builder} (h : mergeStep b = some b') (s : State) :
    BuildFsm.iterate 4 { phase := .check, builder := b, block := s } =
      { phase := .check, builder := b', block := s } := by
  have hlong : ¬ b.queue.length ≤ 1 := fun hshort => by simp [mergeStep_eq_none_iff.2 hshort] at h
  obtain ⟨a, c, q, q', hfirst, hsecond, rfl⟩ := exists_pops_of_mergeStep h
  simp only [BuildFsm.iterate, BuildFsm.next, if_neg hlong, hfirst, hsecond]

/-- From B_CHECK the FSM runs the merge loop and writes the results in B_DONE. -/
theorem BuildFsm.iterate_check (s : State) : ∀ (fuel : Nat) (b : Builder), b.queue.length ≤ fuel + 1 →
    ∃ k, BuildFsm.iterate k { phase := .check, builder := b, block := s } =
      { phase := .done
        builder := mergeLoop fuel b
        block := BuildFsm.results { phase := .check, builder := mergeLoop fuel b, block := s } } := by
  intro fuel
  induction fuel with
  | zero =>
    intro b hshort
    exact ⟨1, by simp only [BuildFsm.iterate, BuildFsm.next, if_pos (show b.queue.length ≤ 1 from hshort), mergeLoop]⟩
  | succ fuel ih =>
    intro b hfuel
    cases hstep : mergeStep b with
    | none =>
      rw [mergeLoop_of_none hstep]
      exact ⟨1, by simp only [BuildFsm.iterate, BuildFsm.next, if_pos (mergeStep_eq_none hstep)]⟩
    | some b' =>
      obtain ⟨a, c, q, hperm, hb'⟩ := mergeStep_eq_some hstep
      have hlen : b'.queue.length + 1 = b.queue.length := by rw [hb', hperm.length_eq]; simp [Builder.push]
      obtain ⟨k, hk⟩ := ih b' (by omega)
      refine ⟨4 + k, ?_⟩
      rw [BuildFsm.iterate_add, BuildFsm.iterate_merge hstep, hk, mergeLoop_of_some hstep]

/-- What B_CHECK writes over the finished table is BUILD_TREE's result. -/
theorem BuildFsm.results_builtTree (s : State) :
    BuildFsm.results { phase := .check, builder := builtTree s, block := s } = s.built := by
  simp only [BuildFsm.results, length_filter_freq]
  rfl

/-- Settles O47: 256 loads (`iterate_start`), then one merge step per round of B_CHECK, B_POP1, B_POP2 and B_MERGE
(`iterate_check`). -/
theorem mergeFsmAgrees : Obligations.MergeFsmAgrees := by
  unfold Obligations.MergeFsmAgrees
  intro s
  obtain ⟨k, hk⟩ := BuildFsm.iterate_check s (loadedLeaves s).queue.length (loadedLeaves s) (Nat.le_succ _)
  have hend : (BuildFsm.start s).iterate (256 + k) = { phase := .done, builder := builtTree s, block := s.built } := by
    rw [BuildFsm.iterate_add, BuildFsm.iterate_start, hk, ← BuildFsm.results_builtTree]
    rfl
  exact ⟨256 + k, by rw [hend], by rw [hend, buildTreeBody_eq]⟩

end Sys2Proof.Machine

/-! Proofs: each internal node joins the first two of the queue (42_tree_builder R120, R122), and its count is exact
(R130). The invariants of the merge loop speak of the finished table. -/

namespace Sys2Proof.Machine

/-! ## Nodes by a plain index -/

@[simp] theorem State.nodeN_toNat (s : State) (i : BitVec 9) : s.nodeN i.toNat = nodeAt s.nodes i := by
  rw [State.nodeN, BitVec.ofNat_toNat, BitVec.setWidth_eq]

theorem State.keyLt_iff {s : State} {i j : BitVec 9} :
    s.KeyLt i.toNat j.toNat ↔ nodeKey s.nodes i < nodeKey s.nodes j := by
  rw [nodeKey_lt_iff, State.KeyLt, s.nodeN_toNat, s.nodeN_toNat]

/-! ## The merge loop's invariant -/

/-- NODE[k] joins the two nodes that come first among those waiting when it is created (42_tree_builder R122). -/
structure State.JoinsFirstTwo (t : State) (k : Nat) : Prop where
  inner : (t.nodeN k).isLeaf = false
  symbol : (t.nodeN k).symbol = 0
  count : (t.nodeN k).count = (nodeAt t.nodes (t.nodeN k).left).count + (nodeAt t.nodes (t.nodeN k).right).count
  left_waits : t.Waiting k (t.nodeN k).left.toNat
  right_waits : t.Waiting k (t.nodeN k).right.toNat
  ordered : t.KeyLt (t.nodeN k).left.toNat (t.nodeN k).right.toNat
  first : ∀ i, t.Waiting k i → i ≠ (t.nodeN k).left.toNat → i ≠ (t.nodeN k).right.toNat →
    t.KeyLt (t.nodeN k).right.toNat i

/-- Before a merge, `t` being the block with the finished table: the queue holds the waiting nodes, each once, and every
internal node created so far joins the first two of its time. -/
structure State.Merging (t : State) (b : Builder) : Prop where
  leaves : t.nsym.toNat ≤ b.next
  nodup : b.queue.Nodup
  queued : ∀ i : BitVec 9, i ∈ b.queue ↔ t.Waiting b.next i.toNat
  joins : ∀ k, t.nsym.toNat ≤ k → k < b.next → t.JoinsFirstTwo k

/-- Creating NODE[k] takes its children off the queue and puts NODE[k] on it. -/
theorem State.waiting_succ {t : State} {k : Nat} (hleaves : t.nsym.toNat ≤ k)
    (hbelow : ∀ j, t.nsym.toNat ≤ j → j < k + 1 → (t.nodeN j).left.toNat < j ∧ (t.nodeN j).right.toNat < j) (i : Nat) :
    t.Waiting (k + 1) i ↔
      i = k ∨ (t.Waiting k i ∧ (t.nodeN k).left.toNat ≠ i ∧ (t.nodeN k).right.toNat ≠ i) := by
  constructor
  · rintro ⟨hlt, hfree⟩
    rcases Nat.lt_succ_iff_lt_or_eq.1 hlt with hi | hi
    · exact .inr ⟨⟨hi, fun j hj hjk => hfree j hj (by omega)⟩, hfree k hleaves (Nat.lt_succ_self k)⟩
    · exact .inl hi
  · rintro (rfl | ⟨⟨hlt, hfree⟩, hk⟩)
    · refine ⟨Nat.lt_succ_self i, fun j hj hji => ?_⟩
      have := hbelow j hj hji
      omega
    · refine ⟨Nat.lt_succ_of_lt hlt, fun j hj hjk => ?_⟩
      rcases Nat.lt_succ_iff_lt_or_eq.1 hjk with hj' | rfl
      · exact hfree j hj hj'
      · exact hk

theorem State.nodeN_of_mergesOn {t : State} {b b' : Builder} {a c : BitVec 9} {q q' : List (BitVec 9)}
    (hmerge : b.MergesOn t.nodes b' a c q q') : t.nodeN b.next = mergedNode t.nodes a c := hmerge.node

section
variable {t : State} {b b' : Builder} {a c : BitVec 9} {q q' : List (BitVec 9)}
  (h : t.Merging b) (hmerge : b.MergesOn t.nodes b' a c q q')
include h hmerge

/-- The node a merge creates joins the first two of the queue. -/
theorem State.Merging.joinsFirstTwo : t.JoinsFirstTwo b.next := by
  obtain ⟨hkeys, hrest⟩ := hmerge.keys h.nodup
  have hwaits : ∀ i ∈ a :: c :: q', t.Waiting b.next i.toNat :=
    fun i hi => (h.queued i).1 (hmerge.perm.mem_iff.2 hi)
  have hnode := State.nodeN_of_mergesOn hmerge
  refine ⟨?_, ?_, ?_, ?_, ?_, ?_, ?_⟩ <;> rw [hnode]
  · rfl
  · rfl
  · rfl
  · exact hwaits a (by simp)
  · exact hwaits c (by simp)
  · exact State.keyLt_iff.2 hkeys
  · intro i hi hia hic
    have hindex : (BitVec.ofNat 9 i).toNat = i := toNat_ofNat_of_room (hi.1.trans hmerge.room)
    rw [← hindex] at hi hia hic ⊢
    have hmem := hmerge.perm.mem_iff.1 ((h.queued _).2 hi)
    simp only [List.mem_cons] at hmem
    rcases hmem with heq | heq | hmem
    · exact absurd (congrArg BitVec.toNat heq) hia
    · exact absurd (congrArg BitVec.toNat heq) hic
    · exact State.keyLt_iff.2 (hrest _ hmem)

/-- The waiting nodes after a merge: those left in the queue, and the new one. -/
theorem State.Merging.mem_queue_merged (i : BitVec 9) :
    i ∈ q' ++ [BitVec.ofNat 9 b.next] ↔
      i.toNat = b.next ∨ (t.Waiting b.next i.toNat ∧ a.toNat ≠ i.toNat ∧ c.toNat ≠ i.toNat) := by
  have hdistinct := hmerge.perm.nodup_iff.1 h.nodup
  simp only [List.nodup_cons, List.mem_cons, not_or] at hdistinct
  obtain ⟨⟨-, ha⟩, hc, -⟩ := hdistinct
  have hnew : i = BitVec.ofNat 9 b.next ↔ i.toNat = b.next := by
    rw [← BitVec.toNat_inj, toNat_ofNat_of_room hmerge.room]
  rw [List.mem_append, List.mem_singleton, hnew, ← h.queued, hmerge.perm.mem_iff, List.mem_cons, List.mem_cons, ne_eq,
    ne_eq, BitVec.toNat_inj, BitVec.toNat_inj, or_comm]
  refine or_congr_right ⟨fun hi => ⟨.inr (.inr hi), ?_, ?_⟩, ?_⟩
  · rintro rfl
    exact ha hi
  · rintro rfl
    exact hc hi
  · rintro ⟨hi, hia, hic⟩
    exact (hi.resolve_left (Ne.symm hia)).resolve_left (Ne.symm hic)

theorem State.Merging.merge : t.Merging b' := by
  have hjoins : ∀ k, t.nsym.toNat ≤ k → k < b.next + 1 → t.JoinsFirstTwo k := by
    intro k hleaves hk
    rcases Nat.lt_succ_iff_lt_or_eq.1 hk with hlt | rfl
    · exact h.joins k hleaves hlt
    · exact h.joinsFirstTwo hmerge
  have hwaiting := State.waiting_succ h.leaves fun j hj hjk =>
    ⟨(hjoins j hj hjk).left_waits.1, (hjoins j hj hjk).right_waits.1⟩
  rw [State.nodeN_of_mergesOn hmerge] at hwaiting
  have hqueued : ∀ i : BitVec 9, i ∈ b'.queue ↔ t.Waiting (b.next + 1) i.toNat := by
    intro i
    rw [hmerge.queue_eq, hwaiting]
    exact h.mem_queue_merged hmerge i
  have hnodup : b'.queue.Nodup := by
    have hrest : q'.Nodup := ((hmerge.perm.nodup_iff.1 h.nodup).of_cons).of_cons
    rw [hmerge.queue_eq, List.nodup_append]
    refine ⟨hrest, List.nodup_singleton _, fun i hi j hj hij => ?_⟩
    rw [List.mem_singleton.1 hj] at hij
    have hlt := ((h.queued i).1 (hmerge.perm.mem_iff.2 (by simp [hi]))).1
    rw [hij, toNat_ofNat_of_room hmerge.room] at hlt
    exact Nat.lt_irrefl _ hlt
  refine ⟨?_, hnodup, ?_, ?_⟩ <;> rw [hmerge.next_eq]
  · exact Nat.le_succ_of_le h.leaves
  · exact hqueued
  · exact hjoins

end

/-- The loaded leaves all wait. -/
theorem State.merging_loadedLeaves (s : State) : (s.built.endedOk 3).Merging (loadedLeaves s) := by
  have hroom := presentSymbols_length_le s.freq
  have hnsym : (s.built.endedOk 3).nsym.toNat = (presentSymbols s.freq).length := s.built_nsym
  have hindex : ∀ i < (presentSymbols s.freq).length, (BitVec.ofNat 9 i).toNat = i :=
    fun i hi => toNat_ofNat_of_room (by omega)
  refine ⟨?_, ?_, fun i => ?_, fun k hleaves hk => ?_⟩
  · rw [loadedLeaves_next, hnsym]
  · rw [loadedLeaves_queue]
    refine List.Nodup.map_on (fun i hi j hj heq => ?_) List.nodup_range
    rw [← hindex i (List.mem_range.1 hi), ← hindex j (List.mem_range.1 hj), heq]
  · rw [loadedLeaves_queue, loadedLeaves_next, List.mem_map]
    constructor
    · rintro ⟨j, hj, rfl⟩
      rw [List.mem_range] at hj
      rw [hindex j hj]
      exact ⟨hj, fun k hleaves hk => by omega⟩
    · rintro ⟨hi, -⟩
      exact ⟨i.toNat, List.mem_range.2 hi, by rw [BitVec.ofNat_toNat, BitVec.setWidth_eq]⟩
  · rw [loadedLeaves_next] at hk
    omega

theorem State.merging_builtTree (s : State) : (s.built.endedOk 3).Merging (builtTree s) :=
  mergeLoop_keeps (f := (builtTree s).nodes) (fun _ h hmerge => h.merge hmerge) (loadedLeaves_sound s)
    (builtTree s).partOf_self s.merging_loadedLeaves

/-- Every internal node of the finished tree joins the first two of its time. -/
theorem joinsFirstTwo_of_exec {s t : State} (hexec : exec .buildTree s = .next t) {k : Nat}
    (hleaves : t.nsym.toNat ≤ k) (hk : k < t.nnodes.toNat) : t.JoinsFirstTwo k := by
  cases eq_of_exec_buildTree hexec
  rw [State.endedOk_nnodes, s.built_nnodes, ← builtTree_next] at hk
  exact s.merging_builtTree.joins k hleaves hk

/-- Settles O20: the merge loop's invariant (`State.Merging`), which each merge keeps. -/
theorem buildTreeMergesFirstTwo : Obligations.BuildTreeMergesFirstTwo := by
  unfold Obligations.BuildTreeMergesFirstTwo
  intro s t hexec k hleaves hk
  obtain ⟨hinner, hsymbol, hcount, hleft, hright, hordered, hfirst⟩ := joinsFirstTwo_of_exec hexec hleaves hk
  simp only [State.nodeN_toNat]
  exact ⟨hinner, hsymbol, hcount, hleft, hright, hordered, hfirst⟩

end Sys2Proof.Machine

/-! Proofs: the counts of the finished tree (42_tree_builder R130), and GEN_CODES on it, first for one symbol and for none
(R124, R125). -/

namespace Sys2Proof.Machine

/-! ## Exact counts (42_tree_builder R130) -/

/-- Before a merge, `t` being the block with the finished table: the counts in the queue add up to `total`, and every
internal node created so far has the exact sum of its children's counts. -/
structure State.ExactCounts (t : State) (total : Nat) (b : Builder) : Prop where
  sum : (b.queue.map fun i => (nodeAt t.nodes i).count.toNat).sum = total
  exact : ∀ k, t.nsym.toNat ≤ k → k < b.next →
    (t.nodeN k).count.toNat =
      (nodeAt t.nodes (t.nodeN k).left).count.toNat + (nodeAt t.nodes (t.nodeN k).right).count.toNat
  bound : ∀ k, t.nsym.toNat ≤ k → k < b.next → (t.nodeN k).count.toNat ≤ total

/-- Two counts of the queue add up to at most its sum, so below 2^32 the merge's addition does not wrap. -/
theorem State.ExactCounts.merge {t : State} {total : Nat} {b b' : Builder} {a c : BitVec 9} {q q' : List (BitVec 9)}
    (hfits : total < 2 ^ 32) (h : t.ExactCounts total b) (hmerge : b.MergesOn t.nodes b' a c q q') :
    t.ExactCounts total b' := by
  have hnode := State.nodeN_of_mergesOn hmerge
  have hsum := (hmerge.perm.map fun i => (nodeAt t.nodes i).count.toNat).sum_nat
  rw [h.sum, List.map_cons, List.map_cons, List.sum_cons, List.sum_cons] at hsum
  have hcount : (t.nodeN b.next).count.toNat = (nodeAt t.nodes a).count.toNat + (nodeAt t.nodes c).count.toNat := by
    rw [hnode]
    exact BitVec.toNat_add_of_lt (by omega)
  refine ⟨?_, fun k hleaves hk => ?_, fun k hleaves hk => ?_⟩
  · rw [hmerge.queue_eq, List.map_append, List.sum_append, List.map_singleton, List.sum_singleton]
    change _ + (t.nodeN b.next).count.toNat = _
    omega
  · rw [hmerge.next_eq] at hk
    rcases Nat.lt_succ_iff_lt_or_eq.1 hk with hlt | rfl
    · exact h.exact k hleaves hlt
    · rw [hcount, hnode]
      rfl
  · rw [hmerge.next_eq] at hk
    rcases Nat.lt_succ_iff_lt_or_eq.1 hk with hlt | rfl
    · exact h.bound k hleaves hlt
    · omega

theorem map_nodeAt_loadedLeaves {s : State} {f : Vector Node 511} (h : (loadedLeaves s).PartOf f) :
    (loadedLeaves s).queue.map (nodeAt f) = presentLeaves s.freq := by
  rw [loadedLeaves_queue, List.map_map]
  refine List.ext_getElem (by simp) fun k hk _ => ?_
  rw [List.length_map, List.length_range] at hk
  simpa [presentLeaves, State.freqAt] using nodeAt_leaf h (List.getElem?_eq_getElem hk)

theorem State.exactCounts_loadedLeaves (s : State) :
    (s.built.endedOk 3).ExactCounts (freqSum s.freq) (loadedLeaves s) := by
  have hnsym : (s.built.endedOk 3).nsym.toNat = (presentSymbols s.freq).length := s.built_nsym
  have hleaves := map_nodeAt_loadedLeaves (loadedLeaves_partOf_builtTree s)
  refine ⟨?_, fun k hle hk => ?_, fun k hle hk => ?_⟩
  · calc ((loadedLeaves s).queue.map fun i => (nodeAt (builtTree s).nodes i).count.toNat).sum
      _ = (((loadedLeaves s).queue.map (nodeAt (builtTree s).nodes)).map fun nd => nd.count.toNat).sum := by
        rw [List.map_map]; rfl
      _ = freqSum s.freq := by rw [hleaves, presentLeaves, List.map_map]; exact sum_presentSymbols s.freq
  · rw [loadedLeaves_next] at hk
    omega
  · rw [loadedLeaves_next] at hk
    omega

/-- TOTAL is a word, so under its rule the counts of the whole build are exact. -/
theorem State.exactCounts_builtTree {s : State} (htotal : s.TotalOk) :
    (s.built.endedOk 3).ExactCounts (freqSum s.freq) (builtTree s) :=
  have hfits : freqSum s.freq < 2 ^ 32 := htotal ▸ s.total.isLt
  mergeLoop_keeps (f := (builtTree s).nodes) (fun _ h hmerge => h.merge hfits hmerge) (loadedLeaves_sound s)
    (builtTree s).partOf_self s.exactCounts_loadedLeaves

/-- Settles O25: the counts in the queue always add up to TOTAL (`State.ExactCounts`), so no merge's addition wraps. -/
theorem countsNeverWrap : Obligations.CountsNeverWrap := by
  unfold Obligations.CountsNeverWrap
  intro s t htotal hexec k hleaves hk
  cases eq_of_exec_buildTree hexec
  rw [State.endedOk_nnodes, s.built_nnodes, ← builtTree_next] at hk
  have hcounts := State.exactCounts_builtTree htotal
  simp only [State.nodeN_toNat]
  exact ⟨hcounts.exact k hleaves hk, htotal ▸ hcounts.bound k hleaves hk⟩

/-! ## GEN_CODES after the build (42_tree_builder R124, R125, R127) -/

theorem genCodesBody_of_no_symbol {s : State} (hvalid : s.treeValid = true) (hnsym : s.nsym = 0) :
    genCodesBody s = .done { s with cb := emptyBook } := by
  simp [genCodesBody, hvalid, hnsym]

theorem genCodesBody_of_one_symbol {s : State} (hvalid : s.treeValid = true) (hnsym : s.nsym = 1) :
    genCodesBody s =
      .done { s with cb := setCb emptyBook (nodeAt s.nodes s.rootIndex).symbol { len := 1, code := 0 } } := by
  simp [genCodesBody, hvalid, hnsym]

/-- With no path above MAX_CODE_LEN every leaf gets its path for a code (43_codebook R140). -/
theorem genCodesBody_of_paths {s : State} {ls : List (Byte × List Bool)} (hvalid : s.treeValid = true)
    (hzero : s.nsym ≠ 0) (hone : s.nsym ≠ 1) (hpaths : s.paths = some ls)
    (hshort : ∀ l ∈ ls, l.2.length ≤ s.cfg.maxCodeLen) :
    genCodesBody s = .done { s with cb := writeCodes ls emptyBook } := by
  have hnone : lowestSymbol (overLong s.cfg.maxCodeLen ls) = none :=
    lowestSymbol_eq_none.2 (overLong_eq_nil.2 hshort)
  simp only [genCodesBody, hvalid, if_neg hzero, if_neg hone, hpaths, hnone, if_neg (show ¬ true = false by decide)]

/-- GEN_CODES after a body that ends is a command without an error. -/
theorem exec_genCodes_of_done {s u : State} (h : genCodesBody (s.accept (encode .genCodes)) = .done u) :
    exec .genCodes s = .next (u.endedOk 4) := by
  obtain ⟨-, hop⟩ := Laws.CommandWord.genCodes
  rw [exec_done (i := .genCodes) h, hop]

/-- The symbols present where only one has a count. -/
theorem presentSymbols_eq_singleton {s : State} {x : Byte} (hx : s.freqAt x ≠ 0)
    (hothers : ∀ y, y ≠ x → s.freqAt y = 0) : presentSymbols s.freq = [x] := by
  rw [← List.perm_singleton, List.perm_ext_iff_of_nodup (presentSymbols_nodup _) (List.nodup_singleton x)]
  intro y
  rw [mem_presentSymbols, List.mem_singleton]
  constructor
  · intro hy
    by_contra hne
    exact hy (hothers y hne)
  · rintro rfl
    exact hx

theorem presentSymbols_eq_nil {s : State} (h : ∀ y, s.freqAt y = 0) : presentSymbols s.freq = [] :=
  List.eq_nil_iff_forall_not_mem.2 fun y hy => mem_presentSymbols.1 hy (h y)

/-- With one symbol the builder writes its leaf into NODE[0] and nothing else (42_tree_builder R124). -/
theorem builtTree_of_singleton {s : State} {x : Byte} (h : presentSymbols s.freq = [x]) :
    builtTree s = (Builder.empty s.nodes).push (leafNode x (s.freqAt x)) := by
  rw [builtTree_of_short (by rw [h]; exact Nat.le_refl 1), loadedLeaves_eq, presentLeaves, h]
  rfl

theorem State.built_of_singleton {s : State} {x : Byte} (h : presentSymbols s.freq = [x]) :
    s.built = { s with
      nodes := setNode s.nodes 0 (leafNode x (s.freqAt x)), nsym := 1, nnodes := 1, rootValid := true, rootIndex := 0,
      treeValid := true } := by
  rw [State.built, builtTree_of_singleton h, h]
  rfl

theorem State.built_of_nil {s : State} (h : presentSymbols s.freq = []) :
    s.built = { s with nsym := 0, nnodes := 0, rootValid := false, rootIndex := 0, treeValid := true } := by
  rw [State.built, builtTree_of_short (by rw [h]; exact Nat.zero_le 1), loadedLeaves_of_none h, h]
  rfl

/-- Settles O22: the one leaf is the whole tree (`State.built_of_singleton`), and GEN_CODES's case of one symbol. -/
theorem buildTreeOneSymbol : Obligations.BuildTreeOneSymbol := by
  unfold Obligations.BuildTreeOneSymbol
  intro s x hx hothers
  have hbuilt := State.built_of_singleton (presentSymbols_eq_singleton hx hothers)
  have hleaf : nodeAt (setNode s.nodes 0 (leafNode x (s.freqAt x))) 0 = leafNode x (s.freqAt x) :=
    nodeAt_setNode_self (i := 0) (by decide)
  have hexec := exec_buildTree s
  rw [hbuilt] at hexec
  refine ⟨_, _, hexec, rfl, hleaf, fun i hle hi => ?_, exec_genCodes_of_done (genCodesBody_of_one_symbol rfl rfl), rfl,
    ?_⟩
  · have hindex := toNat_ofNat_of_room hi
    show nodeAt (setNode s.nodes 0 _) (BitVec.ofNat 9 i) = nodeAt s.nodes (BitVec.ofNat 9 i)
    rw [nodeAt_setNode _ _ _ _ (by omega), if_neg (by omega)]
  · show (setCb emptyBook (nodeAt (setNode s.nodes 0 _) 0).symbol _)[x.toNat]'x.isLt = _
    rw [hleaf, getElem_setCb]
    exact if_pos rfl

/-- PACK of an empty input packs nothing (44_bitpack R150). -/
theorem packBody_of_empty {s : State} (h : s.inLen = 0) : packBody s = .done { s with bitLen := 0 } := by
  simp [packBody, h, State.inSymbols, State.readBytes, Memory.readBytes, packLoop, State.writePay, byteCount,
    streamBytes, State.writeBytes, Memory.writeBytes]

/-- Settles O23: no leaf is loaded (`State.built_of_nil`), then GEN_CODES's case of no symbol and PACK of nothing. -/
theorem buildTreeNoSymbol : Obligations.BuildTreeNoSymbol := by
  unfold Obligations.BuildTreeNoSymbol
  intro s hnone
  have hexec := exec_buildTree s
  rw [State.built_of_nil (presentSymbols_eq_nil hnone)] at hexec
  refine ⟨_, _, _, hexec, rfl, exec_genCodes_of_done (genCodesBody_of_no_symbol rfl rfl), rfl, fun x => ?_,
    fun hempty => ⟨exec_done (i := .pack) (packBody_of_empty hempty), rfl, rfl⟩⟩
  show emptyBook[x.toNat]'x.isLt = _
  rw [emptyBook, Vector.getElem_replicate]
  rfl

end Sys2Proof.Machine

/-! Proofs: the tree properties (42_tree_builder R127): parents, the root's count, depth, and GEN_CODES's success. -/

namespace Sys2Proof.Machine

/-! ## Parents (42_tree_builder R127 item 3) -/

/-- A child of NODE[k] is no other node's child: it still waited when NODE[k] was created. -/
theorem State.JoinsFirstTwo.child_unique {t : State} {i j k : Nat} (h : t.JoinsFirstTwo k)
    (hk : (t.nodeN k).left.toNat = i ∨ (t.nodeN k).right.toNat = i) (hleaves : t.nsym.toNat ≤ j)
    (hj : (t.nodeN j).left.toNat = i ∨ (t.nodeN j).right.toNat = i) : k ≤ j := by
  by_contra hlt
  have hwaits : t.Waiting k i := by
    rcases hk with rfl | rfl
    · exact h.left_waits
    · exact h.right_waits
  obtain ⟨hleft, hright⟩ := hwaits.2 j hleaves (Nat.not_le.1 hlt)
  exact hj.elim hleft hright

/-- The queue ends with the root alone (42_tree_builder R126). -/
theorem builtTree_queue {s : State} (hpos : 1 ≤ (presentSymbols s.freq).length) :
    (builtTree s).queue = [s.built.rootIndex] := by
  have hmerging := s.merging_builtTree
  have hnsym : (s.built.endedOk 3).nsym.toNat = (presentSymbols s.freq).length := s.built_nsym
  have hsizes := (builtTree_sound s).sizes
  have hnext := builtTree_next s
  obtain ⟨r, hr⟩ := List.length_eq_one_iff.1 (show (builtTree s).queue.length = 1 by omega)
  have hroot : s.built.rootIndex ∈ (builtTree s).queue := by
    rw [hmerging.queued, s.built_rootIndex, hnext]
    refine ⟨by omega, fun j hj hjk => ?_⟩
    have hjoin := hmerging.joins j hj (by omega)
    have hleft := hjoin.left_waits.1
    have hright := hjoin.right_waits.1
    omega
  rw [hr] at hroot ⊢
  rw [List.mem_singleton.1 hroot]

/-- Every node but the root is some node's child: at the end only the root waits. -/
theorem State.exists_parent {s : State} (hpos : 1 ≤ (presentSymbols s.freq).length) {i : Nat}
    (hi : i < (builtTree s).next) (hroot : i ≠ s.built.rootIndex.toNat) :
    ∃ j, (s.built.endedOk 3).nsym.toNat ≤ j ∧ j < (builtTree s).next ∧
      (((s.built.endedOk 3).nodeN j).left.toNat = i ∨ ((s.built.endedOk 3).nodeN j).right.toNat = i) := by
  by_contra hnone
  have hindex := toNat_ofNat_of_room (hi.trans_le (builtTree_sound s).room)
  have hwaits : (s.built.endedOk 3).Waiting (builtTree s).next (BitVec.ofNat 9 i).toNat := by
    rw [hindex]
    exact ⟨hi, fun j hj hjk => ⟨fun h => hnone ⟨j, hj, hjk, .inl h⟩, fun h => hnone ⟨j, hj, hjk, .inr h⟩⟩⟩
  have hmem := (s.merging_builtTree.queued _).2 hwaits
  rw [builtTree_queue hpos, List.mem_singleton] at hmem
  exact hroot (hindex.symm.trans (congrArg BitVec.toNat hmem))

/-! ## The root's count (42_tree_builder R127 item 4) -/

theorem State.root_count {s : State} (hpos : 1 ≤ (presentSymbols s.freq).length) (htotal : s.TotalOk) :
    (nodeAt s.built.nodes s.built.rootIndex).count = s.total := by
  have hsum := (State.exactCounts_builtTree htotal).sum
  rw [builtTree_queue hpos, List.map_singleton, List.sum_singleton] at hsum
  exact BitVec.eq_of_toNat_eq (hsum.trans htotal.symm)

/-! ## Depth (42_tree_builder R127 item 5) -/

/-- A path from NODE[i] passes internal nodes of falling index only, and those are at `n` or above. -/
theorem followPath_length {nodes : Vector Node 511} {n m : Nat}
    (hshape : ∀ i : BitVec 9, i.toNat < m → NodeOk nodes n i) : ∀ {p : List Bool} {i j : BitVec 9}, i.toNat < m →
    followPath nodes i p = some j → p.length ≤ i.toNat + 1 - n
  | [], _, _, _, _ => Nat.zero_le _
  | b :: p, i, j, hi, h => by
    obtain ⟨hleaf, hinner⟩ := hshape i hi
    rw [followPath] at h
    split at h
    · cases h
    · rename_i hnot
      obtain ⟨hleft, hright, -⟩ := hinner (Bool.eq_false_iff.2 hnot)
      have hleaves : n ≤ i.toNat := Nat.not_lt.1 (mt hleaf.2 hnot)
      have hchild : (if b then (nodeAt nodes i).right else (nodeAt nodes i).left).toNat < i.toNat := by
        split
        · exact hright
        · exact hleft
      have ih := followPath_length hshape (hchild.trans hi) h
      rw [List.length_cons]
      omega

section
variable {s : State} (hpos : 1 ≤ (presentSymbols s.freq).length)
include hpos

theorem State.built_depth {p : List Bool} {i : BitVec 9} (h : followPath s.built.nodes s.built.rootIndex p = some i) :
    p.length ≤ (presentSymbols s.freq).length - 1 := by
  have hroot := s.built_rootIndex
  have hnext := builtTree_next s
  have hlength := followPath_length (builtTree_sound s).shape (by omega) h
  omega

/-- The walk of the finished tree ends, and no path is longer than n − 1. -/
theorem State.built_paths : ∃ ls, s.built.paths = some ls ∧
    ∀ l ∈ ls, l.2.length ≤ (presentSymbols s.freq).length - 1 := by
  have hroot := s.built_rootIndex
  have hnext := builtTree_next s
  have hroom := presentSymbols_length_le s.freq
  obtain ⟨ls, hls⟩ := exists_leafPaths (fun i _ => (builtTree_sound s).shape i) Config.nNode s.built.rootIndex []
    (by rw [Config.nNode]; omega) (by omega) (by omega)
  refine ⟨ls, hls, fun l hl => ?_⟩
  obtain ⟨p, i, hp, hfollow, -⟩ := (mem_leafPaths _ _ _ _ _ hls l.1 l.2).1 hl
  rw [hp]
  exact State.built_depth hpos hfollow

/-- At MAX_CODE_LEN = 255 GEN_CODES finds a code for every leaf. -/
theorem State.built_genCodes (hmax : s.cfg.maxCodeLen = 255) :
    ∃ u, exec .genCodes (s.built.endedOk 3) = .next u ∧ u.errCode = 0 := by
  have hnsym := s.built_nsym
  by_cases hone : s.built.nsym = 1
  · exact ⟨_, exec_genCodes_of_done (genCodesBody_of_one_symbol (s := (s.built.endedOk 3).accept _) rfl hone), rfl⟩
  · have hzero : s.built.nsym ≠ 0 := by
      intro hzero
      rw [hzero] at hnsym
      exact absurd hnsym.symm (Nat.ne_of_gt hpos)
    have hroom := presentSymbols_length_le s.freq
    obtain ⟨ls, hls, hshort⟩ := State.built_paths hpos
    have hfits : ∀ l ∈ ls, l.2.length ≤ s.cfg.maxCodeLen := fun l hl => (hshort l hl).trans (by omega)
    have hbody := genCodesBody_of_paths (s := (s.built.endedOk 3).accept (encode .genCodes)) rfl hzero hone hls hfits
    exact ⟨_, exec_genCodes_of_done hbody, rfl⟩

end

/-- Settles O21: sizes and shape by `builtTree_sound`, parents by the merge loop's invariant, the root's count by exact
counts, depth and GEN_CODES by the falling indices of a path. -/
theorem buildTreeProperties : Obligations.BuildTreeProperties := by
  unfold Obligations.BuildTreeProperties
  intro s t hexec hpos
  cases eq_of_exec_buildTree hexec
  have hpos' : 1 ≤ (presentSymbols s.freq).length := s.built_nsym ▸ hpos
  have hnsym : (s.built.endedOk 3).nsym.toNat = (presentSymbols s.freq).length := s.built_nsym
  have hnnodes : (s.built.endedOk 3).nnodes.toNat = (builtTree s).next := s.built_nnodes.trans (builtTree_next s).symm
  have hjoins := s.merging_builtTree.joins
  rw [hnnodes]
  refine ⟨?_, ?_, fun i hi => ?_, fun i hleaves hi => ?_, fun i hi hroot => ?_, fun htotal => ⟨?_, htotal⟩,
    fun p x hleaf => ?_, fun hmax => ?_⟩
  · rw [hnsym, builtTree_next]
  · exact hnsym ▸ presentSymbols_length_le s.freq
  · have hindex := toNat_ofNat_of_room (hi.trans_le (builtTree_sound s).room)
    obtain ⟨hleaf, -⟩ := (builtTree_sound s).shape (BitVec.ofNat 9 i) (hindex.trans_lt hi)
    rwa [hindex, ← hnsym] at hleaf
  · have hjoin := hjoins i hleaves hi
    refine ⟨hjoin.left_waits.1, hjoin.right_waits.1, fun heq => ?_⟩
    have hless := State.keyLt_iff.1 hjoin.ordered
    rw [heq] at hless
    exact Nat.lt_irrefl _ hless
  · obtain ⟨j, hj, hjn, hchild⟩ := State.exists_parent hpos' hi hroot
    refine ⟨j, ⟨hj, hjn, hchild⟩, fun k ⟨hk, hkn, hchild'⟩ => Nat.le_antisymm ?_ ?_⟩
    · exact (hjoins k hk hkn).child_unique hchild' hj hchild
    · exact (hjoins j hj hjn).child_unique hchild hk hchild'
  · rw [State.nodeN_toNat]
    exact State.root_count hpos' htotal
  · obtain ⟨i, hfollow, -⟩ := hleaf
    rw [hnsym]
    exact State.built_depth hpos' hfollow
  · exact State.built_genCodes hpos' hmax

end Sys2Proof.Machine

/-! Proofs: the traversal FSM of GEN_CODES (43_codebook R145). -/

namespace Sys2Proof.Machine

/-! ## The walk of the tree (43_codebook R141) -/

theorem leafPaths_of_leaf {nodes : Vector Node 511} {i : BitVec 9} (hleaf : (nodeAt nodes i).isLeaf = true)
    (fuel : Nat) (p : List Bool) : leafPaths nodes (fuel + 1) i p = some [((nodeAt nodes i).symbol, p)] := by
  rw [leafPaths, if_pos hleaf]

/-- Below an internal node stand the leaves of its two children. -/
theorem leafPaths_of_inner {nodes : Vector Node 511} {i : BitVec 9} (hinner : ¬ (nodeAt nodes i).isLeaf = true)
    {fuel : Nat} {p : List Bool} {ls : List (Byte × List Bool)} (h : leafPaths nodes (fuel + 1) i p = some ls) :
    ∃ l r, leafPaths nodes fuel (nodeAt nodes i).left (p ++ [false]) = some l ∧
      leafPaths nodes fuel (nodeAt nodes i).right (p ++ [true]) = some r ∧ ls = l ++ r := by
  rw [leafPaths, if_neg hinner] at h
  split at h
  · cases h
    exact ⟨_, _, ‹_›, ‹_›, rfl⟩
  · cases h

/-- The walk of any node finds a leaf. -/
theorem leafPaths_length_pos {nodes : Vector Node 511} : ∀ {fuel : Nat} {i : BitVec 9} {p : List Bool}
    {ls : List (Byte × List Bool)}, leafPaths nodes fuel i p = some ls → 0 < ls.length
  | 0, _, _, _, h => by cases h
  | fuel + 1, i, p, ls, h => by
    by_cases hleaf : (nodeAt nodes i).isLeaf = true
    · rw [leafPaths_of_leaf hleaf] at h
      cases h
      exact Nat.one_pos
    · obtain ⟨l, r, hl, -, rfl⟩ := leafPaths_of_inner hleaf h
      have := leafPaths_length_pos hl
      rw [List.length_append]
      omega

/-! ## Writing the codes (43_codebook R140) -/

theorem writeCodes_append : ∀ (ls ms : List (Byte × List Bool)) (cb : Vector CbEntry 256),
    writeCodes (ls ++ ms) cb = writeCodes ms (writeCodes ls cb)
  | [], _, _ => rfl
  | l :: ls, ms, cb => writeCodes_append ls ms (setCb cb l.1 (CbEntry.ofSeq l.2))

/-! ## Stack entries (43_codebook R145) -/

theorem val_concat (b : Bool) : ∀ p : List Bool, val (p ++ [b]) = 2 * val p + b.toNat
  | [] => by simp [val]
  | a :: p => by
    simp only [List.cons_append, val, val_concat b p, List.length_append, List.length_singleton, Nat.pow_succ]
    ring

/-- The stack entry of node `i` with the path `p`, its length and its partial code cut to the widths of R145. -/
def WalkEntry.ofPath (i : BitVec 9) (p : List Bool) : WalkEntry :=
  { node := i, len := BitVec.ofNat 8 p.length, code := BitVec.ofNat 255 (val p) }

@[simp] theorem WalkEntry.ofPath_node (i : BitVec 9) (p : List Bool) : (ofPath i p).node = i := rfl

/-- The left child's entry: a 0 is shifted in. -/
theorem WalkEntry.ofPath_left (i j : BitVec 9) (p : List Bool) :
    ({ node := j, len := (ofPath i p).len + 1, code := (ofPath i p).code <<< 1 } : WalkEntry) =
      ofPath j (p ++ [false]) := by
  have hcode : (ofPath i p).code <<< 1 = (ofPath j (p ++ [false])).code := by
    apply BitVec.eq_of_toNat_eq
    simp only [ofPath, val_concat, BitVec.toNat_shiftLeft, BitVec.toNat_ofNat, Nat.shiftLeft_eq]
    rw [Nat.mod_mul_mod, Nat.mul_comm]
    rfl
  rw [hcode]
  simp only [ofPath, List.length_append, BitVec.ofNat_add]
  rfl

/-- The right child's entry: a 1 is shifted in, so that its code differs from the left child's in the lowest bit. -/
theorem WalkEntry.ofPath_right (i j : BitVec 9) (p : List Bool) :
    ({ node := j, len := (ofPath i p).len + 1, code := ((ofPath i p).code <<< 1) ||| 1 } : WalkEntry) =
      ofPath j (p ++ [true]) := by
  have hleft : (ofPath i p).code <<< 1 = (ofPath j (p ++ [false])).code :=
    congrArg WalkEntry.code (ofPath_left i j p)
  have hor : 2 * val p + 1 = (2 * val p) ||| 1 := Nat.two_pow_add_eq_or_of_lt (i := 1) (by decide) (val p)
  rw [hleft]
  simp only [ofPath, List.length_append, val_concat, Bool.toNat_true, Bool.toNat_false, Nat.add_zero, hor,
    BitVec.ofNat_add, BitVec.ofNat_or]
  rfl

/-- What G_WALK writes at a leaf is the code of its path. -/
theorem WalkEntry.entry_ofPath (i : BitVec 9) {p : List Bool} (h : p.length ≤ 255) :
    ({ len := (ofPath i p).len, code := (ofPath i p).code.setWidth 256 } : CbEntry) = CbEntry.ofSeq p := by
  have hval : val p < 2 ^ 255 := (val_lt p).trans_le (Nat.pow_le_pow_right (by decide) h)
  rw [ofPath, CbEntry.ofSeq, BitVec.setWidth_ofNat_of_le_of_lt (by decide) hval]

/-! ## G_WALK (43_codebook R145) -/

theorem stackWalk_leaf {nodes : Vector Node 511} {e : WalkEntry} (hleaf : (nodeAt nodes e.node).isLeaf = true)
    (fuel : Nat) (stack : List WalkEntry) (cb : Vector CbEntry 256) :
    stackWalk nodes (fuel + 1) (e :: stack) cb =
      stackWalk nodes fuel stack
        (setCb cb (nodeAt nodes e.node).symbol { len := e.len, code := e.code.setWidth 256 }) := by
  rw [stackWalk, if_pos hleaf]

/-- An internal node's children go onto the stack with their own paths, the left one on top. -/
theorem stackWalk_inner {nodes : Vector Node 511} {i : BitVec 9} (hinner : ¬ (nodeAt nodes i).isLeaf = true)
    (p : List Bool) (fuel : Nat) (stack : List WalkEntry) (cb : Vector CbEntry 256) :
    stackWalk nodes (fuel + 1) (WalkEntry.ofPath i p :: stack) cb =
      stackWalk nodes fuel
        (WalkEntry.ofPath (nodeAt nodes i).left (p ++ [false]) ::
          WalkEntry.ofPath (nodeAt nodes i).right (p ++ [true]) :: stack) cb := by
  rw [stackWalk, WalkEntry.ofPath_node, if_neg hinner, WalkEntry.ofPath_left, WalkEntry.ofPath_right]

/-- A tree of `n` leaves takes 2n − 1 pops, which write its leaves' codes and leave `k` pops for the stack below. -/
theorem stackWalk_ofPath {nodes : Vector Node 511} : ∀ {fuel : Nat} {i : BitVec 9} {p : List Bool}
    {ls : List (Byte × List Bool)}, leafPaths nodes fuel i p = some ls → (∀ l ∈ ls, l.2.length ≤ 255) →
    ∀ {pops k : Nat} (stack : List WalkEntry) (cb : Vector CbEntry 256), pops + 1 = k + 2 * ls.length →
      stackWalk nodes pops (WalkEntry.ofPath i p :: stack) cb = stackWalk nodes k stack (writeCodes ls cb)
  | 0, _, _, _, h, _, _, _, _, _, _ => by cases h
  | fuel + 1, i, p, ls, h, hshort, pops, k, stack, cb, hpops => by
    by_cases hleaf : (nodeAt nodes i).isLeaf = true
    · rw [leafPaths_of_leaf hleaf] at h
      cases h
      have hlen : p.length ≤ 255 := hshort _ List.mem_cons_self
      obtain rfl : pops = k + 1 := Nat.succ.inj hpops
      exact (stackWalk_leaf (e := WalkEntry.ofPath i p) hleaf k stack cb).trans
        (by rw [WalkEntry.entry_ofPath i hlen]; rfl)
    · obtain ⟨l, r, hl, hr, rfl⟩ := leafPaths_of_inner hleaf h
      have hlpos := leafPaths_length_pos hl
      have hrpos := leafPaths_length_pos hr
      rw [List.length_append] at hpops
      obtain ⟨pops, rfl⟩ : ∃ n, pops = n + 1 := ⟨pops - 1, by omega⟩
      have hlshort : ∀ m ∈ l, m.2.length ≤ 255 := fun m hm => hshort m (List.mem_append_left r hm)
      have hrshort : ∀ m ∈ r, m.2.length ≤ 255 := fun m hm => hshort m (List.mem_append_right l hm)
      rw [stackWalk_inner hleaf, stackWalk_ofPath hl hlshort (k := k + 2 * r.length - 1) _ _ (by omega),
        stackWalk_ofPath hr hrshort (k := k) _ _ (by omega), writeCodes_append]

theorem stackWalk_nil (nodes : Vector Node 511) (fuel : Nat) (cb : Vector CbEntry 256) :
    stackWalk nodes fuel [] cb = some cb := by
  rw [stackWalk]

/-- Settles O48: by induction on the walk of the tree, whose leaves the stack visits in the same order
(`stackWalk_ofPath`); 256 leaves take 511 pops. -/
theorem traversalFsmAgrees : Obligations.TraversalFsmAgrees := by
  unfold Obligations.TraversalFsmAgrees
  intro s ls cb hpaths hleaves hshort
  have hpos := leafPaths_length_pos hpaths
  calc stackWalk s.nodes 511 (walkStart s) cb
    _ = stackWalk s.nodes (512 - 2 * ls.length) [] (writeCodes ls cb) :=
      stackWalk_ofPath hpaths hshort [] cb (by omega)
    _ = some (writeCodes ls cb) := stackWalk_nil _ _ _

end Sys2Proof.Machine

/-! Proofs: the code book GEN_CODES makes (43_codebook R140 to R144, R146). -/

namespace Sys2Proof.Machine

/-! ## Paths (43_codebook R141) -/

/-- A path leads on from where its first part leads. -/
theorem followPath_append (nodes : Vector Node 511) : ∀ (p q : List Bool) (i : BitVec 9),
    followPath nodes i (p ++ q) = (followPath nodes i p).bind fun j => followPath nodes j q
  | [], _, _ => rfl
  | b :: p, q, i => by
    simp only [List.cons_append, followPath]
    split
    · rfl
    · exact followPath_append nodes p q _

/-- No path leads on below a leaf. -/
theorem followPath_of_leaf {nodes : Vector Node 511} {i j : BitVec 9} (hleaf : (nodeAt nodes i).isLeaf = true)
    {p : List Bool} (h : followPath nodes i p = some j) : p = [] := by
  cases p with
  | nil => rfl
  | cons b p => simp [followPath, hleaf] at h

/-- The path to a leaf is no start of the path to another leaf (43_codebook R146). -/
theorem State.LeafAt.eq_of_prefix {s : State} {p q : List Bool} {x y : Byte} (hp : s.LeafAt p x) (hq : s.LeafAt q y)
    (h : p <+: q) : x = y := by
  obtain ⟨i, hi, hleaf, rfl⟩ := hp
  obtain ⟨j, hj, -, rfl⟩ := hq
  obtain ⟨r, rfl⟩ := h
  rw [followPath_append, hi, Option.bind_some] at hj
  cases followPath_of_leaf hleaf hj
  cases hj
  rfl

/-- The walk lists the leaves with their paths (43_codebook R141). -/
theorem State.mem_paths {s : State} {ls : List (Byte × List Bool)} (h : s.paths = some ls) {x : Byte} {p : List Bool} :
    (x, p) ∈ ls ↔ s.LeafAt p x := by
  rw [mem_leafPaths _ _ _ _ _ h]
  constructor
  · rintro ⟨r, i, rfl, hi⟩
    exact ⟨i, hi⟩
  · rintro ⟨i, hi⟩
    exact ⟨p, i, rfl, hi⟩

/-! ## A tree of two or more symbols -/

/-- The registers hold a tree of two or more symbols (10_state R52 items 2 to 4). -/
structure State.HasTree (s : State) : Prop where
  valid : s.treeValid = true
  several : 2 ≤ s.nsym.toNat
  symbols : s.nsym.toNat ≤ 256
  root : s.rootIndex.toNat = 2 * s.nsym.toNat - 1 - 1
  shape : ∀ i : BitVec 9, i.toNat < 2 * s.nsym.toNat - 1 → NodeOk s.nodes s.nsym.toNat i

theorem State.DataSound.hasTree {s : State} (h : s.DataSound) (hseveral : 2 ≤ s.nsym.toNat) : s.HasTree := by
  obtain ⟨hsymbols, hnnodes⟩ := h.counts
  obtain ⟨-, hroot⟩ := h.root
  rw [if_neg (by omega)] at hnnodes
  rw [hnnodes] at hroot
  refine ⟨?_, hseveral, hsymbols, hroot, fun i hi => State.treeOk_iff.1 h.shape i (by omega) (by omega)⟩
  by_contra hinvalid
  rw [h.valid (Bool.eq_false_iff.2 hinvalid)] at hseveral
  exact absurd hseveral (by decide)

theorem State.HasTree.exists_paths {s : State} (h : s.HasTree) : ∃ ls, s.paths = some ls := by
  obtain ⟨-, hseveral, hsymbols, hroot, hshape⟩ := h
  exact exists_leafPaths (fun i _ => hshape i) Config.nNode s.rootIndex [] (by rw [Config.nNode]; omega) (by omega)
    (by omega)

/-- With two or more symbols the root is no leaf, so no path is empty; none has more than NSYM − 1 bits (42_tree_builder
R127 item 5). -/
theorem State.HasTree.path_length {s : State} (h : s.HasTree) {p : List Bool} {x : Byte} (hleaf : s.LeafAt p x) :
    0 < p.length ∧ p.length ≤ 255 := by
  obtain ⟨-, hseveral, hsymbols, hroot, hshape⟩ := h
  obtain ⟨i, hi, hleaf, -⟩ := hleaf
  have hlength := followPath_length hshape (by omega) hi
  refine ⟨List.length_pos_iff.2 ?_, by omega⟩
  rintro rfl
  cases hi
  have := (hshape s.rootIndex (by omega)).1.1 hleaf
  omega

/-! ## Entries of the book (43_codebook R140) -/

theorem CbEntry.ofSeq_len_toNat {p : List Bool} (hle : p.length ≤ 255) : (CbEntry.ofSeq p).len.toNat = p.length :=
  (BitVec.toNat_ofNat _ _).trans (Nat.mod_eq_of_lt (by omega))

theorem CbEntry.ofSeq_len_ne_zero {p : List Bool} (hpos : 0 < p.length) (hle : p.length ≤ 255) :
    (CbEntry.ofSeq p).len ≠ 0 := by
  intro hzero
  have hlen := CbEntry.ofSeq_len_toNat hle
  rw [hzero] at hlen
  exact absurd hlen.symm (Nat.ne_of_gt hpos)

/-- CODE bits at positions at or above LEN are 0. -/
theorem CbEntry.ofSeq_code_lt {p : List Bool} (hle : p.length ≤ 255) :
    (CbEntry.ofSeq p).code.toNat < 2 ^ (CbEntry.ofSeq p).len.toNat := by
  have hval : (CbEntry.ofSeq p).code.toNat ≤ val p := (BitVec.toNat_ofNat _ _).trans_le (Nat.mod_le _ _)
  rw [CbEntry.ofSeq_len_toNat hle]
  exact hval.trans_lt (val_lt p)

@[simp] theorem getElem_emptyBook (x : Byte) : emptyBook[x.toNat]'x.isLt = CbEntry.zero :=
  Vector.getElem_replicate _

/-! ## The lowest symbol (43_codebook R144) -/

theorem lowestSymbol_eq_some : ∀ {ls : List (Byte × List Bool)} {l : Byte × List Bool}, lowestSymbol ls = some l →
    l ∈ ls ∧ ∀ m ∈ ls, l.1.toNat ≤ m.1.toNat
  | [], _, h => by cases h
  | k :: ls, l, h => by
    rw [lowestSymbol] at h
    split at h
    · rename_i hnone
      rw [lowestSymbol_eq_none.1 hnone]
      cases h
      simp
    · rename_i m hm
      obtain ⟨hmem, hle⟩ := lowestSymbol_eq_some hm
      simp only [List.mem_cons, forall_eq_or_imp]
      split at h
      · rename_i hkm
        cases h
        exact ⟨.inl rfl, Nat.le_refl _, fun n hn => hkm.trans (hle n hn)⟩
      · cases h
        exact ⟨.inr hmem, by omega, hle⟩

theorem mem_overLong {max : Nat} {ls : List (Byte × List Bool)} {l : Byte × List Bool} :
    l ∈ overLong max ls ↔ l ∈ ls ∧ max < l.2.length := by
  rw [overLong, List.mem_filter, decide_eq_true_eq]

/-! ## GEN_CODES by the number of symbols (43_codebook R140, R142, R143) -/

theorem genCodesBody_of_no_tree {s : State} (hinvalid : s.treeValid = false) :
    genCodesBody s = .raised { code := .noTree, pos := 0, sym := 0 } s := by
  rw [genCodesBody, if_pos hinvalid]

/-- With a path above MAX_CODE_LEN the lowest symbol of one is reported (43_codebook R144). -/
theorem genCodesBody_of_lowest {s : State} {ls : List (Byte × List Bool)} {l : Byte × List Bool}
    (hvalid : s.treeValid = true) (hzero : s.nsym ≠ 0) (hone : s.nsym ≠ 1) (hpaths : s.paths = some ls)
    (hlow : lowestSymbol (overLong s.cfg.maxCodeLen ls) = some l) :
    genCodesBody s = .raised { code := .codeTooLong, pos := l.2.length, sym := l.1 } { s with cb := emptyBook } := by
  simp only [genCodesBody, hvalid, if_neg hzero, if_neg hone, hpaths, hlow, if_neg (show ¬ true = false by decide)]

/-- GEN_CODES after a body that raises an error reports it. -/
theorem exec_genCodes_of_raised {s u : State} {e : CmdError}
    (h : genCodesBody (s.accept (encode .genCodes)) = .raised e u) :
    exec .genCodes s = .next (u.endedErr 4 e.code.bits e.pos e.sym) := by
  obtain ⟨-, hop⟩ := Laws.CommandWord.genCodes
  rw [exec_raised (i := .genCodes) h, hop]

/-- A body that ends with a new book changes nothing else. -/
theorem exec_genCodes_of_book {s : State} {cb : Vector CbEntry 256}
    (h : genCodesBody (s.accept (encode .genCodes)) = .done { s.accept (encode .genCodes) with cb := cb }) :
    exec .genCodes s = .next (({ s with cb := cb } : State).endedOk 4) :=
  (exec_genCodes_of_done h).trans rfl

theorem exec_genCodes_of_no_tree {s : State} (hinvalid : s.treeValid = false) :
    exec .genCodes s = .next (s.endedErr 4 4 0 0) :=
  exec_genCodes_of_raised (genCodesBody_of_no_tree (s := s.accept (encode .genCodes)) hinvalid)

/-- A GEN_CODES without error had a tree. -/
theorem treeValid_of_exec_genCodes {s t : State} (hexec : exec .genCodes s = .next t) (herr : t.err = false) :
    s.treeValid = true := by
  by_contra hinvalid
  cases (exec_genCodes_of_no_tree (Bool.eq_false_iff.2 hinvalid)).symm.trans hexec
  cases herr

theorem exec_genCodes_of_no_symbol {s : State} (hvalid : s.treeValid = true) (hnsym : s.nsym = 0) :
    exec .genCodes s = .next (({ s with cb := emptyBook } : State).endedOk 4) :=
  exec_genCodes_of_book (genCodesBody_of_no_symbol (s := s.accept (encode .genCodes)) hvalid hnsym)

theorem exec_genCodes_of_one_symbol {s : State} (hvalid : s.treeValid = true) (hnsym : s.nsym = 1) :
    exec .genCodes s = .next (({ s with
      cb := setCb emptyBook (nodeAt s.nodes s.rootIndex).symbol { len := 1, code := 0 } } : State).endedOk 4) :=
  exec_genCodes_of_book (genCodesBody_of_one_symbol (s := s.accept (encode .genCodes)) hvalid hnsym)

/-- The book of one symbol has one code. -/
theorem oneSymbolBook_len_ne_zero {x y : Byte} :
    ((setCb emptyBook x { len := 1, code := 0 })[y.toNat]'y.isLt).len ≠ 0 ↔ x = y := by
  rw [getElem_setCb]
  split
  · exact iff_of_true (by decide) ‹_›
  · rw [getElem_emptyBook]
    exact iff_of_false (not_not.2 rfl) ‹_›

/-- The three cases of GEN_CODES on a tree (43_codebook R140). -/
theorem nsym_cases (n : BitVec 9) : n = 0 ∨ n = 1 ∨ 2 ≤ n.toNat := by
  rw [← BitVec.toNat_inj, ← BitVec.toNat_inj]
  simp only [BitVec.ofNat_eq_ofNat, BitVec.toNat_ofNat]
  omega

/-- Settles O26: the two cases of GEN_CODES, and the entries of the one-symbol book. -/
theorem genCodesSpecialCases : Obligations.GenCodesSpecialCases := by
  unfold Obligations.GenCodesSpecialCases
  refine ⟨fun s => exec_genCodes_of_no_tree, fun s hvalid hnsym =>
    ⟨_, exec_genCodes_of_one_symbol hvalid hnsym, rfl, fun x => ?_⟩⟩
  simp only [State.cbAt, State.endedOk, getElem_setCb, getElem_emptyBook, eq_comm (a := x)]
  rfl

/-- Settles O27: the case of no symbol. -/
theorem genCodesEmptyBook : Obligations.GenCodesEmptyBook := by
  unfold Obligations.GenCodesEmptyBook
  intro s hvalid hnsym
  exact exec_genCodes_of_no_symbol hvalid hnsym

/-! ## GEN_CODES on a tree of two or more symbols (43_codebook R140, R144) -/

section
variable {s t : State} (h : s.HasTree)
include h

theorem State.HasTree.nsym_ne {n : BitVec 9} (hn : n.toNat < 2) : s.nsym ≠ n := by
  rintro rfl
  exact absurd h.several (Nat.not_le.2 hn)

/-- Where every path fits MAX_CODE_LEN, every leaf's path becomes its symbol's code. -/
theorem State.HasTree.exec_genCodes_of_fits (hfits : ∀ p x, s.LeafAt p x → p.length ≤ s.cfg.maxCodeLen) :
    ∃ ls, s.paths = some ls ∧
      exec .genCodes s = .next (({ s with cb := writeCodes ls emptyBook } : State).endedOk 4) := by
  obtain ⟨ls, hpaths⟩ := h.exists_paths
  have hshort : ∀ l ∈ ls, l.2.length ≤ s.cfg.maxCodeLen :=
    fun l hl => hfits l.2 l.1 ((State.mem_paths hpaths).1 hl)
  exact ⟨ls, hpaths, exec_genCodes_of_book (genCodesBody_of_paths (s := s.accept (encode .genCodes)) h.valid
    (h.nsym_ne (by decide)) (h.nsym_ne (by decide)) hpaths hshort)⟩

/-- Where a path is longer than MAX_CODE_LEN, GEN_CODES reports the lowest symbol with such a path (43_codebook
R144). -/
theorem State.HasTree.exec_genCodes_of_tooLong (hlong : ∃ p x, s.LeafAt p x ∧ s.cfg.maxCodeLen < p.length) :
    ∃ p x, exec .genCodes s = .next (({ s with cb := emptyBook } : State).endedErr 4 5 p.length x) ∧
      s.LeafAt p x ∧ s.cfg.maxCodeLen < p.length ∧
      ∀ q y, s.LeafAt q y → s.cfg.maxCodeLen < q.length → x.toNat ≤ y.toNat := by
  obtain ⟨ls, hpaths⟩ := h.exists_paths
  have hbad : ∀ p x, (x, p) ∈ overLong s.cfg.maxCodeLen ls ↔ s.LeafAt p x ∧ s.cfg.maxCodeLen < p.length :=
    fun p x => mem_overLong.trans (and_congr_left' (State.mem_paths hpaths))
  obtain ⟨p, x, hpx⟩ := hlong
  obtain ⟨l, hlow⟩ : ∃ l, lowestSymbol (overLong s.cfg.maxCodeLen ls) = some l := by
    rw [← Option.ne_none_iff_exists']
    exact fun hnone => List.ne_nil_of_mem ((hbad p x).2 hpx) (lowestSymbol_eq_none.1 hnone)
  obtain ⟨hmem, hle⟩ := lowestSymbol_eq_some hlow
  obtain ⟨hleaf, hlong⟩ := (hbad l.2 l.1).1 hmem
  refine ⟨l.2, l.1, ?_, hleaf, hlong, fun q y hq hlonger => hle (y, q) ((hbad q y).2 ⟨hq, hlonger⟩)⟩
  have hbody : genCodesBody (s.accept (encode .genCodes)) =
      .raised { code := .codeTooLong, pos := l.2.length, sym := l.1 }
        { s.accept (encode .genCodes) with cb := emptyBook } :=
    genCodesBody_of_lowest h.valid (h.nsym_ne (by decide)) (h.nsym_ne (by decide)) hpaths hlow
  exact exec_genCodes_of_raised hbody

/-- GEN_CODES without error gives a symbol the path of one of its leaves, and a symbol without a leaf no code. -/
theorem State.HasTree.entry_cases (hexec : exec .genCodes s = .next t) (herr : t.err = false) (x : Byte) :
    (∃ p, s.LeafAt p x ∧ t.cbAt x = CbEntry.ofSeq p) ∨ ((∀ p, ¬ s.LeafAt p x) ∧ t.cbAt x = CbEntry.zero) := by
  by_cases hlong : ∃ p x, s.LeafAt p x ∧ s.cfg.maxCodeLen < p.length
  · obtain ⟨p, y, hraised, -⟩ := h.exec_genCodes_of_tooLong hlong
    cases hraised.symm.trans hexec
    cases herr
  · obtain ⟨ls, hpaths, hdone⟩ := h.exec_genCodes_of_fits fun p x hleaf =>
      Nat.not_lt.1 fun hlt => hlong ⟨p, x, hleaf, hlt⟩
    cases hdone.symm.trans hexec
    by_cases hleaf : ∃ l ∈ ls, l.1 = x
    · obtain ⟨⟨_, p⟩, hmem, rfl, hentry⟩ := writeCodes_mem ls emptyBook x hleaf
      exact .inl ⟨p, (State.mem_paths hpaths).1 hmem, hentry⟩
    · refine .inr ⟨fun p hp => hleaf ⟨(x, p), (State.mem_paths hpaths).2 hp, rfl⟩, ?_⟩
      exact (writeCodes_other ls emptyBook x fun l hl hx => hleaf ⟨l, hl, hx⟩).trans (getElem_emptyBook x)

end

end Sys2Proof.Machine

/-! Proofs: GEN_CODES on a sound state (43_codebook R140, R141, R144, R146). -/

namespace Sys2Proof.Machine

section
variable {s t : State} (h : s.HasTree) (hexec : exec .genCodes s = .next t) (herr : t.err = false)
include h hexec herr

/-- A code is the path to a leaf of its symbol, and CODE has nothing above it (43_codebook R140). -/
theorem State.HasTree.leafAt_codeSeq {x : Byte} (hlen : (t.cbAt x).len ≠ 0) :
    s.LeafAt (t.cbAt x).codeSeq x ∧ (t.cbAt x).code.toNat < 2 ^ (t.cbAt x).len.toNat := by
  rcases h.entry_cases hexec herr x with ⟨p, hleaf, hentry⟩ | ⟨-, hentry⟩
  · obtain ⟨-, hle⟩ := h.path_length hleaf
    rw [hentry, codeSeq_ofSeq p hle]
    exact ⟨hleaf, CbEntry.ofSeq_code_lt hle⟩
  · rw [hentry] at hlen
    exact absurd rfl hlen

theorem State.HasTree.len_ne_zero_iff {x : Byte} : (t.cbAt x).len ≠ 0 ↔ ∃ p, s.LeafAt p x := by
  refine ⟨fun hlen => ⟨_, (h.leafAt_codeSeq hexec herr hlen).1⟩, fun ⟨p, hp⟩ => ?_⟩
  rcases h.entry_cases hexec herr x with ⟨q, hleaf, hentry⟩ | ⟨hnone, -⟩
  · obtain ⟨hpos, hle⟩ := h.path_length hleaf
    rw [hentry]
    exact CbEntry.ofSeq_len_ne_zero hpos hle
  · exact absurd hp (hnone p)

end

/-- Settles O29: an entry of the book is a path of the tree or has no code (`State.HasTree.entry_cases`). -/
theorem genCodesPathsAreCodes : Obligations.GenCodesPathsAreCodes := by
  unfold Obligations.GenCodesPathsAreCodes
  intro s t hinv hseveral hexec herr
  have htree := (State.inv_iff.1 hinv).1.hasTree hseveral
  exact ⟨fun x => htree.leafAt_codeSeq hexec herr, fun p x hleaf => (htree.len_ne_zero_iff hexec herr).2 ⟨p, hleaf⟩⟩

/-! ## Prefix-freeness (43_codebook R146 item 2) -/

theorem prefixFree_of_bytes {cb : Vector CbEntry 256}
    (h : ∀ x y : Byte, (cb[x.toNat]'x.isLt).len ≠ 0 → (cb[y.toNat]'y.isLt).len ≠ 0 →
      (cb[x.toNat]'x.isLt).codeSeq <+: (cb[y.toNat]'y.isLt).codeSeq → x = y) : PrefixFree cb :=
  fun x hx y hne hy hprefix =>
    hne (congrArg BitVec.toFin (h (BitVec.ofFin x) (BitVec.ofFin y) hx hy hprefix)).symm

/-- Settles O30: with two or more symbols codes are paths to leaves, none a start of another
(`State.LeafAt.eq_of_prefix`); otherwise the book has at most one code. -/
theorem genCodesPrefixFree : Obligations.GenCodesPrefixFree := by
  unfold Obligations.GenCodesPrefixFree
  intro s t hinv hexec herr
  have hvalid := treeValid_of_exec_genCodes hexec herr
  refine prefixFree_of_bytes fun x y hx hy hprefix => ?_
  rcases nsym_cases s.nsym with hzero | hone | hseveral
  · cases (exec_genCodes_of_no_symbol hvalid hzero).symm.trans hexec
    exact absurd (congrArg CbEntry.len (getElem_emptyBook x)) hx
  · cases (exec_genCodes_of_one_symbol hvalid hone).symm.trans hexec
    exact (oneSymbolBook_len_ne_zero.1 hx).symm.trans (oneSymbolBook_len_ne_zero.1 hy)
  · have htree := (State.inv_iff.1 hinv).1.hasTree hseveral
    obtain ⟨hxleaf, -⟩ := htree.leafAt_codeSeq hexec herr hx
    obtain ⟨hyleaf, -⟩ := htree.leafAt_codeSeq hexec herr hy
    exact hxleaf.eq_of_prefix hyleaf hprefix

/-! ## Completion and the length limit (43_codebook R140, R144) -/

/-- Settles O28: the case of no symbol, of one, and of more, where no path passes 255 bits
(`State.HasTree.path_length`). -/
theorem genCodesCompletes : Obligations.GenCodesCompletes := by
  unfold Obligations.GenCodesCompletes
  intro s hinv hvalid hmax
  rcases nsym_cases s.nsym with hzero | hone | hseveral
  · exact ⟨_, exec_genCodes_of_no_symbol hvalid hzero, rfl⟩
  · exact ⟨_, exec_genCodes_of_one_symbol hvalid hone, rfl⟩
  · have htree := (State.inv_iff.1 hinv).1.hasTree hseveral
    obtain ⟨ls, -, hdone⟩ := htree.exec_genCodes_of_fits fun p x hleaf => hmax ▸ (htree.path_length hleaf).2
    exact ⟨_, hdone, rfl⟩

/-- Settles O32: the lowest of the symbols with a path too long is reported (`State.HasTree.exec_genCodes_of_tooLong`),
and no path passes 255 bits (`State.HasTree.path_length`). -/
theorem codeTooLong : Obligations.CodeTooLong := by
  unfold Obligations.CodeTooLong
  constructor
  · intro s hinv _ hseveral hlong
    have htree := (State.inv_iff.1 hinv).1.hasTree hseveral
    obtain ⟨p, x, hraised, hlowest⟩ := htree.exec_genCodes_of_tooLong hlong
    exact ⟨_, p, x, hraised, rfl, hlowest⟩
  · intro s hinv hseveral hmax p x hleaf
    have htree := (State.inv_iff.1 hinv).1.hasTree hseveral
    exact hmax ▸ (htree.path_length hleaf).2

end Sys2Proof.Machine

/-! Proofs: BUILD_TREE and then GEN_CODES: every symbol present has one path, which is its code (43_codebook R141,
R146). -/

namespace Sys2Proof.Machine

/-! ## The first and the last step of a path (43_codebook R141) -/

/-- The child of NODE[i] that a path goes on to with bit `b` (43_codebook R141). -/
def childAt (nodes : Vector Node 511) (i : BitVec 9) (b : Bool) : BitVec 9 :=
  if b then (nodeAt nodes i).right else (nodeAt nodes i).left

theorem followPath_cons {nodes : Vector Node 511} {p : List Bool} {b : Bool} {i k : BitVec 9} :
    followPath nodes i (b :: p) = some k ↔
      (nodeAt nodes i).isLeaf = false ∧ followPath nodes (childAt nodes i b) p = some k := by
  cases hleaf : (nodeAt nodes i).isLeaf <;> simp [followPath, childAt, hleaf]

theorem followPath_concat {nodes : Vector Node 511} {p : List Bool} {b : Bool} {i k : BitVec 9} :
    followPath nodes i (p ++ [b]) = some k ↔
      ∃ j, followPath nodes i p = some j ∧ (nodeAt nodes j).isLeaf = false ∧ childAt nodes j b = k := by
  rw [followPath_append, Option.bind_eq_some_iff]
  refine exists_congr fun j => and_congr_right fun _ => ?_
  rw [followPath_cons, followPath, Option.some.injEq]

/-- A child stands before its parent. -/
theorem NodeOk.childAt_lt {nodes : Vector Node 511} {n : Nat} {i : BitVec 9} (h : NodeOk nodes n i)
    (hinner : (nodeAt nodes i).isLeaf = false) (b : Bool) : (childAt nodes i b).toNat < i.toNat := by
  obtain ⟨-, hchildren⟩ := h
  obtain ⟨hleft, hright, -⟩ := hchildren hinner
  cases b
  · exact hleft
  · exact hright

/-- The indices fall with every step of a path. -/
theorem followPath_falls {nodes : Vector Node 511} {n m : Nat}
    (hshape : ∀ i : BitVec 9, i.toNat < m → NodeOk nodes n i) : ∀ {p : List Bool} {i j : BitVec 9}, i.toNat < m →
    followPath nodes i p = some j → j.toNat + p.length ≤ i.toNat
  | [], i, j, _, h => by
    cases h
    exact Nat.le_refl _
  | b :: p, i, j, hi, h => by
    obtain ⟨hinner, hrest⟩ := followPath_cons.1 h
    have hchild := (hshape i hi).childAt_lt hinner b
    have ih := followPath_falls hshape (hchild.trans hi) hrest
    rw [List.length_cons]
    omega

/-! ## The finished tree (42_tree_builder R127) -/

/-- The leaf at a leaf's index is that of the symbol present with that rank. -/
theorem State.built_leaf {s : State} {i : BitVec 9} {x : Byte} (hx : (presentSymbols s.freq)[i.toNat]? = some x) :
    (nodeAt s.built.nodes i).isLeaf = true ∧ (nodeAt s.built.nodes i).symbol = x := by
  have hleaf := nodeAt_leaf (loadedLeaves_partOf_builtTree s) hx
  rw [BitVec.ofNat_toNat, BitVec.setWidth_eq] at hleaf
  have hnode : nodeAt s.built.nodes i = leafNode x (s.freqAt x) := hleaf
  rw [hnode]
  exact ⟨rfl, rfl⟩

/-- Only the symbols present have leaves. -/
theorem State.built_symbol {s : State} {i : BitVec 9} (hi : i.toNat < (builtTree s).next)
    (hleaf : (nodeAt s.built.nodes i).isLeaf = true) :
    (presentSymbols s.freq)[i.toNat]? = some (nodeAt s.built.nodes i).symbol := by
  have hlt : i.toNat < (presentSymbols s.freq).length := ((builtTree_sound s).shape i hi).1.1 hleaf
  have hx := List.getElem?_eq_getElem hlt
  rw [hx, (State.built_leaf hx).2]

/-- The two nodes a merge joins are two (42_tree_builder R120). -/
theorem State.JoinsFirstTwo.left_ne_right {t : State} {k : Nat} (h : t.JoinsFirstTwo k) :
    (t.nodeN k).left ≠ (t.nodeN k).right := by
  intro heq
  have hless := State.keyLt_iff.1 h.ordered
  rw [heq] at hless
  exact Nat.lt_irrefl _ hless

theorem State.built_joins {s : State} {i : BitVec 9} (hi : i.toNat < (builtTree s).next)
    (hinner : (nodeAt s.built.nodes i).isLeaf = false) :
    (s.built.endedOk 3).nsym.toNat ≤ i.toNat ∧ (s.built.endedOk 3).JoinsFirstTwo i.toNat := by
  have hnsym : (s.built.endedOk 3).nsym.toNat = (presentSymbols s.freq).length := s.built_nsym
  have hleaves : (s.built.endedOk 3).nsym.toNat ≤ i.toNat := by
    rw [hnsym]
    exact Nat.not_lt.1 (mt ((builtTree_sound s).shape i hi).1.2 (Bool.eq_false_iff.1 hinner))
  exact ⟨hleaves, s.merging_builtTree.joins _ hleaves hi⟩

/-- A node of the finished tree is one child of one parent (42_tree_builder R127 items 2 and 3). -/
theorem State.built_parent_unique {s : State} {j k : BitVec 9} {b c : Bool} (hj : j.toNat < (builtTree s).next)
    (hk : k.toNat < (builtTree s).next) (hjinner : (nodeAt s.built.nodes j).isLeaf = false)
    (hkinner : (nodeAt s.built.nodes k).isLeaf = false)
    (hchild : childAt s.built.nodes j b = childAt s.built.nodes k c) : j = k ∧ b = c := by
  obtain ⟨hjleaves, hjjoin⟩ := State.built_joins hj hjinner
  obtain ⟨hkleaves, hkjoin⟩ := State.built_joins hk hkinner
  have hof : ∀ (i : BitVec 9) (d : Bool),
      ((s.built.endedOk 3).nodeN i.toNat).left.toNat = (childAt s.built.nodes i d).toNat ∨
        ((s.built.endedOk 3).nodeN i.toNat).right.toNat = (childAt s.built.nodes i d).toNat := by
    intro i d
    rw [State.nodeN_toNat]
    cases d
    · exact .inl rfl
    · exact .inr rfl
  have hkj := hof k c
  rw [← hchild] at hkj
  obtain rfl : j = k := BitVec.eq_of_toNat_eq
    (Nat.le_antisymm (hjjoin.child_unique (hof j b) hkleaves hkj) (hkjoin.child_unique hkj hjleaves (hof j b)))
  have hne := hjjoin.left_ne_right
  rw [State.nodeN_toNat] at hne
  refine ⟨rfl, ?_⟩
  cases b <;> cases c
  · rfl
  · exact absurd hchild hne
  · exact absurd hchild.symm hne
  · rfl

section
variable {s : State} (hseveral : 2 ≤ (presentSymbols s.freq).length)
include hseveral

theorem State.built_hasTree : (s.built.endedOk 3).HasTree where
  valid := rfl
  several := s.built_nsym ▸ hseveral
  symbols := s.built_nsym ▸ presentSymbols_length_le s.freq
  root := by
    rw [State.endedOk_rootIndex, State.endedOk_nsym, s.built_rootIndex, s.built_nsym]
  shape := fun i hi => by
    rw [State.endedOk_nsym, s.built_nsym] at hi ⊢
    exact (builtTree_sound s).shape i (by rwa [builtTree_next])

/-- A path from the root of the finished tree stays in the tree, and every step leads to a smaller index. -/
theorem State.built_falls {p : List Bool} {i : BitVec 9}
    (h : followPath s.built.nodes s.built.rootIndex p = some i) : i.toNat + p.length + 1 ≤ (builtTree s).next := by
  have hroot := s.built_rootIndex
  have hnext := builtTree_next s
  have := followPath_falls (builtTree_sound s).shape (by omega) h
  omega

/-- A path leads to every node of the finished tree: one to its parent, and a bit more. -/
theorem State.exists_built_path (i : BitVec 9) (hi : i.toNat < (builtTree s).next) :
    ∃ p, followPath s.built.nodes s.built.rootIndex p = some i := by
  by_cases hroot : i = s.built.rootIndex
  · exact ⟨[], hroot ▸ rfl⟩
  · obtain ⟨j, hj, hjn, hchild⟩ := State.exists_parent (by omega) hi (mt BitVec.eq_of_toNat_eq hroot)
    have hjoin := s.merging_builtTree.joins j hj hjn
    have hleft := hjoin.left_waits.1
    have hright := hjoin.right_waits.1
    have hindex := toNat_ofNat_of_room (hjn.trans_le (builtTree_sound s).room)
    obtain ⟨p, hp⟩ := State.exists_built_path (BitVec.ofNat 9 j) (by omega)
    rcases hchild with hl | hr
    · exact ⟨p ++ [false], followPath_concat.2 ⟨_, hp, hjoin.inner, BitVec.eq_of_toNat_eq hl⟩⟩
    · exact ⟨p ++ [true], followPath_concat.2 ⟨_, hp, hjoin.inner, BitVec.eq_of_toNat_eq hr⟩⟩
termination_by (builtTree s).next - i.toNat

/-- The path to the root is empty. -/
theorem State.built_path_root {p : List Bool}
    (h : followPath s.built.nodes s.built.rootIndex p = some s.built.rootIndex) : p = [] := by
  have hroot := s.built_rootIndex
  have hnext := builtTree_next s
  have hfalls := State.built_falls hseveral h
  exact List.length_eq_zero_iff.1 (by omega)

/-- One path leads to a node of the finished tree: the path to its one parent, and the bit of this child. -/
theorem State.built_path_unique (p : List Bool) : ∀ {q : List Bool} {i : BitVec 9},
    followPath s.built.nodes s.built.rootIndex p = some i → followPath s.built.nodes s.built.rootIndex q = some i →
    p = q := by
  induction p using List.reverseRecOn with
  | nil =>
    intro q i hp hq
    cases hp
    exact (State.built_path_root hseveral hq).symm
  | append_singleton p b ih =>
    intro q i hp hq
    rcases List.eq_nil_or_concat' q with rfl | ⟨q, c, rfl⟩
    · cases hq
      exact State.built_path_root hseveral hp
    · obtain ⟨j, hpj, hj, rfl⟩ := followPath_concat.1 hp
      obtain ⟨k, hqk, hk, hchild⟩ := followPath_concat.1 hq
      have hjfalls := State.built_falls hseveral hpj
      have hkfalls := State.built_falls hseveral hqk
      obtain ⟨rfl, rfl⟩ := State.built_parent_unique (by omega) (by omega) hk hj hchild
      rw [ih hpj hqk]

/-- Exactly the symbols present have a path. -/
theorem State.exists_built_leafAt (x : Byte) : (∃ p, s.built.LeafAt p x) ↔ s.freqAt x ≠ 0 := by
  constructor
  · rintro ⟨p, i, hp, hleaf, rfl⟩
    have hfalls := State.built_falls hseveral hp
    exact mem_presentSymbols.1 (List.mem_of_getElem? (State.built_symbol (by omega) hleaf))
  · intro hx
    obtain ⟨k, hk, hkx⟩ := List.mem_iff_getElem.1 (mem_presentSymbols.2 hx)
    have hroom := presentSymbols_length_le s.freq
    have hnext := builtTree_next s
    have hindex := toNat_ofNat_of_room (k := k) (by omega)
    obtain ⟨p, hp⟩ := State.exists_built_path hseveral (BitVec.ofNat 9 k) (by omega)
    refine ⟨p, _, hp, State.built_leaf ?_⟩
    rw [hindex, List.getElem?_eq_getElem hk, hkx]

/-- A symbol has one leaf, and one path leads there. -/
theorem State.built_leafAt_unique {p q : List Bool} {x : Byte} (hp : s.built.LeafAt p x) (hq : s.built.LeafAt q x) :
    p = q := by
  obtain ⟨i, hpi, hi, rfl⟩ := hp
  obtain ⟨j, hqj, hj, hsymbol⟩ := hq
  have hpfalls := State.built_falls hseveral hpi
  have hqfalls := State.built_falls hseveral hqj
  have hix := State.built_symbol (by omega) hi
  have hjx := State.built_symbol (by omega) hj
  rw [hsymbol] at hjx
  obtain ⟨hlt, -⟩ := List.getElem?_eq_some_iff.1 hix
  obtain rfl : i = j :=
    BitVec.eq_of_toNat_eq ((List.getElem?_inj hlt (presentSymbols_nodup s.freq)).1 (hix.trans hjx.symm))
  exact State.built_path_unique hseveral p hpi hqj

end

/-- With one symbol present the root is its leaf (42_tree_builder R124). -/
theorem State.built_lone_root {s : State} (hone : (presentSymbols s.freq).length = 1) (x : Byte) :
    (nodeAt s.built.nodes s.built.rootIndex).symbol = x ↔ s.freqAt x ≠ 0 := by
  obtain ⟨y, hy⟩ := List.length_eq_one_iff.1 hone
  have hroot : s.built.rootIndex.toNat = 0 := by rw [s.built_rootIndex, hone]
  have hleaf := State.built_leaf (s := s) (i := s.built.rootIndex) (x := y) (by rw [hroot, hy]; rfl)
  rw [hleaf.2, State.freqAt, ← mem_presentSymbols, hy, List.mem_singleton, eq_comm]

/-- Settles O31: with two or more symbols GEN_CODES codes the symbols that have a path
(`State.HasTree.len_ne_zero_iff`), which are those present (`State.exists_built_leafAt`), and each has one path only
(`State.built_leafAt_unique`). -/
theorem bookCoversPresentSymbols : Obligations.BookCoversPresentSymbols := by
  unfold Obligations.BookCoversPresentSymbols
  intro s t u _ hbuild hexec herr x
  cases eq_of_exec_buildTree hbuild
  have hnsym : (s.built.endedOk 3).nsym.toNat = (presentSymbols s.freq).length := s.built_nsym
  rcases nsym_cases (s.built.endedOk 3).nsym with hzero | hone | hseveral
  · refine ⟨?_, fun hseveral => absurd hseveral (by rw [hzero]; decide)⟩
    cases (exec_genCodes_of_no_symbol rfl hzero).symm.trans hexec
    rw [hzero] at hnsym
    have habsent : ¬ x ∈ presentSymbols s.freq := by
      rw [List.length_eq_zero_iff.1 hnsym.symm]
      exact List.not_mem_nil
    exact iff_of_false (not_not.2 (congrArg CbEntry.len (getElem_emptyBook x))) (mt mem_presentSymbols.2 habsent)
  · refine ⟨?_, fun hseveral => absurd hseveral (by rw [hone]; decide)⟩
    cases (exec_genCodes_of_one_symbol rfl hone).symm.trans hexec
    rw [hone] at hnsym
    exact oneSymbolBook_len_ne_zero.trans (State.built_lone_root hnsym.symm x)
  · rw [hnsym] at hseveral
    have htree := State.built_hasTree hseveral
    have hlen := htree.len_ne_zero_iff hexec herr (x := x)
    refine ⟨hlen.trans (State.exists_built_leafAt hseveral x), fun _ p => ⟨fun hp => ?_, ?_⟩⟩
    · have hx := hlen.2 ⟨p, hp⟩
      exact ⟨hx, State.built_leafAt_unique hseveral (htree.leafAt_codeSeq hexec herr hx).1 hp⟩
    · rintro ⟨hx, rfl⟩
      exact (htree.leafAt_codeSeq hexec herr hx).1

end Sys2Proof.Machine

/-! Proofs: the inverse-book lookup (44_bitpack R156) and the packer (R150, R152). -/

namespace Sys2Proof.Machine

/-! ## A code and a candidate (44_bitpack R156) -/

/-- Two bit sequences of one length that spell one number are equal (00_scope R7). -/
theorem val_inj {p q : List Bool} (hlen : p.length = q.length) (hle : p.length ≤ 256) (h : val p = val q) : p = q := by
  rw [← seq_val p hle, h, hlen, seq_val q (hlen ▸ hle)]

@[simp] theorem CbEntry.codeSeq_length (e : CbEntry) : e.codeSeq.length = e.len.toNat := seq_length _ _

theorem CbEntry.val_codeSeq (e : CbEntry) : val e.codeSeq = e.code.toNat % 2 ^ e.len.toNat :=
  val_seq _ _ (Nat.le_of_lt e.len.isLt)

/-- Length and value agree exactly when the entry's code is the candidate. -/
theorem codeMatches_iff {cand : List Bool} {e : CbEntry} :
    codeMatches cand e = true ↔ e.len ≠ 0 ∧ e.codeSeq = cand := by
  simp only [codeMatches, Bool.and_eq_true, beq_iff_eq, bne_iff_ne, and_comm (b := e.len ≠ 0), and_assoc]
  refine and_congr_right fun _ => ⟨fun ⟨hlen, hval⟩ => ?_, ?_⟩
  · refine val_inj (e.codeSeq_length.trans hlen) (e.codeSeq_length ▸ Nat.le_of_lt e.len.isLt) ?_
    rw [e.val_codeSeq, hlen, hval]
  · rintro rfl
    rw [e.codeSeq_length, e.val_codeSeq]
    exact ⟨rfl, rfl⟩

theorem matchCode_eq_none_iff {cb : Vector CbEntry 256} {cand : List Bool} :
    matchCode cb cand = none ↔ ∀ y : Byte, ¬ ((cb[y.toNat]'y.isLt).len ≠ 0 ∧ (cb[y.toNat]'y.isLt).codeSeq = cand) := by
  simp only [matchCode, Option.map_eq_none_iff, List.findIdx?_eq_none_iff, ← codeMatches_iff, Bool.not_eq_true]
  refine ⟨fun h y => h _ (Vector.mem_toList_iff.2 (Vector.getElem_mem y.isLt)), fun h e he => ?_⟩
  obtain ⟨n, hn, rfl⟩ := List.getElem_of_mem he
  have hlt : n < 256 := by simpa using hn
  exact h (BitVec.ofFin ⟨n, hlt⟩)

theorem matchCode_eq_some_iff {cb : Vector CbEntry 256} {cand : List Bool} {m : Byte} :
    matchCode cb cand = some m ↔
      ((cb[m.toNat]'m.isLt).len ≠ 0 ∧ (cb[m.toNat]'m.isLt).codeSeq = cand ∧
        ∀ y : Byte, y.toNat < m.toNat → ¬ ((cb[y.toNat]'y.isLt).len ≠ 0 ∧ (cb[y.toNat]'y.isLt).codeSeq = cand)) := by
  have hindex : matchCode cb cand = some m ↔ cb.toList.findIdx? (codeMatches cand) = some m.toNat := by
    rw [matchCode, Option.map_eq_some_iff]
    refine ⟨fun ⟨n, hn, hm⟩ => ?_, fun h => ⟨_, h, BitVec.ofNat_toNat _ _ |>.trans (BitVec.setWidth_eq m)⟩⟩
    obtain ⟨hlt, -⟩ := List.findIdx?_eq_some_iff_getElem.1 hn
    rw [hn, ← hm, BitVec.toNat_ofNat, Nat.mod_eq_of_lt (by simpa using hlt)]
  have hlt : m.toNat < cb.toList.length := by simpa using m.isLt
  simp only [hindex, List.findIdx?_eq_some_iff_getElem, Vector.getElem_toList, ← and_assoc, ← codeMatches_iff]
  exact ⟨fun ⟨_, hm, hfirst⟩ => ⟨hm, fun y hy => hfirst _ hy⟩,
    fun ⟨hm, hfirst⟩ => ⟨hlt, hm, fun n hn => hfirst (BitVec.ofFin ⟨n, Nat.lt_trans hn m.isLt⟩) hn⟩⟩

/-- Settles O37: the lookup searches the book from symbol 0 up for the entry whose code is the candidate
(`codeMatches_iff`). -/
theorem matchIsLowestSymbol : Obligations.MatchIsLowestSymbol := by
  unfold Obligations.MatchIsLowestSymbol
  exact fun cb cand => ⟨fun m => matchCode_eq_some_iff, matchCode_eq_none_iff⟩

/-! ## The packing loop (44_bitpack R150) -/

/-- Symbols that all have codes and fit are packed to the end. -/
theorem packLoop_fits {cb : Vector CbEntry 256} {cap : Nat} {xs : List Byte} (i pos : Nat)
    (hcoded : ∀ x ∈ xs, (cb[x.toNat]'x.isLt).len ≠ 0) (hfit : pos + (bookStream cb xs).length ≤ cap) :
    packLoop cb cap xs i pos = (bookStream cb xs, none) := by
  have happend := packLoop_append cb cap [] xs i pos hcoded hfit
  rwa [List.append_nil, packLoop, List.append_nil] at happend

theorem packLoop_unknown {cb : Vector CbEntry 256} {x : Byte} (h : (cb[x.toNat]'x.isLt).len = 0) (cap : Nat)
    (xs : List Byte) (i pos : Nat) :
    packLoop cb cap (x :: xs) i pos = ([], some { code := .unknownSymbol, pos := i, sym := x }) := if_pos h

theorem packLoop_overflow {cb : Vector CbEntry 256} {x : Byte} (h : (cb[x.toNat]'x.isLt).len ≠ 0) {cap pos : Nat}
    (hfull : cap < pos + (cb[x.toNat]'x.isLt).len.toNat) (xs : List Byte) (i : Nat) :
    packLoop cb cap (x :: xs) i pos = ([], some { code := .payloadOverflow, pos := i, sym := x }) :=
  (if_neg h).trans (if_pos hfull)

/-- Where the loop ends: behind the last symbol, all having codes that fit, or before the one it reports. -/
theorem packLoop_cases (cb : Vector CbEntry 256) (cap : Nat) : ∀ (xs : List Byte) (i pos : Nat), pos ≤ cap →
    ((∀ x ∈ xs, (cb[x.toNat]'x.isLt).len ≠ 0) ∧ pos + (bookStream cb xs).length ≤ cap ∧
      packLoop cb cap xs i pos = (bookStream cb xs, none)) ∨
    ∃ n e, n < xs.length ∧ e.pos = i + n ∧ packLoop cb cap xs i pos = (bookStream cb (xs.take n), some e)
  | [], _, _, hpos => .inl ⟨fun _ h => absurd h List.not_mem_nil, hpos, rfl⟩
  | x :: xs, i, pos, hpos => by
    rw [packLoop]
    split
    · exact .inr ⟨0, _, Nat.zero_lt_succ _, rfl, rfl⟩
    split
    · exact .inr ⟨0, _, Nat.zero_lt_succ _, rfl, rfl⟩
    rename_i hcode hroom
    rcases packLoop_cases cb cap xs (i + 1) _ (Nat.not_lt.1 hroom) with ⟨hcoded, hfit, hend⟩ | ⟨n, e, hn, he, hstop⟩
    · refine .inl ⟨List.forall_mem_cons.2 ⟨hcode, hcoded⟩, ?_, by rw [hend]; rfl⟩
      rwa [bookStream_cons, List.length_append, CbEntry.codeSeq_length, ← Nat.add_assoc]
    · exact .inr ⟨n + 1, e, Nat.succ_lt_succ hn, by omega, by rw [hstop]; rfl⟩

/-! ## PACK (44_bitpack R150, R152) -/

section
variable {s r : State} {xs : List Byte} {bits : List Bool} (hlen : s.inLen.toNat ≤ s.cfg.inDepth)
  (hread : s.inSymbols s.inLen.toNat = (xs, r))
include hlen hread

theorem packBody_done (hpack : packLoop s.cb s.payBitCap xs 0 0 = (bits, none)) :
    packBody s = .done { r.writePay bits with bitLen := BitVec.ofNat 32 bits.length } := by
  rw [packBody, if_neg (Nat.not_lt.2 hlen)]
  simp only [hread, hpack]

theorem packBody_raised {e : CmdError} (hpack : packLoop s.cb s.payBitCap xs 0 0 = (bits, some e)) :
    packBody s = .raised e { r.writePay bits with bitLen := 0 } := by
  rw [packBody, if_neg (Nat.not_lt.2 hlen)]
  simp only [hread, hpack]

end

/-- BIT_LEN can hold the payload buffer's size in bits. -/
theorem toNat_bitLen_of_fits {p : Params} (hp : p.Ok) {n : Nat} (hfit : n ≤ p.payDepth * 8) :
    (BitVec.ofNat 32 n).toNat = n := by
  obtain ⟨-, -, ⟨-, -, hpay⟩, -⟩ := hp
  exact (BitVec.toNat_ofNat _ _).trans (Nat.mod_eq_of_lt (by omega))

/-- Settles O33: the loop packs every symbol (`packLoop_fits`), and the flush writes the stream
(`writePay_flushed`). -/
theorem packResult : Obligations.PackResult := by
  unfold Obligations.PackResult
  intro s xs hparams hlen hdepth hmem hcoded hfit
  have hpack : packLoop s.cb s.payBitCap xs 0 0 = (bookStream s.cb xs, none) :=
    packLoop_fits 0 0 hcoded ((Nat.zero_add _).trans_le hfit)
  have hbody := packBody_done (s := s.accept (encode .pack)) (hlen.trans_le hdepth)
    (inSymbols_accept_of_holds _ hlen hmem) hpack
  exact ⟨_, exec_done (i := .pack) hbody, rfl, toNat_bitLen_of_fits hparams hfit, writePay_flushed _ _⟩

/-- PACK of written input that the loop stops on reports the stop, what was packed before it being flushed. -/
theorem exec_pack_of_stop {s : State} {xs : List Byte} {bits : List Bool} {e : CmdError}
    (hlen : s.inLen.toNat = xs.length) (hdepth : xs.length ≤ s.cfg.inDepth)
    (hmem : Memory.Holds s.mem Config.inBase xs) (hpack : packLoop s.cb s.payBitCap xs 0 0 = (bits, some e)) :
    ∃ t, exec .pack s = .next t ∧
      t = ({ s with mem := t.mem, bitLen := 0 } : State).endedErr 5 e.code.bits e.pos e.sym ∧
      Flushed s.mem t.mem bits :=
  ⟨_, exec_raised (i := .pack) (packBody_raised (s := s.accept (encode .pack)) (hlen.trans_le hdepth)
    (inSymbols_accept_of_holds _ hlen hmem) hpack), rfl, writePay_flushed _ _⟩

/-- Settles O34: the loop packs the symbols before (`packLoop_append`) and meets one of its two checks at the next. -/
theorem packStops : Obligations.PackStops := by
  unfold Obligations.PackStops
  intro s before after x _ hlen hdepth hmem hcoded hfit
  have hbefore := packLoop_append s.cb s.payBitCap (x :: after) before 0 0 hcoded ((Nat.zero_add _).trans_le hfit)
  rw [Nat.zero_add, Nat.zero_add] at hbefore
  refine ⟨fun hnone => ?_, fun hcode hfull => ?_⟩
  · rw [packLoop_unknown hnone, List.append_nil] at hbefore
    exact exec_pack_of_stop hlen hdepth hmem hbefore
  · rw [packLoop_overflow (cap := s.payBitCap) hcode hfull, List.append_nil] at hbefore
    exact exec_pack_of_stop hlen hdepth hmem hbefore

/-- A byte read that something has written is the byte written (70_reset_and_hazards R209). -/
theorem Memory.getElem_readBytes (m : List Host.Cell) {b : Byte} : ∀ (n x draws i : Nat)
    (hi : i < (Memory.readBytes m x n draws).1.length), Memory.lookup m (x + i) = some b →
    (Memory.readBytes m x n draws).1[i] = b
  | 0, _, _, _, hi, _ => absurd hi (Nat.not_lt_zero _)
  | n + 1, x, draws, 0, _, h => by
    rw [Nat.add_zero] at h
    simp only [Memory.readBytes, Memory.read, h, List.getElem_cons_zero]
  | n + 1, x, draws, i + 1, hi, h => by
    simp only [Memory.readBytes, List.getElem_cons_succ]
    exact Memory.getElem_readBytes m n (x + 1) _ i _ (by rwa [Nat.add_right_comm])

theorem flushed_nil (m : List Host.Cell) : Flushed m m [] :=
  ⟨fun p => absurd p.isLt (Nat.not_lt_zero _), fun _ _ hp => absurd hp (Nat.not_lt_zero _), fun _ _ => rfl⟩

/-- Settles O35: the symbols are those read; the loop ends behind all of them or before the one it reports
(`packLoop_cases`), and a PACK that reads none packs nothing. -/
theorem packFlushes : Obligations.PackFlushes := by
  unfold Obligations.PackFlushes
  intro s t hparams hexec
  have hcount := inSymbols_length (s.accept (encode .pack)) s.inLen.toNat
  refine ⟨_, hcount, fun i b hb => Memory.getElem_readBytes s.mem _ _ _ _ _ hb, ?_⟩
  by_cases hlong : s.cfg.inDepth < s.inLen.toNat
  · cases (exec_raised (i := .pack) (packBody_badLen (s := s.accept (encode .pack)) hlong)).symm.trans hexec
    exact flushed_nil s.mem
  rcases packLoop_cases s.cb s.payBitCap ((s.accept (encode .pack)).inSymbols s.inLen.toNat).1 0 0 (Nat.zero_le _) with
    ⟨-, -, hpack⟩ | ⟨n, e, hn, he, hpack⟩
  · have hbody := packBody_done (s := s.accept (encode .pack)) (Nat.not_lt.1 hlong) rfl hpack
    have ht := Host.Outcome.next.inj ((exec_done (i := .pack) hbody).symm.trans hexec)
    have herr : t.err = false := by rw [← ht]; rfl
    rw [herr, if_neg Bool.false_ne_true, List.take_length, ← ht]
    exact writePay_flushed _ _
  · have hbody := packBody_raised (s := s.accept (encode .pack)) (Nat.not_lt.1 hlong) rfl hpack
    have ht := Host.Outcome.next.inj ((exec_raised (i := .pack) hbody).symm.trans hexec)
    have herr : t.err = true := by rw [← ht]; rfl
    have hpos : t.errPos.toNat = n := by
      have hlt := s.inLen.isLt
      rw [← ht]
      exact (BitVec.toNat_ofNat _ _).trans ((Nat.mod_eq_of_lt (by omega)).trans (by omega))
    rw [if_pos herr, hpos, ← ht]
    exact writePay_flushed _ _

end Sys2Proof.Machine

/-! Proofs: the scan of UNPACK (44_bitpack R155). -/

namespace Sys2Proof.Machine

/-! ## The scan (44_bitpack R155) -/

/-- Bits that end no code only make the candidate longer. -/
theorem unpackLoop_skip {cb : Vector CbEntry 256} (cap start k : Nat) : ∀ (n : Nat) (bits cand : List Bool) (pos : Nat),
    n ≤ bits.length → (∀ j, j < n + 1 → 0 < j → matchCode cb (cand ++ bits.take j) = none) →
    unpackLoop cb cap bits pos start cand k = unpackLoop cb cap (bits.drop n) (pos + n) start (cand ++ bits.take n) k
  | 0, bits, cand, pos, _, _ => by simp
  | n + 1, [], _, _, hn, _ => absurd hn (Nat.not_succ_le_zero n)
  | n + 1, b :: bits, cand, pos, hn, hnone => by
    have hfirst : matchCode cb (cand ++ [b]) = none := hnone 1 (by omega) Nat.one_pos
    have ih := unpackLoop_skip cap start k n bits (cand ++ [b]) (pos + 1) (Nat.le_of_succ_le_succ hn)
      fun j hj _ => by simpa using hnone (j + 1) (Nat.succ_lt_succ hj) (Nat.succ_pos j)
    rw [unpackLoop, hfirst]
    simp only [ih, List.drop_succ_cons, List.take_succ_cons, List.append_assoc, List.singleton_append, Nat.add_assoc,
      Nat.add_comm 1]

/-- A candidate that grows to the end of the payload without a match is malformed. -/
theorem unpackLoop_deadEnd {cb : Vector CbEntry 256} {bits cand : List Bool} {pos start : Nat} (cap k : Nat)
    (hne : pos + bits.length ≠ start)
    (hnone : ∀ j, j < bits.length + 1 → 0 < j → matchCode cb (cand ++ bits.take j) = none) :
    unpackLoop cb cap bits pos start cand k = ([], some { code := .malformedPayload, pos := start, sym := 0 }) := by
  rw [unpackLoop_skip cap start k bits.length bits cand pos (Nat.le_refl _) hnone, List.drop_length, unpackLoop,
    if_neg hne]

/-- A match found while OUT is full is reported where it began. -/
theorem unpackLoop_full {cb : Vector CbEntry 256} {cap pos n : Nat} {bits : List Bool} {m : Byte}
    (h : FirstMatch cb bits n m) :
    unpackLoop cb cap bits pos pos [] cap = ([], some { code := .outOverflow, pos := pos, sym := m }) := by
  obtain ⟨hpos, hle, hmatch, hnone⟩ := h
  obtain ⟨n, rfl⟩ := Nat.exists_eq_add_one.2 hpos
  rw [unpackLoop_skip cap pos cap n bits [] pos (by omega) (fun j hj => by simpa using hnone j hj),
    List.drop_eq_getElem_cons hle, unpackLoop, List.nil_append, List.take_append_getElem, hmatch]
  exact if_pos rfl

/-- The scan reads off the symbols the bits split into and goes on at the rest. -/
theorem unpackLoop_parses {cb : Vector CbEntry 256} {cap : Nat} {rest : List Bool} : ∀ {ms : List Byte}
    {bits : List Bool} (pos k : Nat), Parses cb ms bits rest → k + ms.length ≤ cap →
    ∃ n, bits.length = n + rest.length ∧ unpackLoop cb cap bits pos pos [] k =
      (ms ++ (unpackLoop cb cap rest (pos + n) (pos + n) [] (k + ms.length)).1,
        (unpackLoop cb cap rest (pos + n) (pos + n) [] (k + ms.length)).2)
  | [], bits, pos, k, hparse, _ => by
    cases hparse
    exact ⟨0, (Nat.zero_add _).symm, rfl⟩
  | m :: ms, bits, pos, k, ⟨j, hfirst, hparse⟩, hroom => by
    rw [List.length_cons] at hroom
    obtain ⟨n, hn, ih⟩ := unpackLoop_parses (cap := cap) (pos + j) (k + 1) hparse (by omega)
    have ⟨_, hle, _⟩ := hfirst
    rw [List.length_drop] at hn
    refine ⟨j + n, by omega, ?_⟩
    rw [unpackLoop_firstMatch hfirst (by omega), ih, List.length_cons, Nat.add_assoc pos, Nat.add_assoc k,
      Nat.add_comm 1]
    rfl

/-! ## UNPACK (44_bitpack R155) -/

section
variable {s r : State} {bits : List Bool} {ms : List Byte} (hlen : s.bitLen.toNat ≤ s.payBitCap)
  (hread : s.payBits s.bitLen.toNat = (bits, r))
include hlen hread

theorem unpackBody_done (hscan : unpackLoop s.cb s.cfg.outDepth bits 0 0 [] 0 = (ms, none)) :
    unpackBody s = .done { r.writeOut ms with outLen := BitVec.ofNat 32 ms.length } := by
  rw [unpackBody, if_neg (Nat.not_lt.2 hlen)]
  simp only [hread, hscan]

theorem unpackBody_raised {e : CmdError} (hscan : unpackLoop s.cb s.cfg.outDepth bits 0 0 [] 0 = (ms, some e)) :
    unpackBody s = .raised e { r.writeOut ms with outLen := 0 } := by
  rw [unpackBody, if_neg (Nat.not_lt.2 hlen)]
  simp only [hread, hscan]

end

/-- Written payload bits are read as they are after acceptance too. -/
theorem payBits_accept_of_holds {s : State} {bits : List Bool} (w : Word) (hlen : s.bitLen.toNat = bits.length)
    (hbits : PayHolds s.mem bits) : (s.accept w).payBits (s.accept w).bitLen.toNat = (bits, s.accept w) := by
  rw [State.accept_bitLen, hlen]
  exact payBits_of_holds hbits

/-- Settles O38: the scan reads off all the symbols and has no bit left (`unpackLoop_parses`). -/
theorem unpackResult : Obligations.UnpackResult := by
  unfold Obligations.UnpackResult
  intro s bits ms hparams hlen hfit hbits hparse hroom
  obtain ⟨n, -, hscan⟩ := unpackLoop_parses 0 0 hparse ((Nat.zero_add _).trans_le hroom)
  rw [unpackLoop, if_pos rfl, List.append_nil] at hscan
  have hbody := unpackBody_done (s := s.accept (encode .unpack)) (hlen.trans_le hfit)
    (payBits_accept_of_holds _ hlen hbits) hscan
  obtain ⟨-, ⟨-, -, hout⟩, -⟩ := hparams
  have hcount : (BitVec.ofNat 32 ms.length).toNat = ms.length :=
    (BitVec.toNat_ofNat _ _).trans (Nat.mod_eq_of_lt (by omega))
  exact ⟨_, exec_done (i := .unpack) hbody, rfl, hcount, holds_writeBytes _ _ _,
    fun _ => Memory.lookup_writeBytes_outside _ _ _ _⟩

/-- UNPACK of a written payload that the scan stops on reports the stop, the symbols before it being written. -/
theorem exec_unpack_of_stop {s : State} {bits : List Bool} {ms : List Byte} {e : CmdError}
    (hlen : s.bitLen.toNat = bits.length) (hfit : bits.length ≤ s.cfg.payDepth * 8) (hbits : PayHolds s.mem bits)
    (hscan : unpackLoop s.cb s.cfg.outDepth bits 0 0 [] 0 = (ms, some e)) :
    ∃ t, exec .unpack s = .next t ∧
      t = ({ s with mem := t.mem, outLen := 0 } : State).endedErr 6 e.code.bits e.pos e.sym ∧
      Memory.Holds t.mem Config.outBase ms ∧
      ∀ a, a < Config.outBase ∨ Config.outBase + ms.length ≤ a → Memory.lookup t.mem a = Memory.lookup s.mem a :=
  ⟨_, exec_raised (i := .unpack) (unpackBody_raised (s := s.accept (encode .unpack)) (hlen.trans_le hfit)
    (payBits_accept_of_holds _ hlen hbits) hscan), rfl, holds_writeBytes _ _ _,
    fun _ => Memory.lookup_writeBytes_outside _ _ _ _⟩

/-- Settles O39: behind the symbols read off (`unpackLoop_parses`) the scan runs into the payload's end
(`unpackLoop_deadEnd`) or finds OUT full (`unpackLoop_full`). -/
theorem unpackStops : Obligations.UnpackStops := by
  unfold Obligations.UnpackStops
  intro s bits rest ms _ hlen hfit hbits hparse
  refine ⟨fun ⟨hne, hnone⟩ hroom => ?_, fun n m hfirst hfull => ?_⟩
  · obtain ⟨n, hn, hscan⟩ := unpackLoop_parses 0 0 hparse ((Nat.zero_add _).trans_le hroom)
    have hleft := List.length_pos_iff.2 hne
    rw [unpackLoop_deadEnd (cand := []) _ _ (by omega) hnone, List.append_nil, Nat.zero_add,
      Nat.eq_sub_of_add_eq hn.symm] at hscan
    exact exec_unpack_of_stop hlen hfit hbits hscan
  · obtain ⟨j, hj, hscan⟩ := unpackLoop_parses 0 0 hparse ((Nat.zero_add _).trans_le hfull.le)
    rw [Nat.zero_add, Nat.zero_add, hfull, unpackLoop_full hfirst, List.append_nil,
      Nat.eq_sub_of_add_eq hj.symm] at hscan
    exact exec_unpack_of_stop hlen hfit hbits hscan

end Sys2Proof.Machine

/-! Proofs: the round trip (44_bitpack R159): where no code begins another, the scan takes the stream apart where
PACK joined it. -/

namespace Sys2Proof.Machine

/-! ## The stream of a book in which no code begins another (43_codebook R146, 44_bitpack R156) -/

theorem PrefixFree.eq_of_prefix {cb : Vector CbEntry 256} (hfree : PrefixFree cb) {x y : Byte}
    (hx : (cb[x.toNat]'x.isLt).len ≠ 0) (hy : (cb[y.toNat]'y.isLt).len ≠ 0)
    (hprefix : (cb[x.toNat]'x.isLt).codeSeq <+: (cb[y.toNat]'y.isLt).codeSeq) : x = y := by
  by_contra hne
  exact hfree x.toFin hx y.toFin (fun h => hne (BitVec.eq_of_toFin_eq h.symm)) hy hprefix

/-- No proper start of a code is a code, so the scan matches where the code ends. -/
theorem PrefixFree.firstMatch {cb : Vector CbEntry 256} (hfree : PrefixFree cb) {x : Byte}
    (hx : (cb[x.toNat]'x.isLt).len ≠ 0) (rest : List Bool) :
    FirstMatch cb ((cb[x.toNat]'x.isLt).codeSeq ++ rest) (cb[x.toNat]'x.isLt).codeSeq.length x := by
  refine ⟨?_, by simp, ?_, fun j hj _ => matchCode_eq_none_iff.2 fun y ⟨hy, hcode⟩ => ?_⟩
  · rw [CbEntry.codeSeq_length]
    exact Nat.pos_of_ne_zero fun h => hx (BitVec.eq_of_toNat_eq h)
  · rw [List.take_left]
    refine matchCode_eq_some_iff.2 ⟨hx, rfl, fun y hlt ⟨hy, hcode⟩ => ?_⟩
    rw [hfree.eq_of_prefix hy hx (hcode ▸ List.prefix_refl _)] at hlt
    exact Nat.lt_irrefl _ hlt
  · rw [List.take_append_of_le_length hj.le] at hcode
    have hlength : (cb[y.toNat]'y.isLt).codeSeq.length = j := by rw [hcode, List.length_take, Nat.min_eq_left hj.le]
    rw [hfree.eq_of_prefix hy hx (hcode ▸ List.take_prefix j _)] at hlength
    exact Nat.ne_of_gt hj hlength

/-- The scan takes the codes of some symbols apart again. -/
theorem PrefixFree.parses_bookStream {cb : Vector CbEntry 256} (hfree : PrefixFree cb) : ∀ {xs : List Byte},
    (∀ x ∈ xs, (cb[x.toNat]'x.isLt).len ≠ 0) → Parses cb xs (bookStream cb xs) []
  | [], _ => rfl
  | x :: xs, hcoded => by
    obtain ⟨hx, hxs⟩ := List.forall_mem_cons.1 hcoded
    refine ⟨_, hfree.firstMatch hx (bookStream cb xs), ?_⟩
    rw [bookStream_cons, List.drop_left]
    exact hfree.parses_bookStream hxs

/-! ## What PACK leaves and UNPACK takes (44_bitpack R159) -/

/-- The payload is `xs` in the codes of the book. -/
structure State.Packed (s : State) (xs : List Byte) : Prop where
  coded : ∀ x ∈ xs, (s.cbAt x).len ≠ 0
  length : s.bitLen.toNat = (bookStream s.cb xs).length
  fits : (bookStream s.cb xs).length ≤ s.cfg.payDepth * 8
  bits : PayHolds s.mem (bookStream s.cb xs)

/-- A body of PACK that ends without an error has packed the whole input, writing PAY and BIT_LEN only. -/
theorem packed_of_packBody {s t : State} {xs : List Byte} (hparams : s.cfg.Ok) (hlen : s.inLen.toNat = xs.length)
    (hmem : Memory.Holds s.mem Config.inBase xs) (hbody : packBody s = .done t) :
    t = { s with mem := t.mem, bitLen := t.bitLen } ∧ t.Packed xs := by
  by_cases hlong : s.cfg.inDepth < s.inLen.toNat
  · cases (packBody_badLen hlong).symm.trans hbody
  have hread : s.inSymbols s.inLen.toNat = (xs, s) := hlen ▸ inSymbols_of_holds hmem
  rcases packLoop_cases s.cb s.payBitCap xs 0 0 (Nat.zero_le _) with ⟨hcoded, hfit, hpack⟩ | ⟨n, e, -, -, hpack⟩
  · rw [Nat.zero_add] at hfit
    cases (packBody_done (Nat.not_lt.1 hlong) hread hpack).symm.trans hbody
    obtain ⟨hbits, -⟩ := writePay_flushed s (bookStream s.cb xs)
    exact ⟨rfl, hcoded, toNat_bitLen_of_fits hparams hfit, hfit, hbits⟩
  · cases (packBody_raised (Nat.not_lt.1 hlong) hread hpack).symm.trans hbody

/-- UNPACK gives back what was packed with a book in which no code begins another. -/
theorem State.Packed.exec_unpack {s : State} {xs : List Byte} (h : s.Packed xs) (hparams : s.cfg.Ok)
    (hroom : xs.length ≤ s.cfg.outDepth) (hfree : PrefixFree s.cb) :
    ∃ u, exec .unpack s = .next u ∧ u.err = false ∧ u.outLen.toNat = xs.length ∧
      Memory.Holds u.mem Config.outBase xs := by
  obtain ⟨u, hexec, hended, hcount, hout, -⟩ :=
    unpackResult s _ xs hparams h.length h.fits h.bits (hfree.parses_bookStream h.coded) hroom
  exact ⟨u, hexec, by rw [hended]; rfl, hcount, hout⟩

/-- A command that ends without an error ended its body without one. -/
theorem bodyOf_done_of_exec {i : Instr} {s t : State} (hexec : exec i s = .next t) (herr : t.err = false) :
    ∃ u, bodyOf i (s.accept (encode i)) = .done u ∧ t = u.endedOk (opField (encode i)) := by
  rcases exec_next.1 hexec with ⟨u, hbody, -⟩ | ⟨e, u, -, rfl⟩
  · exact ⟨u, hbody, (Host.Outcome.next.inj ((exec_done hbody).symm.trans hexec)).symm⟩
  · cases herr

/-- After such a PACK that ended without an error, UNPACK gives the input back. -/
theorem exec_unpack_of_packBody {s t : State} {xs : List Byte} (hparams : s.cfg.Ok) (hlen : s.inLen.toNat = xs.length)
    (hmem : Memory.Holds s.mem Config.inBase xs) (hroom : xs.length ≤ s.cfg.outDepth) (hfree : PrefixFree s.cb)
    (hbody : packBody s = .done t) (op : BitVec 4) :
    ∃ u, exec .unpack (t.endedOk op) = .next u ∧ u.err = false ∧ u.outLen.toNat = xs.length ∧
      Memory.Holds u.mem Config.outBase xs := by
  obtain ⟨ht, hpacked⟩ := packed_of_packBody hparams hlen hmem hbody
  have hended : (t.endedOk op).Packed xs := { hpacked with }
  rw [ht] at hended ⊢
  exact hended.exec_unpack hparams hroom hfree

/-- Settles O41: PACK without an error has packed the whole input (`packed_of_packBody`), and UNPACK gives it back
(`State.Packed.exec_unpack`). -/
theorem packThenUnpack : Obligations.PackThenUnpack := by
  unfold Obligations.PackThenUnpack
  intro s t xs hparams hlen hmem hroom hfree hexec herr
  obtain ⟨u, hbody, rfl⟩ := bodyOf_done_of_exec hexec herr
  exact exec_unpack_of_packBody (s := s.accept (encode .pack)) hparams hlen hmem hroom hfree hbody _

/-! ## ENCODE (45_entrypoints R170) -/

theorem BodyResult.andThen_done {r : BodyResult} {f : State → BodyResult} {t : State} :
    r.andThen f = .done t ↔ ∃ u, r = .done u ∧ f u = .done t := by
  cases r <;> simp [BodyResult.andThen]

theorem encodeGenCodes_done {s t : State} : encodeGenCodes s = .done t ↔ genCodesBody s = .done t := by
  unfold encodeGenCodes
  cases genCodesBody s <;> simp

/-- GEN_CODES sees MAX_CODE_LEN and the tree only, and writes CB only. -/
theorem genCodesBody_congr {r s t : State} (hcfg : r.cfg = s.cfg) (hvalid : r.treeValid = s.treeValid)
    (hnsym : r.nsym = s.nsym) (hnodes : r.nodes = s.nodes) (hroot : r.rootIndex = s.rootIndex)
    (hbody : genCodesBody s = .done t) : genCodesBody r = .done { r with cb := t.cb } := by
  have hpaths : r.paths = s.paths := by rw [State.paths, State.paths, hnodes, hroot]
  unfold genCodesBody at hbody ⊢
  rw [hcfg, hvalid, hnsym, hnodes, hroot, hpaths]
  split at hbody
  · cases hbody
  rename_i htree
  rw [if_neg htree]
  split at hbody
  · cases hbody
    exact if_pos ‹_›
  rename_i hzero
  rw [if_neg hzero]
  split at hbody
  · cases hbody
    exact if_pos ‹_›
  rename_i hone
  rw [if_neg hone]
  split at hbody
  · cases hbody
  · split at hbody
    · cases hbody
    · cases hbody
      simp only [*]

/-- In the book of a tree just built no code begins another (43_codebook R146 item 2): with two or more symbols its codes
are paths to leaves, otherwise it has at most one code. -/
theorem prefixFree_of_built {s t : State} (hparams : s.cfg.Ok) (hgen : genCodesBody s.built = .done t) :
    PrefixFree t.cb := by
  have hexec := exec_genCodes_of_done
    (genCodesBody_congr (r := (s.built.endedOk 3).accept (encode .genCodes)) (s := s.built) rfl rfl rfl rfl rfl hgen)
  have hbook := bookCoversPresentSymbols s _ _ hparams (exec_buildTree s) hexec rfl
  refine prefixFree_of_bytes fun x y hx hy hprefix => ?_
  obtain ⟨hxpresent, hxpath⟩ := hbook x
  obtain ⟨hypresent, hypath⟩ := hbook y
  by_cases hseveral : 2 ≤ (s.built.endedOk 3).nsym.toNat
  · have hxleaf := (hxpath hseveral _).2 ⟨hx, rfl⟩
    have hyleaf := (hypath hseveral _).2 ⟨hy, rfl⟩
    exact hxleaf.eq_of_prefix hyleaf hprefix
  · rw [State.endedOk_nsym, s.built_nsym] at hseveral
    obtain ⟨i, hi, rfl⟩ := List.getElem_of_mem (mem_presentSymbols.2 (hxpresent.1 hx))
    obtain ⟨j, hj, rfl⟩ := List.getElem_of_mem (mem_presentSymbols.2 (hypresent.1 hy))
    obtain rfl : i = j := by omega
    rfl

/-- ENCODE without an error ends with a PACK, from a state with the input as it was and a book in which no code begins
another. -/
theorem encodeBody_done {s t : State} (hparams : s.cfg.Ok) (hbody : encodeBody s = .done t) :
    ∃ v, v.cfg = s.cfg ∧ v.inLen = s.inLen ∧ v.mem = s.mem ∧ PrefixFree v.cb ∧ packBody v = .done t := by
  unfold encodeBody at hbody
  split at hbody
  · cases hbody
  simp only [BodyResult.andThen_done, encodeGenCodes_done, buildTreeBody_eq] at hbody
  obtain ⟨v, ⟨_, ⟨u, hcount, ⟨⟩⟩, hgen⟩, hpack⟩ := hbody
  have hframe := freqCountBody_keeps { s with freq := Vector.replicate 256 0, total := 0 }
  have hbuffers := freqCountBody_leaves_buffers { s with freq := Vector.replicate 256 0, total := 0 }
  rw [hcount] at hframe hbuffers
  obtain ⟨hcfg, hmem⟩ : u.cfg = s.cfg ∧ u.mem = s.mem := hbuffers
  have hv : v = { u.built with cb := v.cb } :=
    BodyResult.done.inj (hgen.symm.trans (genCodesBody_congr rfl rfl rfl rfl rfl hgen))
  exact ⟨v, (congrArg State.cfg hv).trans hcfg, (congrArg State.inLen hv).trans hframe.inLen,
    (congrArg State.mem hv).trans hmem, prefixFree_of_built (hcfg ▸ hparams) hgen, hpack⟩

/-- Settles O44: ENCODE ends with a PACK of its input with a book in which no code begins another (`encodeBody_done`), so
UNPACK gives the input back as in O41. -/
theorem encodeThenUnpack : Obligations.EncodeThenUnpack := by
  unfold Obligations.EncodeThenUnpack
  intro s t xs hparams hlen hmem hroom hexec herr
  obtain ⟨u, hbody, rfl⟩ := bodyOf_done_of_exec hexec herr
  obtain ⟨v, hcfg, hinput, hbuffers, hfree, hpack⟩ := encodeBody_done (s := s.accept (encode .encode)) hparams hbody
  exact exec_unpack_of_packBody (hcfg ▸ hparams) (hinput ▸ hlen) (hbuffers ▸ hmem) (hcfg ▸ hroom) hfree hpack _

end Sys2Proof.Machine

/-! Proofs: the shift-mask packer (44_bitpack R151) holds the bits not yet written in ACC. -/

namespace Sys2Proof.Machine

/-! ## Numbers, masks and bytes (00_scope R7, 20_memory R65) -/

theorem val_append (q : List Bool) : ∀ p : List Bool, val (p ++ q) = val p * 2 ^ q.length + val q
  | [] => by simp [val]
  | b :: p => by
    rw [List.cons_append, val, val, val_append q p, List.length_append, Nat.pow_add]
    ring

theorem val_take_drop (n : Nat) (p : List Bool) :
    val p = val (p.take n) * 2 ^ (p.length - n) + val (p.drop n) := by
  rw [← List.length_drop, ← val_append, List.take_append_drop]

/-- Masking keeps the low bits. -/
theorem toNat_and_lowMask {w n : Nat} (x : BitVec w) (h : n ≤ w) : (x &&& lowMask w n).toNat = x.toNat % 2 ^ n := by
  have hmask : 2 ^ n - 1 < 2 ^ w :=
    Nat.lt_of_lt_of_le (Nat.sub_one_lt (Nat.two_pow_pos n).ne') (Nat.pow_le_pow_right (by decide) h)
  rw [BitVec.toNat_and, lowMask, BitVec.toNat_ofNat, Nat.mod_eq_of_lt hmask, Nat.and_two_pow_sub_one_eq_mod]

theorem val_lt_of_length_le {w : Nat} {p : List Bool} (h : p.length ≤ w) : val p < 2 ^ w :=
  (val_lt p).trans_le (Nat.pow_le_pow_right (by decide) h)

/-- A register wide enough holds a sequence's number exactly. -/
theorem toNat_ofNat_val {w : Nat} {p : List Bool} (h : p.length ≤ w) : (BitVec.ofNat w (val p)).toNat = val p :=
  (BitVec.toNat_ofNat _ _).trans (Nat.mod_eq_of_lt (val_lt_of_length_le h))

/-- A byte of eight bits or more needs no padding. -/
theorem byteOfBits_of_long {p : List Bool} (h : 8 ≤ p.length) : byteOfBits p = BitVec.ofNat 8 (val (p.take 8)) := by
  rw [byteOfBits, List.take_append_of_le_length h]

/-- A byte of fewer bits is padded with zeros. -/
theorem byteOfBits_of_short {p : List Bool} (h : p.length ≤ 8) :
    byteOfBits p = BitVec.ofNat 8 (val p * 2 ^ (8 - p.length)) := by
  have hzeros : ∀ n, val (List.replicate n false) = 0 := fun n => by
    induction n with
    | zero => rfl
    | succ n ih => simp [List.replicate_succ, val, ih]
  rw [byteOfBits, List.take_append, List.take_of_length_le h, List.take_replicate, Nat.min_eq_left (Nat.sub_le _ _),
    val_append, hzeros, List.length_replicate, Nat.add_zero]

/-- Behind `n` payload bytes comes the byte of the next eight bits. -/
theorem streamBytes_succ : ∀ (n : Nat) (bits : List Bool),
    streamBytes (n + 1) bits = streamBytes n bits ++ [byteOfBits (bits.drop (8 * n))]
  | 0, _ => rfl
  | n + 1, bits => by
    rw [streamBytes, streamBytes_succ n (bits.drop 8), List.drop_drop, show 8 + 8 * n = 8 * (n + 1) by omega]
    rfl

/-- Whole bytes do not change when the stream goes on. -/
theorem streamBytes_append {p : List Bool} (q : List Bool) {n : Nat} (h : 8 * n ≤ p.length) :
    streamBytes n (p ++ q) = streamBytes n p := by
  refine List.ext_getElem (by simp) fun k hk hk' => ?_
  rw [streamBytes_length] at hk
  have hlong : 8 ≤ (p.drop (8 * k)).length := by rw [List.length_drop]; omega
  rw [getElem_streamBytes, getElem_streamBytes, List.drop_append_of_le_length (by omega),
    byteOfBits_of_long (by rw [List.length_append]; omega), byteOfBits_of_long hlong,
    List.take_append_of_le_length hlong]

theorem Memory.writeBytes_concat (v : Byte) : ∀ (vs : List Byte) (m : List Host.Cell) (x : Nat),
    Memory.writeBytes m x (vs ++ [v]) = Memory.write (Memory.writeBytes m x vs) (x + vs.length) v
  | [], _, _ => rfl
  | u :: vs, m, x => by
    rw [List.cons_append, Memory.writeBytes, Memory.writeBytes_concat v vs, List.length_cons, Nat.add_right_comm]
    rfl

/-! ## The accumulator (44_bitpack R151) -/

/-- The packer after the bits `bits`, `n` whole bytes of them written from memory `m` on: ACC holds the rest. -/
def Packer.holding (m : List Host.Cell) (bits : List Bool) (n : Nat) : Packer :=
  { acc := BitVec.ofNat 262 (val (bits.drop (8 * n))), accN := bits.length - 8 * n, pos := bits.length,
    mem := Memory.writeBytes m Config.payBase (streamBytes n bits) }

@[simp] theorem Packer.holding_accN (m : List Host.Cell) (bits : List Bool) (n : Nat) :
    (holding m bits n).accN = bits.length - 8 * n := rfl

@[simp] theorem Packer.holding_pos (m : List Host.Cell) (bits : List Bool) (n : Nat) :
    (holding m bits n).pos = bits.length := rfl

/-- The oldest eight bits of ACC are the next payload byte. -/
theorem extractLsb'_oldest {p : List Bool} (hlong : 8 ≤ p.length) (hroom : p.length ≤ 262) :
    (BitVec.ofNat 262 (val p)).extractLsb' (p.length - 8) 8 = byteOfBits p := by
  have hlow : val (p.drop 8) < 2 ^ (p.length - 8) := List.length_drop ▸ val_lt (p.drop 8)
  rw [byteOfBits_of_long hlong]
  apply BitVec.eq_of_toNat_eq
  rw [BitVec.extractLsb'_toNat, toNat_ofNat_val hroom, val_take_drop 8 p, Nat.shiftRight_eq_div_pow, Nat.mul_comm,
    Nat.mul_add_div (Nat.two_pow_pos _), Nat.div_eq_of_lt hlow, Nat.add_zero, BitVec.toNat_ofNat]

/-- Masking drops the eight bits just written. -/
theorem and_lowMask_oldest {p : List Bool} (hroom : p.length ≤ 262) :
    BitVec.ofNat 262 (val p) &&& lowMask 262 (p.length - 8) = BitVec.ofNat 262 (val (p.drop 8)) := by
  have hlow : val (p.drop 8) < 2 ^ (p.length - 8) := List.length_drop ▸ val_lt (p.drop 8)
  apply BitVec.eq_of_toNat_eq
  rw [toNat_and_lowMask _ (by omega), toNat_ofNat_val hroom, toNat_ofNat_val (by rw [List.length_drop]; omega),
    val_take_drop 8 p, Nat.mul_comm, Nat.mul_add_mod, Nat.mod_eq_of_lt hlow]

/-- Emitting one byte: the next eight bits go from ACC to the buffer. -/
theorem Packer.emit_succ_holding (m : List Host.Cell) {bits : List Bool} {n : Nat} (fuel : Nat)
    (hlong : 8 * n + 8 ≤ bits.length) (hroom : bits.length - 8 * n ≤ 262) :
    Packer.emit (fuel + 1) (holding m bits n) = Packer.emit fuel (holding m bits (n + 1)) := by
  have hrest : (bits.drop (8 * n)).length = bits.length - 8 * n := List.length_drop
  have hbyte := extractLsb'_oldest (p := bits.drop (8 * n)) (by omega) (by omega)
  have hmask := and_lowMask_oldest (p := bits.drop (8 * n)) (by omega)
  rw [hrest] at hbyte hmask
  have haddr : (bits.length - (bits.length - 8 * n)) / 8 = n := by omega
  rw [Packer.emit, holding_accN, if_neg (by omega)]
  simp only [holding, hbyte, hmask, haddr]
  rw [streamBytes_succ, Memory.writeBytes_concat, streamBytes_length, List.drop_drop, Nat.sub_sub]
  rfl

/-- Emitting writes every whole byte that ACC holds. -/
theorem Packer.emit_holding (m : List Host.Cell) {bits : List Bool} : ∀ (fuel n : Nat), 8 * n ≤ bits.length →
    bits.length - 8 * n ≤ 262 → bits.length - 8 * n < 8 * fuel + 8 →
    Packer.emit fuel (holding m bits n) = holding m bits (bits.length / 8)
  | 0, n, hle, _, hfuel => by rw [Packer.emit, show bits.length / 8 = n by omega]
  | fuel + 1, n, hle, hroom, hfuel => by
    by_cases hshort : bits.length - 8 * n < 8
    · rw [Packer.emit, holding_accN, if_pos hshort, show bits.length / 8 = n by omega]
    · rw [Packer.emit_succ_holding m fuel (by omega) hroom]
      exact Packer.emit_holding m fuel (n + 1) (by omega) (by omega) (by omega)

/-- Shifting a code into a register with room for it, and masking it, appends it to the bits held. -/
theorem shiftLeft_or_code {w : Nat} {p : List Bool} {e : CbEntry} (hroom : p.length + e.len.toNat ≤ w) :
    (BitVec.ofNat w (val p) <<< e.len.toNat) ||| (e.code &&& lowMask 256 e.len.toNat).setWidth w =
      BitVec.ofNat w (val (p ++ e.codeSeq)) := by
  have hcode : val e.codeSeq < 2 ^ e.len.toNat := e.codeSeq_length ▸ val_lt e.codeSeq
  have hval : val (p ++ e.codeSeq) = val p * 2 ^ e.len.toNat + val e.codeSeq := by
    rw [val_append, e.codeSeq_length]
  have hwide : val (p ++ e.codeSeq) < 2 ^ w :=
    val_lt_of_length_le (by rwa [List.length_append, e.codeSeq_length])
  rw [hval] at hwide
  apply BitVec.eq_of_toNat_eq
  rw [BitVec.toNat_or, BitVec.toNat_shiftLeft, toNat_ofNat_val (by omega), BitVec.toNat_setWidth,
    toNat_and_lowMask _ (Nat.le_of_lt e.len.isLt), ← e.val_codeSeq, Nat.shiftLeft_eq, BitVec.toNat_ofNat, hval,
    Nat.mod_eq_of_lt ((Nat.le_add_right _ _).trans_lt hwide), Nat.mod_eq_of_lt ((Nat.le_add_left _ _).trans_lt hwide),
    Nat.mod_eq_of_lt hwide, Nat.mul_comm, Nat.two_pow_add_eq_or_of_lt hcode]

theorem Packer.shiftIn_holding (m : List Host.Cell) (bits : List Bool) (e : CbEntry) :
    (holding m bits (bits.length / 8)).shiftIn e =
      holding m (bits ++ e.codeSeq) ((bits ++ e.codeSeq).length / 8) := by
  have hlen := e.len.isLt
  have hlength : (bits ++ e.codeSeq).length = bits.length + e.len.toNat := by
    rw [List.length_append, e.codeSeq_length]
  have hacc := shiftLeft_or_code (w := 262) (e := e) (p := bits.drop (8 * (bits.length / 8)))
    (by rw [List.length_drop]; omega)
  rw [← List.drop_append_of_le_length (by omega)] at hacc
  rw [Packer.shiftIn, ← Packer.emit_holding m (bits := bits ++ e.codeSeq) 33 (bits.length / 8) (by omega) (by omega)
    (by omega)]
  refine congrArg (Packer.emit 33) ?_
  simp only [holding, hacc, hlength, streamBytes_append e.codeSeq (by omega : 8 * (bits.length / 8) ≤ bits.length),
    Packer.mk.injEq, and_true, true_and]
  omega

/-- The bits left in ACC, zero-padded, are the last payload byte. -/
theorem padded_acc {p : List Bool} (hshort : p.length < 8) :
    ((BitVec.ofNat 262 (val p)).setWidth 8 &&& lowMask 8 p.length) <<< (8 - p.length) = byteOfBits p := by
  have hval := val_lt p
  have hbyte : val p < 2 ^ 8 := val_lt_of_length_le hshort.le
  rw [byteOfBits_of_short hshort.le]
  apply BitVec.eq_of_toNat_eq
  rw [BitVec.toNat_shiftLeft, toNat_and_lowMask _ hshort.le, BitVec.toNat_setWidth, toNat_ofNat_val (by omega),
    Nat.mod_eq_of_lt hbyte, Nat.mod_eq_of_lt hval, Nat.shiftLeft_eq, BitVec.toNat_ofNat]

/-- The flush writes the last partial byte, so the buffer holds the whole stream (44_bitpack R152). -/
theorem Packer.flush_holding (m : List Host.Cell) (bits : List Bool) :
    (holding m bits (bits.length / 8)).flush.mem =
        Memory.writeBytes m Config.payBase (streamBytes (byteCount bits.length) bits) ∧
      (holding m bits (bits.length / 8)).flush.pos = bits.length := by
  by_cases hrest : 0 < bits.length - 8 * (bits.length / 8)
  · have hbyte := padded_acc (p := bits.drop (8 * (bits.length / 8))) (by rw [List.length_drop]; omega)
    rw [List.length_drop] at hbyte
    rw [Packer.flush, holding_accN, if_pos hrest, holding]
    simp only [hbyte, and_true]
    rw [show byteCount bits.length = bits.length / 8 + 1 by unfold byteCount; omega, streamBytes_succ,
      Memory.writeBytes_concat, streamBytes_length]
  · rw [Packer.flush, holding_accN, if_neg hrest, show byteCount bits.length = bits.length / 8 by unfold byteCount; omega]
    exact ⟨rfl, rfl⟩

/-- The pipeline goes on as the packing loop does, ACC holding the bits not yet written. -/
theorem Packer.run_holding (cb : Vector CbEntry 256) (cap : Nat) (m : List Host.Cell) : ∀ (xs : List Byte) (i : Nat)
    (bits out : List Bool), out = bits ++ (packLoop cb cap xs i bits.length).1 →
    Packer.run cb cap xs i (holding m bits (bits.length / 8)) =
      ((holding m out (out.length / 8)).flush, (packLoop cb cap xs i bits.length).2)
  | [], i, bits, out, hout => by
    rw [packLoop, List.append_nil] at hout
    rw [hout]
    rfl
  | x :: xs, i, bits, out, hout => by
    rw [packLoop] at hout ⊢
    rw [Packer.run, holding_pos]
    by_cases hcode : (cb[x.toNat]'x.isLt).len = 0
    · rw [if_pos hcode, List.append_nil] at hout
      rw [if_pos hcode, if_pos hcode, hout]
    by_cases hfull : bits.length + (cb[x.toNat]'x.isLt).len.toNat > cap
    · rw [if_neg hcode, if_pos hfull, List.append_nil] at hout
      rw [if_neg hcode, if_neg hcode, if_pos hfull, if_pos hfull, hout]
    have hlength : (bits ++ (cb[x.toNat]'x.isLt).codeSeq).length = bits.length + (cb[x.toNat]'x.isLt).len.toNat := by
      rw [List.length_append, CbEntry.codeSeq_length]
    rw [if_neg hcode, if_neg hfull, ← List.append_assoc, ← hlength] at hout
    rw [if_neg hcode, if_neg hcode, if_neg hfull, if_neg hfull, Packer.shiftIn_holding, ← hlength]
    exact Packer.run_holding cb cap m xs (i + 1) _ out hout

/-- Settles O45: ACC always holds the bits not yet written (`Packer.run_holding`), which the flush writes
(`Packer.flush_holding`). -/
theorem shiftMaskPackerAgrees : Obligations.ShiftMaskPackerAgrees := by
  unfold Obligations.ShiftMaskPackerAgrees
  intro s xs p d
  have hrun : d = ((Packer.holding s.mem p.1 (p.1.length / 8)).flush, p.2) :=
    Packer.run_holding s.cb s.payBitCap s.mem xs 0 [] p.1 rfl
  obtain ⟨hmem, hpos⟩ := Packer.flush_holding s.mem p.1
  rw [hrun]
  exact ⟨hmem, hpos, rfl⟩

end Sys2Proof.Machine

/-! Proofs: the unpack datapath (44_bitpack R157, R158) holds the scan's candidate in CAND. -/

namespace Sys2Proof.Machine

/-! ## The candidate register (44_bitpack R156, R158) -/

/-- The comparator answers as the lookup's comparison does, up to the register's 255 bits. -/
theorem comparator_eq_codeMatches {cand : List Bool} (hroom : cand.length ≤ 255) :
    comparator (BitVec.ofNat 255 (val cand)) cand.length = codeMatches cand := by
  funext e
  have hcode : ((e.code &&& lowMask 256 cand.length) == (BitVec.ofNat 255 (val cand)).setWidth 256) =
      (e.code.toNat % 2 ^ cand.length == val cand) := by
    have hcand : ((BitVec.ofNat 255 (val cand)).setWidth 256).toNat = val cand := by
      rw [BitVec.toNat_setWidth_of_le (by decide), toNat_ofNat_val hroom]
    rw [Bool.eq_iff_iff, beq_iff_eq, beq_iff_eq, ← BitVec.toNat_inj, toNat_and_lowMask _ (by omega), hcand]
  rw [comparator, codeMatches, hcode, Bool.and_comm (e.len != 0)]

theorem comparatorBank_eq_matchCode (cb : Vector CbEntry 256) {cand : List Bool} (hroom : cand.length ≤ 255) :
    comparatorBank cb (BitVec.ofNat 255 (val cand)) cand.length = matchCode cb cand := by
  rw [comparatorBank, matchCode, comparator_eq_codeMatches hroom]

/-- Shifting the next bit in appends it to the candidate, as in the partial code of a stack entry (43_codebook R145). -/
theorem shiftLeft_or_bit (cand : List Bool) (b : Bool) :
    (BitVec.ofNat 255 (val cand) <<< 1) ||| (BitVec.ofBool b).setWidth 255 =
      BitVec.ofNat 255 (val (cand ++ [b])) := by
  cases b with
  | false => exact BitVec.or_zero.trans (congrArg WalkEntry.code (WalkEntry.ofPath_left 0 0 cand))
  | true => exact congrArg WalkEntry.code (WalkEntry.ofPath_right 0 0 cand)

/-- A candidate of more than 255 bits is no code (44_bitpack R157). -/
theorem matchCode_of_long (cb : Vector CbEntry 256) {cand : List Bool} (hlong : 255 < cand.length) :
    matchCode cb cand = none := by
  refine matchCode_eq_none_iff.2 fun y ⟨_, hcode⟩ => ?_
  rw [← hcode, CbEntry.codeSeq_length] at hlong
  exact absurd (cb[y.toNat]'y.isLt).len.isLt (Nat.not_lt.2 hlong)

/-! ## The datapath (44_bitpack R158) -/

/-- The datapath with the candidate `cand` grown from position `start`, `k` symbols written. -/
def Unpacker.holding (m : List Host.Cell) (start k : Nat) (cand : List Bool) : Unpacker :=
  { cand := BitVec.ofNat 255 (val cand), candN := cand.length, pos := start + cand.length, k := k, mem := m }

section
variable (cb : Vector CbEntry 256) (cap : Nat) (m : List Host.Cell) (start k : Nat) (bits : List Bool)
  {cand : List Bool} {b : Bool}

theorem Unpacker.run_nil : Unpacker.run cb cap [] (holding m start k cand) = (holding m start k cand,
    if cand.length = 0 then none else some { code := .malformedPayload, pos := start, sym := 0 }) := by
  rw [holding, Unpacker.run, Nat.add_sub_cancel]

theorem Unpacker.run_full (hfull : cand.length = 255) :
    Unpacker.run cb cap bits (holding m start k cand) =
      (holding m start k cand, some { code := .malformedPayload, pos := start, sym := 0 }) := by
  cases bits with
  | nil => rw [Unpacker.run_nil, if_neg (by omega)]
  | cons b bits => rw [holding, Unpacker.run, if_pos hfull, Nat.add_sub_cancel]

/-- With room in CAND, the next bit is shifted in and the bank looks the longer candidate up. -/
theorem comparatorBank_shifted (hroom : cand.length < 255) :
    comparatorBank cb ((BitVec.ofNat 255 (val cand) <<< 1) ||| (BitVec.ofBool b).setWidth 255) (cand.length + 1) =
      matchCode cb (cand ++ [b]) := by
  have hlength : (cand ++ [b]).length = cand.length + 1 := List.length_append
  rw [shiftLeft_or_bit, ← hlength, comparatorBank_eq_matchCode cb (by omega)]

theorem Unpacker.run_grow (hroom : cand.length < 255) (hmatch : matchCode cb (cand ++ [b]) = none) :
    Unpacker.run cb cap (b :: bits) (holding m start k cand) =
      Unpacker.run cb cap bits (holding m start k (cand ++ [b])) := by
  rw [holding, Unpacker.run, if_neg (Nat.ne_of_lt hroom)]
  simp only [comparatorBank_shifted cb hroom, hmatch]
  rw [shiftLeft_or_bit, holding, List.length_append]
  rfl

theorem Unpacker.run_outFull {x : Byte} (hroom : cand.length < 255) (hmatch : matchCode cb (cand ++ [b]) = some x) :
    Unpacker.run cb k (b :: bits) (holding m start k cand) =
      (holding m start k cand, some { code := .outOverflow, pos := start, sym := x }) := by
  rw [holding, Unpacker.run, if_neg (Nat.ne_of_lt hroom)]
  simp only [comparatorBank_shifted cb hroom, hmatch, if_true, Nat.add_sub_cancel]

theorem Unpacker.run_match {x : Byte} (hroom : cand.length < 255) (hmatch : matchCode cb (cand ++ [b]) = some x)
    (hk : k ≠ cap) : Unpacker.run cb cap (b :: bits) (holding m start k cand) =
      Unpacker.run cb cap bits
        (holding (Memory.write m (Config.outBase + k) x) (start + cand.length + 1) (k + 1) []) := by
  rw [holding, Unpacker.run, if_neg (Nat.ne_of_lt hroom)]
  simp only [comparatorBank_shifted cb hroom, hmatch, if_neg hk]
  rfl

/-- With the register full the scan fails in the end where the datapath fails at once: no longer candidate is a code
(44_bitpack R157). -/
theorem unpackLoop_of_full (hfull : cand.length = 255) :
    unpackLoop cb cap bits (start + cand.length) start cand k =
      ([], some { code := .malformedPayload, pos := start, sym := 0 }) := by
  refine unpackLoop_deadEnd cap k (by omega) fun j hj hpos => matchCode_of_long cb ?_
  rw [List.length_append, List.length_take, Nat.min_eq_left (Nat.le_of_lt_succ hj)]
  omega

end

/-- The datapath goes on as the scan does, CAND holding the candidate. -/
theorem Unpacker.run_holding (cb : Vector CbEntry 256) (cap : Nat) : ∀ (bits : List Bool) (m : List Host.Cell)
    (start k : Nat) (cand : List Bool), cand.length ≤ 255 →
    let u := unpackLoop cb cap bits (start + cand.length) start cand k
    let d := Unpacker.run cb cap bits (holding m start k cand)
    d.1.mem = Memory.writeBytes m (Config.outBase + k) u.1 ∧ d.1.k = k + u.1.length ∧ d.2 = u.2
  | [], m, start, k, cand, _ => by
    rw [Unpacker.run_nil, unpackLoop]
    by_cases hempty : cand.length = 0
    · rw [if_pos hempty, if_pos (by omega)]
      exact ⟨rfl, rfl, rfl⟩
    · rw [if_neg hempty, if_neg (by omega)]
      exact ⟨rfl, rfl, rfl⟩
  | b :: bits, m, start, k, cand, hle => by
    by_cases hfull : cand.length = 255
    · rw [Unpacker.run_full cb cap m start k _ hfull, unpackLoop_of_full cb cap start k _ hfull]
      exact ⟨rfl, rfl, rfl⟩
    have hroom : cand.length < 255 := by omega
    rw [unpackLoop]
    cases hmatch : matchCode cb (cand ++ [b]) with
    | none =>
      have hlength : (cand ++ [b]).length = cand.length + 1 := List.length_append
      have ih := Unpacker.run_holding cb cap bits m start k (cand ++ [b]) (by omega)
      rw [Unpacker.run_grow cb cap m start k bits hroom hmatch]
      rwa [hlength] at ih
    | some x =>
      by_cases hcap : k = cap
      · subst hcap
        rw [Unpacker.run_outFull cb m start k bits hroom hmatch]
        simp only [if_true]
        exact ⟨rfl, rfl, trivial⟩
      · obtain ⟨hmem, hk, herr⟩ := Unpacker.run_holding cb cap bits (Memory.write m (Config.outBase + k) x)
          (start + cand.length + 1) (k + 1) [] (Nat.zero_le _)
        rw [Unpacker.run_match cb cap m start k bits hroom hmatch hcap]
        simp only [if_neg hcap]
        exact ⟨hmem, hk.trans (Nat.add_right_comm _ _ _), herr⟩

/-- Settles O46: CAND always holds the scan's candidate (`Unpacker.run_holding`), and a full register ends the scan too
(`unpackLoop_of_full`). -/
theorem unpackDatapathAgrees : Obligations.UnpackDatapathAgrees := by
  unfold Obligations.UnpackDatapathAgrees
  intro s bits u d
  obtain ⟨hmem, hk, herr⟩ := Unpacker.run_holding s.cb s.cfg.outDepth bits s.mem 0 0 [] (Nat.zero_le _)
  exact ⟨hmem, hk.trans (Nat.zero_add _), herr⟩

end Sys2Proof.Machine

/-! Proofs: what must survive until decode (45_entrypoints R172), and ENCODE as the sequence of four commands (R170). -/

namespace Sys2Proof.Machine

/-! ## What survives until decode (45_entrypoints R172) -/

/-- `u` has the book and the payload's length of `s`. -/
def SameBook (s u : State) : Prop := u.cb = s.cb ∧ u.bitLen = s.bitLen

theorem freqCountBody_leaves_book (s : State) : (freqCountBody s).Leaves (SameBook s) := by
  unfold freqCountBody
  split
  · exact ⟨rfl, rfl⟩
  · simp only
    split <;> exact ⟨rfl, rfl⟩

theorem unpackBody_leaves_book (s : State) : (unpackBody s).Leaves (SameBook s) := by
  unfold unpackBody
  split
  · exact ⟨rfl, rfl⟩
  · simp only
    split <;> exact ⟨rfl, rfl⟩

/-- Only CLEAR, GEN_CODES, PACK and ENCODE write CB or BIT_LEN. -/
theorem bodyOf_leaves_book {i : Instr} (hclear : i ≠ .clear) (hgen : i ≠ .genCodes) (hpack : i ≠ .pack)
    (hencode : i ≠ .encode) (s : State) : (bodyOf i s).Leaves (SameBook s) := by
  cases i with
  | nop | illegalOp | illegalRes => exact ⟨rfl, rfl⟩
  | freqCount => exact freqCountBody_leaves_book s
  | buildTree =>
    rw [bodyOf, buildTreeBody_eq]
    exact ⟨rfl, rfl⟩
  | unpack => exact unpackBody_leaves_book s
  | clear => exact absurd rfl hclear
  | genCodes => exact absurd rfl hgen
  | pack => exact absurd rfl hpack
  | encode => exact absurd rfl hencode

/-- A command's book and payload length are those its body left. -/
theorem exec_sameBook {i : Instr} {s t : State} (hbody : (bodyOf i (s.accept (encode i))).Leaves (SameBook s))
    (hexec : exec i s = .next t) : SameBook s t := by
  rcases exec_next.1 hexec with ⟨u, hu, rfl⟩ | ⟨e, u, hu, rfl⟩ <;> rw [hu] at hbody <;> exact hbody

/-- Settles O9: the bodies that may run between ENCODE and UNPACK leave the book (`bodyOf_leaves_book`) and the buffers
(`exec_mem_eq`), and UNPACK writes within OUT, which ends before PAY begins. -/
theorem payloadAndBookSurvive : Obligations.PayloadAndBookSurvive := by
  unfold Obligations.PayloadAndBookSurvive
  intro i s t hparams hexec
  refine ⟨fun hclear hgen hpack hencode hunpack => ?_, ?_⟩
  · obtain ⟨hcb, hbits⟩ := exec_sameBook (bodyOf_leaves_book hclear hgen hpack hencode _) hexec
    exact ⟨hcb, hbits, exec_mem_eq hexec hpack hunpack hencode⟩
  · rintro rfl
    obtain ⟨hcb, hbits⟩ := exec_sameBook (unpackBody_leaves_book (s.accept (encode .unpack))) hexec
    refine ⟨hcb, hbits, fun a hpay => ?_⟩
    by_contra hne
    obtain ⟨-, hout⟩ := exec_changesWithin (unpackBody_changesWithin _) hexec a hne
    rw [State.accept_cfg] at hout
    obtain ⟨-, ⟨-, -, hdepth⟩, -⟩ := hparams
    have hend : Config.payBase = Config.outBase + 65536 := rfl
    omega

/-! ## Bodies do not see the lifecycle's registers -/

/-- `s` with the engine, the report and IRQ_STATUS of `l`: what acceptance, a raise and completion write (40_control
R100, R101, 60_exceptions R180). -/
def State.withLife (s l : State) : State :=
  { s with
    engine := l.engine, lastOp := l.lastOp, errCode := l.errCode, err := l.err, errPos := l.errPos, errSym := l.errSym,
    irqStatus := l.irqStatus }

/-- The body's end with the lifecycle's registers of `l` in the state it left. -/
def BodyResult.withLife (l : State) : BodyResult → BodyResult
  | .done u => .done (u.withLife l)
  | .raised e u => .raised e (u.withLife l)
  | .stopped f => .stopped f

theorem freqCountBody_withLife (s l : State) : freqCountBody (s.withLife l) = (freqCountBody s).withLife l := by
  have hread : (s.withLife l).inSymbols s.inLen.toNat =
      ((s.inSymbols s.inLen.toNat).1, (s.inSymbols s.inLen.toNat).2.withLife l) := rfl
  simp only [freqCountBody, State.withLife] at hread ⊢
  simp only [hread]
  split
  · rfl
  · split <;> rfl

theorem buildTreeBody_withLife (s l : State) : buildTreeBody (s.withLife l) = (buildTreeBody s).withLife l := by
  rw [buildTreeBody_eq, buildTreeBody_eq]
  rfl

theorem genCodesBody_withLife (s l : State) : genCodesBody (s.withLife l) = (genCodesBody s).withLife l := by
  have hpaths : (s.withLife l).paths = s.paths := rfl
  simp only [genCodesBody, State.withLife] at hpaths ⊢
  simp only [hpaths]
  split
  · rfl
  split
  · rfl
  split
  · rfl
  split
  · rfl
  · split <;> rfl

theorem packBody_withLife (s l : State) : packBody (s.withLife l) = (packBody s).withLife l := by
  have hread : (s.withLife l).inSymbols s.inLen.toNat =
      ((s.inSymbols s.inLen.toNat).1, (s.inSymbols s.inLen.toNat).2.withLife l) := rfl
  have hcap : (s.withLife l).payBitCap = s.payBitCap := rfl
  simp only [packBody, State.withLife] at hread hcap ⊢
  simp only [hread, hcap]
  split
  · rfl
  · split <;> rfl

/-- Where a command's body does not see the lifecycle's registers, it ends the same way whatever they are. -/
theorem exec_ended_withLife {i : Instr} {s t : State}
    (hblind : ∀ u l, bodyOf i (u.withLife l) = (bodyOf i u).withLife l) (hexec : exec i s = .next t) :
    (∃ u : State, t = u.endedOk (opField (encode i)) ∧ ∀ l, bodyOf i (s.withLife l) = .done (u.withLife l)) ∨
    (∃ (u : State) (e : CmdError), t = u.endedErr (opField (encode i)) e.code.bits e.pos e.sym ∧
      ∀ l, bodyOf i (s.withLife l) = .raised e (u.withLife l)) := by
  have haccept : bodyOf i (s.accept (encode i)) = (bodyOf i s).withLife (s.accept (encode i)) :=
    hblind s (s.accept (encode i))
  cases hbody : bodyOf i s with
  | done u =>
    rw [hbody] at haccept
    cases (exec_done haccept).symm.trans hexec
    exact .inl ⟨_, rfl, fun l => by rw [hblind, hbody]; rfl⟩
  | raised e u =>
    rw [hbody] at haccept
    cases (exec_raised haccept).symm.trans hexec
    exact .inr ⟨_, e, rfl, fun l => by rw [hblind, hbody]; rfl⟩
  | stopped f =>
    rw [exec_eq, haccept, hbody] at hexec
    cases hexec

/-! ## ENCODE as a sequence (45_entrypoints R170) -/

/-- From zero counts FREQ_COUNT does not overflow: TOTAL has room for every input that IN_LEN can give. -/
theorem freqCountBody_of_zero_counts {s : State} (hdepth : s.inLen.toNat ≤ s.cfg.inDepth) :
    ∃ u, freqCountBody { s with freq := Vector.replicate 256 0, total := 0 } = .done u := by
  obtain ⟨f, t, hcount, -⟩ := countLoop_exact (xs := (s.inSymbols s.inLen.toNat).1) (total := 0) 0
    freqSum_replicate_zero.symm (by rw [inSymbols_length]; exact (Nat.zero_add _).trans_lt s.inLen.isLt)
  exact ⟨_, freqCountBody_done (s := { s with freq := Vector.replicate 256 0, total := 0 }) hdepth rfl hcount⟩

theorem encodeGenCodes_raised {s t : State} {e : CmdError} (h : genCodesBody s = .raised e t) :
    encodeGenCodes s = .raised e { t with bitLen := 0 } := by
  rw [encodeGenCodes, h]

section
variable {s s1 s2 s3 : State} (hdepth : s.inLen.toNat ≤ s.cfg.inDepth)
  (hcount : exec .freqCount { s with freq := Vector.replicate 256 0, total := 0 } = .next s1)
  (hbuild : exec .buildTree s1 = .next s2)
include hdepth hcount hbuild

/-- FREQ_COUNT on zero counts and BUILD_TREE end without an error, and ENCODE goes on from the data they leave. -/
theorem encodeBody_of_built (l : State) :
    encodeBody (s.withLife l) = (encodeGenCodes (s2.withLife l)).andThen packBody := by
  have hcounted : freqCountBody { s.withLife l with freq := Vector.replicate 256 0, total := 0 } =
      .done (s1.withLife l) := by
    obtain ⟨u, hu⟩ := freqCountBody_of_zero_counts hdepth
    rcases exec_ended_withLife (i := .freqCount) freqCountBody_withLife hcount with ⟨v, rfl, hv⟩ | ⟨v, e, -, hv⟩
    · exact hv l
    · cases hu.symm.trans (hv { s with freq := Vector.replicate 256 0, total := 0 })
  have hbuilt : buildTreeBody (s1.withLife l) = .done (s2.withLife l) := by
    rw [eq_of_exec_buildTree hbuild, buildTreeBody_withLife, buildTreeBody_eq]
    rfl
  rw [encodeBody, if_neg (show ¬ (s.withLife l).cfg.inDepth < (s.withLife l).inLen.toNat from Nat.not_lt.2 hdepth),
    hcounted, BodyResult.andThen, hbuilt, BodyResult.andThen]

/-- After a GEN_CODES without an error ENCODE ends as PACK does, but for LAST_OP, and DONE is set once. -/
theorem exec_encode_of_pack {s4 : State} (hgen : exec .genCodes s2 = .next s3) (herr : s3.err = false)
    (hpack : exec .pack s3 = .next s4) :
    exec .encode s = .next
      { s4 with lastOp := 7, irqStatus := s.irqStatus ||| 0b001 ||| (if s4.err then 0b010 else 0b000) } := by
  have hbuilt := encodeBody_of_built hdepth hcount hbuild (s.accept (encode .encode))
  obtain ⟨-, hop⟩ := Laws.CommandWord.encode
  have hgenBody : encodeGenCodes (s2.withLife (s.accept (encode .encode))) =
      .done (s3.withLife (s.accept (encode .encode))) := by
    rcases exec_ended_withLife (i := .genCodes) genCodesBody_withLife hgen with ⟨u, rfl, hu⟩ | ⟨u, e, rfl, -⟩
    · exact encodeGenCodes_done.2 (hu _)
    · cases herr
  rw [hgenBody, BodyResult.andThen] at hbuilt
  rcases exec_ended_withLife (i := .pack) packBody_withLife hpack with ⟨u, rfl, hu⟩ | ⟨u, e, rfl, hu⟩
  · rw [exec_done (i := .encode) (hbuilt.trans (hu _)), hop]
    simp [State.endedOk, State.withLife]
  · rw [exec_raised (i := .encode) (hbuilt.trans (hu _)), hop]
    simp [State.endedErr, State.withLife, BitVec.or_assoc]

/-- A GEN_CODES that ends with an error ends ENCODE, with BIT_LEN 0. -/
theorem exec_encode_of_genCodes_error (hgen : exec .genCodes s2 = .next s3) (herr : s3.err = true) :
    exec .encode s = .next { s3 with lastOp := 7, bitLen := 0, irqStatus := s.irqStatus ||| 0b011 } := by
  have hbuilt := encodeBody_of_built hdepth hcount hbuild (s.accept (encode .encode))
  obtain ⟨-, hop⟩ := Laws.CommandWord.encode
  rcases exec_ended_withLife (i := .genCodes) genCodesBody_withLife hgen with ⟨u, rfl, -⟩ | ⟨u, e, rfl, hu⟩
  · cases herr
  · rw [encodeGenCodes_raised (hu _), BodyResult.andThen] at hbuilt
    rw [exec_raised (i := .encode) hbuilt, hop]
    rfl

end

/-- Settles O42: the bodies do not see what acceptance and completion write, so in ENCODE they do what they do in the four
commands. -/
theorem encodeIsTheSequence : Obligations.EncodeIsTheSequence := by
  unfold Obligations.EncodeIsTheSequence
  intro s s1 s2 s3 hdepth hcount hbuild hgen
  exact ⟨fun s4 herr hpack => exec_encode_of_pack hdepth hcount hbuild hgen herr hpack,
    fun herr => exec_encode_of_genCodes_error hdepth hcount hbuild hgen herr⟩

end Sys2Proof.Machine

/-! Proofs: ENCODE of written input completes (45_entrypoints R170): its counts, its book, and its payload where
it fits. -/

namespace Sys2Proof.Machine

/-! ## The symbols of an input (41_frequency R110, 42_tree_builder R121) -/

section
variable {freq : Vector Word 256} {xs : List Byte} (hcounts : ∀ x : Byte, (freq[x.toNat]'x.isLt).toNat = xs.count x)
include hcounts

theorem freq_ne_zero_iff_mem (x : Byte) : freq[x.toNat]'x.isLt ≠ 0 ↔ x ∈ xs := by
  rw [← List.count_pos_iff, ← hcounts x, Nat.pos_iff_ne_zero, ne_eq, ne_eq, ← BitVec.toNat_inj]
  rfl

/-- An input has as many symbols with a count as distinct symbols. -/
theorem presentSymbols_length_eq_dedup : (presentSymbols freq).length = xs.dedup.length := by
  refine ((List.perm_ext_iff_of_nodup (presentSymbols_nodup freq) xs.nodup_dedup).2 fun x => ?_).length_eq
  rw [mem_presentSymbols, freq_ne_zero_iff_mem hcounts, List.mem_dedup]

end

/-! ## GEN_CODES on a tree just built (42_tree_builder R127, 43_codebook R146) -/

/-- GEN_CODES on a tree just built ends without an error, or with CODE_TOO_LONG where MAX_CODE_LEN is below 255. -/
theorem exec_genCodes_of_built (s : State) :
    (∃ cb, exec .genCodes (s.built.endedOk 3) = .next (({ s.built.endedOk 3 with cb := cb } : State).endedOk 4)) ∨
    s.cfg.maxCodeLen < 255 ∧ ∃ pos x, exec .genCodes (s.built.endedOk 3) =
      .next (({ s.built.endedOk 3 with cb := emptyBook } : State).endedErr 4 5 pos x) := by
  rcases nsym_cases (s.built.endedOk 3).nsym with hzero | hone | hseveral
  · exact .inl ⟨_, exec_genCodes_of_no_symbol rfl hzero⟩
  · exact .inl ⟨_, exec_genCodes_of_one_symbol rfl hone⟩
  · have htree := State.built_hasTree (s.built_nsym ▸ hseveral)
    by_cases hlong : ∃ p x, (s.built.endedOk 3).LeafAt p x ∧ s.cfg.maxCodeLen < p.length
    · obtain ⟨p, x, hraised, hleaf, hlonger, -⟩ := htree.exec_genCodes_of_tooLong hlong
      exact .inr ⟨hlonger.trans_le (htree.path_length hleaf).2, p.length, x, hraised⟩
    · obtain ⟨ls, -, hdone⟩ := htree.exec_genCodes_of_fits fun p x hleaf =>
        Nat.not_lt.1 fun hlt => hlong ⟨p, x, hleaf, hlt⟩
      exact .inl ⟨_, hdone⟩

section
variable {s t : State} (hexec : exec .genCodes (s.built.endedOk 3) = .next t) (herr : t.err = false)
include hexec herr

theorem prefixFree_of_exec_built (hparams : s.cfg.Ok) : PrefixFree t.cb := by
  rcases exec_ended_withLife (i := .genCodes) genCodesBody_withLife hexec with ⟨u, rfl, hu⟩ | ⟨u, e, rfl, -⟩
  · exact prefixFree_of_built (t := u.withLife s.built) hparams (hu s.built)
  · cases herr

/-- Where the tree is that of the counts of `xs`, the book is one for `xs`. -/
theorem bookFor_of_exec_built {xs : List Byte} (hparams : s.cfg.Ok)
    (hcounts : ∀ x, (s.freqAt x).toNat = xs.count x) : BookFor t.cb xs := by
  have hcovers := bookCoversPresentSymbols s _ t hparams (exec_buildTree s) hexec herr
  exact ⟨prefixFree_of_exec_built hexec herr hparams, fun x => (hcovers x).1.trans (freq_ne_zero_iff_mem hcounts x)⟩

/-- No code is longer than the tree is deep; a lone symbol's code has one bit (42_tree_builder R124, R127 item 5). -/
theorem codeLength_le_of_exec_built (x : Byte) :
    (t.cbAt x).len.toNat ≤ max 1 ((presentSymbols s.freq).length - 1) := by
  rcases nsym_cases (s.built.endedOk 3).nsym with hzero | hone | hseveral
  · cases (exec_genCodes_of_no_symbol rfl hzero).symm.trans hexec
    show (emptyBook[x.toNat]'x.isLt).len.toNat ≤ _
    rw [getElem_emptyBook]
    exact Nat.zero_le _
  · cases (exec_genCodes_of_one_symbol rfl hone).symm.trans hexec
    show ((setCb emptyBook _ _)[x.toNat]'x.isLt).len.toNat ≤ _
    rw [getElem_setCb]
    split
    · exact le_max_left _ _
    · rw [getElem_emptyBook]
      exact Nat.zero_le _
  · rw [State.endedOk_nsym, s.built_nsym] at hseveral
    have htree := State.built_hasTree hseveral
    by_cases hlen : (t.cbAt x).len = 0
    · rw [hlen]
      exact Nat.zero_le _
    · obtain ⟨⟨i, hi, -⟩, -⟩ := htree.leafAt_codeSeq hexec herr hlen
      have hdepth := State.built_depth (s := s) (by omega) hi
      rw [CbEntry.codeSeq_length] at hdepth
      omega

end

/-! ## The payload's length (44_bitpack R150) -/

theorem bookStream_length_le {cb : Vector CbEntry 256} {m : Nat} {xs : List Byte}
    (h : ∀ x : Byte, (cb[x.toNat]'x.isLt).len.toNat ≤ m) : (bookStream cb xs).length ≤ m * xs.length := by
  induction xs with
  | nil => exact Nat.zero_le _
  | cons x xs ih =>
    have hx := h x
    rw [bookStream_cons, List.length_append, CbEntry.codeSeq_length, List.length_cons, Nat.mul_succ]
    omega

/-- Symbols that all have codes which do not fit end the loop with PAYLOAD_OVERFLOW. -/
theorem packLoop_of_overflow {cb : Vector CbEntry 256} {cap : Nat} : ∀ {xs : List Byte} (i : Nat) {pos : Nat},
    (∀ x ∈ xs, (cb[x.toNat]'x.isLt).len ≠ 0) → pos ≤ cap → cap < pos + (bookStream cb xs).length →
    ∃ bits e, packLoop cb cap xs i pos = (bits, some e) ∧ e.code = .payloadOverflow
  | [], _, _, _, hpos, hfull => absurd hfull (Nat.not_lt.2 hpos)
  | x :: xs, i, pos, hcoded, hpos, hfull => by
    obtain ⟨hcode, hcoded⟩ := List.forall_mem_cons.1 hcoded
    by_cases hroom : cap < pos + (cb[x.toNat]'x.isLt).len.toNat
    · exact ⟨_, _, packLoop_overflow hcode hroom xs i, rfl⟩
    · rw [bookStream_cons, List.length_append, CbEntry.codeSeq_length, ← Nat.add_assoc] at hfull
      obtain ⟨bits, e, hstop, he⟩ := packLoop_of_overflow (i + 1) hcoded (Nat.not_lt.1 hroom) hfull
      refine ⟨(cb[x.toNat]'x.isLt).codeSeq ++ bits, e, ?_, he⟩
      simp only [packLoop, if_neg hcode, if_neg hroom, hstop]

/-! ## ENCODE of written input (45_entrypoints R170) -/

theorem State.EncodedTo.report {s t : State} {xs : List Byte} (h : s.EncodedTo t xs) :
    t.errCode = 0 ∧ t.lastOp = 7 := by
  obtain ⟨ht, -⟩ := h
  rw [ht]
  exact ⟨rfl, rfl⟩

/-- `s` after FREQ_COUNT on zero counts has left the counts `freq` and TOTAL `total`. -/
def State.counted (s : State) (freq : Vector Word 256) (total : Word) : State :=
  ({ s with freq := freq, total := total } : State).endedOk 2

/-- `s` after BUILD_TREE and a GEN_CODES without error that has left the book `cb`. -/
def State.coded (s : State) (cb : Vector CbEntry 256) : State :=
  ({ s.built.endedOk 3 with cb := cb } : State).endedOk 4

section
variable {s : State} {xs : List Byte} (hlen : s.inLen.toNat = xs.length) (hdepth : xs.length ≤ s.cfg.inDepth)
  (hmem : Memory.Holds s.mem Config.inBase xs)
include hlen hdepth hmem

theorem exists_exec_freqCount_of_zero_counts : ∃ freq total,
    exec .freqCount { s with freq := Vector.replicate 256 0, total := 0 } = .next (s.counted freq total) ∧
    total.toNat = xs.length ∧ ∀ x : Byte, (freq[x.toNat]'x.isLt).toNat = xs.count x := by
  obtain ⟨t, hexec, ht, htotal, hcounts⟩ := freqCountCounts { s with freq := Vector.replicate 256 0, total := 0 } xs
    freqSum_replicate_zero.symm hlen hdepth hmem ((Nat.zero_add _).trans_lt (hlen ▸ s.inLen.isLt))
  refine ⟨t.freq, t.total, hexec.trans (congrArg _ ht), htotal.trans (Nat.zero_add _), fun x => (hcounts x).trans ?_⟩
  simp [State.freqAt]

variable {freq : Vector Word 256} {total : Word} {cb : Vector CbEntry 256}
  (hcount : exec .freqCount { s with freq := Vector.replicate 256 0, total := 0 } = .next (s.counted freq total))
  (hgen : exec .genCodes ((s.counted freq total).built.endedOk 3) = .next ((s.counted freq total).coded cb))
  (hbook : BookFor cb xs)
include hcount hgen hbook

/-- Where the codes of the book made fit, ENCODE ends without an error. -/
theorem exec_encode_of_fits (hparams : s.cfg.Ok) (htotal : total.toNat = xs.length)
    (hcounts : ∀ x : Byte, (freq[x.toNat]'x.isLt).toNat = xs.count x)
    (hfit : (bookStream cb xs).length ≤ s.cfg.payDepth * 8) :
    ∃ t, exec .encode s = .next t ∧ t.cb = cb ∧ s.EncodedTo t xs := by
  have hcodes := hbook.2
  obtain ⟨t, hpack, ht, hbits, hflush⟩ := packResult ((s.counted freq total).coded cb) xs hparams hlen hdepth hmem
    (fun x hx => (hcodes x).2 hx) hfit
  obtain ⟨mem, bitLen, rfl⟩ : ∃ mem bitLen,
      t = ({ (s.counted freq total).coded cb with mem := mem, bitLen := bitLen } : State).endedOk 5 := ⟨_, _, ht⟩
  refine ⟨_, exec_encode_of_pack (hlen.trans_le hdepth) hcount (exec_buildTree _) hgen rfl hpack, rfl, ?_, htotal,
    hcounts, hbook, hbits, hflush⟩
  simp [State.endedOk, State.coded, State.counted, State.built]

/-- Where they do not, ENCODE's PACK stops. -/
theorem exec_encode_of_overflow (hfull : s.cfg.payDepth * 8 < (bookStream cb xs).length) :
    ∃ t, exec .encode s = .next t ∧ t.cb = cb ∧ t.errCode = 7 ∧ t.bitLen = 0 ∧ t.lastOp = 7 := by
  obtain ⟨-, hcodes⟩ := hbook
  obtain ⟨bits, e, hstop, he⟩ := packLoop_of_overflow (cb := cb) (cap := s.payBitCap) 0
    (fun x hx => (hcodes x).2 hx) (Nat.zero_le _) ((Nat.zero_add _).symm ▸ hfull)
  obtain ⟨t, hpack, ht, -⟩ := exec_pack_of_stop (s := (s.counted freq total).coded cb) hlen hdepth hmem hstop
  refine ⟨_, exec_encode_of_pack (hlen.trans_le hdepth) hcount (exec_buildTree _) hgen rfl hpack, ?_, ?_, ?_, rfl⟩
  · exact congrArg State.cb ht
  · exact (congrArg State.errCode ht).trans (congrArg ErrCode.bits he)
  · exact congrArg State.bitLen ht

end

/-- Settles O43: FREQ_COUNT counts the input, GEN_CODES makes a book for it or finds a code too long
(`exec_genCodes_of_built`), and with a book the payload fits (`exec_encode_of_fits`) or not
(`exec_encode_of_overflow`). -/
theorem encodeCompletes : Obligations.EncodeCompletes := by
  unfold Obligations.EncodeCompletes
  intro s xs hparams hlen hdepth hmem
  obtain ⟨freq, total, hcount, htotal, hcounts⟩ := exists_exec_freqCount_of_zero_counts hlen hdepth hmem
  rcases exec_genCodes_of_built (s.counted freq total) with ⟨cb, hgen⟩ | ⟨hmax, pos, x, hgen⟩
  · have hbook : BookFor cb xs := bookFor_of_exec_built hgen rfl hparams hcounts
    rcases Nat.lt_or_ge (s.cfg.payDepth * 8) (bookStream cb xs).length with hfull | hfit
    · obtain ⟨t, hexec, rfl, hcode, hbits, hop⟩ :=
        exec_encode_of_overflow hlen hdepth hmem hcount hgen hbook hfull
      refine ⟨fun _ hroom => ?_, fun _ => ⟨t, hexec, hbook, fun hfit => absurd hfull (Nat.not_lt.2 hfit),
        fun _ => ⟨hcode, hbits, hop⟩⟩, t, hexec, hop, .inr (.inr ⟨hcode, hbits⟩)⟩
      have hlength : (bookStream t.cb xs).length ≤ max 1 (xs.dedup.length - 1) * xs.length := by
        rw [← presentSymbols_length_eq_dedup hcounts]
        exact bookStream_length_le (codeLength_le_of_exec_built hgen rfl)
      omega
    · obtain ⟨t, hexec, rfl, hencoded⟩ :=
        exec_encode_of_fits hlen hdepth hmem hcount hgen hbook hparams htotal hcounts hfit
      obtain ⟨hcode, hop⟩ := hencoded.report
      exact ⟨fun _ _ => ⟨t, hexec, hencoded⟩, fun _ => ⟨t, hexec, hbook, fun _ => hencoded,
        fun hfull => absurd hfull (Nat.not_lt.2 hfit)⟩, t, hexec, hop, .inl hcode⟩
  · have hexec := exec_encode_of_genCodes_error (hlen.trans_le hdepth) hcount (exec_buildTree _) hgen rfl
    have hshort : s.cfg.maxCodeLen ≠ 255 := Nat.ne_of_lt hmax
    exact ⟨fun h => absurd h hshort, fun h => absurd h hshort, _, hexec, rfl, .inr (.inl ⟨rfl, hmax, rfl, rfl, rfl⟩)⟩

end Sys2Proof.Machine

/-! Proofs: the bus errors (60_exceptions R185), by what an address reaches, and the interrupt line (R189). -/

namespace Sys2Proof.Machine

/-! ## What an address reaches (10_state R23, 20_memory R62) -/

/-- The aligned addresses below 0x80 are the registers' offsets: the map has no gap. -/
theorem exists_offset_of_lt {a : BitVec 18} (halign : a.toNat % 4 = 0) (hlow : a.toNat < 0x80) :
    ∃ r : Reg, a = r.offset := by
  have hmap : ∀ k : Fin 32, (Reg.ofOffset (4 * k.val)).map Reg.offset = some (BitVec.ofNat 18 (4 * k.val)) := by decide
  obtain ⟨r, -, hr⟩ := Option.map_eq_some_iff.1 (hmap ⟨a.toNat / 4, by omega⟩)
  refine ⟨r, BitVec.eq_of_toNat_eq ?_⟩
  have hk : a.toNat / 4 * 4 = a.toNat := Nat.div_mul_cancel (Nat.dvd_of_mod_eq_zero halign)
  rw [hr, Nat.mul_comm, hk, BitVec.ofNat_toNat, BitVec.setWidth_eq]

/-- An address above the registers is absent exactly where it lies in no buffer: a window holds the largest depth
(00_scope R5). -/
theorem addrAbsent_iff_not_inBuffer {p : Params} (hp : p.Ok) {a : BitVec 18} (hhigh : 0x80 ≤ a.toNat) :
    AddrAbsent p a.toNat ↔ ¬ inBuffer p a.toNat := by
  obtain ⟨⟨-, -, hin⟩, ⟨-, -, hout⟩, ⟨-, -, hpay⟩, -⟩ := hp
  have ha := a.isLt
  simp only [AddrAbsent, inBuffer, Config.inBase, Config.outBase, Config.payBase]
  omega

theorem not_addrAbsent_of_lt {p : Params} {a : Nat} (hlow : a < 0x80) : ¬ AddrAbsent p a := by
  simp only [AddrAbsent]
  omega

theorem targetOf_absent {p : Params} {a : BitVec 18} (hhigh : 0x80 ≤ a.toNat) (hout : ¬ inBuffer p a.toNat) :
    targetOf p a = .absent := by
  simp only [targetOf, if_neg (Nat.not_lt.2 hhigh), if_neg hout]

/-- An aligned address is a register's offset, or absent, or lies in a buffer. -/
theorem aligned_address_cases {p : Params} (hp : p.Ok) {a : BitVec 18} (halign : a.toNat % 4 = 0) :
    (∃ r : Reg, a = r.offset) ∨
    (0x80 ≤ a.toNat ∧ AddrAbsent p a.toNat ∧ targetOf p a = .absent) ∨
    (0x80 ≤ a.toNat ∧ ¬ AddrAbsent p a.toNat ∧ inBuffer p a.toNat) := by
  rcases Nat.lt_or_ge a.toNat 0x80 with hlow | hhigh
  · exact .inl (exists_offset_of_lt halign hlow)
  · have habsent := addrAbsent_iff_not_inBuffer hp hhigh
    by_cases hin : inBuffer p a.toNat
    · exact .inr (.inr ⟨hhigh, fun h => habsent.1 h hin, hin⟩)
    · exact .inr (.inl ⟨hhigh, habsent.2 hin, targetOf_absent hhigh hin⟩)

/-! ## The lists of addresses and the registers they name -/

theorem Reg.offset_lt (r : Reg) : r.offset.toNat < 0x80 := by
  cases r with
  | cbCode k => revert k; decide
  | _ => decide

/-- R204's list of addresses names the busy-exempt registers. -/
theorem addrExempt_offset_iff (r : Reg) : AddrExempt r.offset.toNat ↔ r.busyExempt = true := by
  cases r with
  | cbCode k => revert k; decide
  | _ => decide

theorem Reg.offset_eq_ctrl_iff (r : Reg) : r.offset = 0x008 ↔ r = .ctrl := by
  cases r with
  | cbCode k => revert k; decide
  | _ => decide

theorem not_addrExempt_of_ge {a : Nat} (hhigh : 0x80 ≤ a) : ¬ AddrExempt a := by
  simp only [AddrExempt, List.mem_cons, List.not_mem_nil, or_false]
  omega

theorem not_addrReadOnly_of_ge {a : Nat} (hhigh : 0x80 ≤ a) : ¬ AddrReadOnly a := by
  simp only [AddrReadOnly, List.mem_cons, List.not_mem_nil, or_false]
  omega

theorem ne_of_toNat_lt_of_ge {a b : BitVec 18} (hlow : b.toNat < 0x80) (hhigh : 0x80 ≤ a.toNat) : a ≠ b := by
  rintro rfl
  omega

/-! ## Reads -/

/-- The causes of SLVERR at a read (60_exceptions R185). -/
abbrev ReadRefused (s : State) (a : BitVec 18) : Prop :=
  a.toNat % 4 ≠ 0 ∨ AddrAbsent s.cfg a.toNat ∨ (s.engine ≠ .idle ∧ ¬ AddrExempt a.toNat)

theorem readRefused_offset_iff {s : State} {r : Reg} :
    ReadRefused s r.offset ↔ ¬ (s.engine = .idle ∨ r.busyExempt = true) := by
  rw [ReadRefused, addrExempt_offset_iff, not_or]
  simp only [r.offset_aligned, not_addrAbsent_of_lt r.offset_lt, ne_eq, not_true, false_or]

/-- A read while busy that the register's lockout refuses (70_reset_and_hazards R204). -/
theorem hostRead_offset_locked {s : State} {r : Reg} (h : ¬ (s.engine = .idle ∨ r.busyExempt = true)) :
    hostRead s r.offset = (0, .slverr, s) := by
  simp only [hostRead, targetOf_offset, if_neg h, ite_self]

theorem hostRead_absent {s : State} {a : BitVec 18} (h : targetOf s.cfg a = .absent) :
    hostRead s a = (0, .slverr, s) := by
  simp only [hostRead, h, ite_self]

theorem hostRead_buffer_locked {s : State} {a : BitVec 18} (hin : inBuffer s.cfg a.toNat) (hbusy : s.engine ≠ .idle) :
    hostRead s a = (0, .slverr, s) := by
  simp only [hostRead, targetOf_of_inBuffer hin, if_neg hbusy, ite_self]

theorem hostRead_buffer_okay {s : State} {a : BitVec 18} (halign : a.toNat % 4 = 0) (hin : inBuffer s.cfg a.toNat)
    (hidle : s.engine = .idle) : (hostRead s a).2.1 = .okay := by
  simp only [hostRead, halign, targetOf_of_inBuffer hin, ne_eq, not_true, if_false, if_pos hidle]

/-- A read is refused, with a cause and no effect, or there is no cause and it answers OKAY. -/
theorem hostRead_refused_or_okay {s : State} (hp : s.cfg.Ok) (a : BitVec 18) :
    (ReadRefused s a ∧ hostRead s a = (0, .slverr, s)) ∨ (¬ ReadRefused s a ∧ (hostRead s a).2.1 = .okay) := by
  by_cases halign : a.toNat % 4 = 0
  · rcases aligned_address_cases hp halign with ⟨r, rfl⟩ | ⟨-, habsent, htarget⟩ | ⟨hhigh, hpresent, hin⟩
    · by_cases hfree : s.engine = .idle ∨ r.busyExempt = true
      · exact .inr ⟨fun h => readRefused_offset_iff.1 h hfree, by rw [hostRead_offset hfree]⟩
      · exact .inl ⟨readRefused_offset_iff.2 hfree, hostRead_offset_locked hfree⟩
    · exact .inl ⟨.inr (.inl habsent), hostRead_absent htarget⟩
    · by_cases hidle : s.engine = .idle
      · exact .inr ⟨by simp [ReadRefused, halign, hpresent, hidle], hostRead_buffer_okay halign hin hidle⟩
      · exact .inl ⟨.inr (.inr ⟨hidle, not_addrExempt_of_ge hhigh⟩), hostRead_buffer_locked hin hidle⟩
  · exact .inl ⟨.inl halign, by rw [hostRead, if_pos halign]⟩

/-! ## Writes -/

/-- The registers' own causes of SLVERR at a write: a read-only register, a CB_LEN value above MAX_CODE_LEN, or a FREQ_DATA
value with which TOTAL would pass 2^32 − 1 (60_exceptions R185, 10_state R43, 41_frequency R111). -/
abbrev ValueRefused (s : State) (a : BitVec 18) (d : Word) : Prop :=
  AddrReadOnly a.toNat ∨ (a = 0x04C ∧ s.cfg.maxCodeLen < d.toNat % 256) ∨
    (a = 0x040 ∧ (s.total.toNat : Int) - (s.freqAt (s.sel.setWidth 8)).toNat + d.toNat > 0xFFFFFFFF)

/-- The causes of SLVERR at a write (60_exceptions R185). -/
abbrev WriteRefused (s : State) (a : BitVec 18) (strb : BitVec 4) (d : Word) : Prop :=
  a.toNat % 4 ≠ 0 ∨ strb ≠ 0xF ∨ AddrAbsent s.cfg a.toNat ∨ ValueRefused s a d ∨
    (s.engine ≠ .idle ∧ ¬ AddrExempt a.toNat)

theorem writeCbLen_eq_none_iff {s : State} {x : Byte} {d : Word} :
    writeCbLen s x d = none ↔ s.cfg.maxCodeLen < d.toNat % 256 := by
  refine ⟨fun h => Nat.lt_of_not_le fun hfits => ?_, writeCbLen_refused x⟩
  rw [writeCbLen_taken x hfits] at h
  cases h

theorem writeFreq_eq_none_iff {s : State} {x : Byte} {d : Word} :
    writeFreq s x d = none ↔ (s.total.toNat : Int) - (s.freqAt x).toNat + d.toNat > 0xFFFFFFFF := by
  simp only [writeFreq, ite_eq_left_iff, reduceCtorEq, imp_false, not_not]

/-- A register other than CTRL refuses a write exactly for the causes of its own. -/
theorem writeReg_eq_none_iff {s : State} {d : Word} {r : Reg} (hr : r ≠ .ctrl) :
    writeReg s d r = none ↔ ValueRefused s r.offset d := by
  cases r with
  | ctrl => exact absurd rfl hr
  | cbLen => simp [writeReg, writeCbLen_eq_none_iff, ValueRefused, AddrReadOnly, Reg.offset]
  | freqData => simp [writeReg, writeFreq_eq_none_iff, ValueRefused, AddrReadOnly, Reg.offset, State.selSymbol]
  | cbCode k => fin_cases k <;> simp [writeReg, ValueRefused, AddrReadOnly, Reg.offset]
  | _ => simp [writeReg, ValueRefused, AddrReadOnly, Reg.offset]


/-- What a refused write leaves: DROP set where a whole-word CTRL write was dropped, else nothing changed
(70_reset_and_hazards R205). -/
def State.afterRefusedWrite (s : State) (a : BitVec 18) (strb : BitVec 4) : State :=
  if a = 0x008 ∧ strb = 0xF ∧ s.engine ≠ .idle then { s with irqStatus := s.irqStatus ||| 0b100 } else s

/-- The two ways a write can go: refused for a cause, with no effect but DROP, or answered OKAY and without a cause. -/
abbrev WriteRefusedOrOkay (s : State) (a : BitVec 18) (strb : BitVec 4) (d : Word) : Prop :=
  (WriteRefused s a strb d ∧ hostWrite s a strb d = (.slverr, s.afterRefusedWrite a strb)) ∨
    (¬ WriteRefused s a strb d ∧ (hostWrite s a strb d).1 = .okay)

theorem afterRefusedWrite_of_ne_ctrl {s : State} {a : BitVec 18} (ha : a ≠ 0x008) (strb : BitVec 4) :
    s.afterRefusedWrite a strb = s := if_neg fun h => ha h.1

/-- A misaligned or partial write is refused and is no CTRL write, so it sets no DROP (20_memory R61). -/
theorem hostWrite_partial {s : State} {a : BitVec 18} {strb : BitVec 4} (h : a.toNat % 4 ≠ 0 ∨ strb ≠ 0xF) (d : Word) :
    hostWrite s a strb d = (.slverr, s.afterRefusedWrite a strb) := by
  have hnodrop : ¬ (a = 0x008 ∧ strb = 0xF ∧ s.engine ≠ .idle) := by
    rintro ⟨rfl, rfl, -⟩
    revert h
    decide
  rw [hostWrite, if_pos h, State.afterRefusedWrite, if_neg hnodrop]

/-- At a register's offset, a whole word is refused for the register's own causes and while the block is locked. -/
theorem writeRefused_offset_iff {s : State} {r : Reg} {d : Word} :
    WriteRefused s r.offset 0xF d ↔ ValueRefused s r.offset d ∨ ¬ (s.engine = .idle ∨ r.busyExempt = true) := by
  rw [WriteRefused, addrExempt_offset_iff, not_or]
  simp only [r.offset_aligned, not_addrAbsent_of_lt r.offset_lt, ne_eq, not_true, false_or]

theorem not_valueRefused_ctrl {s : State} {d : Word} : ¬ ValueRefused s Reg.ctrl.offset d := by
  simp [ValueRefused, AddrReadOnly, Reg.offset]

theorem not_valueRefused_of_ge {s : State} {a : BitVec 18} (hhigh : 0x80 ≤ a.toNat) (d : Word) :
    ¬ ValueRefused s a d := by
  rintro (hread | ⟨ha, -⟩ | ⟨ha, -⟩)
  · exact not_addrReadOnly_of_ge hhigh hread
  · exact ne_of_toNat_lt_of_ge (by decide) hhigh ha
  · exact ne_of_toNat_lt_of_ge (by decide) hhigh ha

/-- A CTRL write is accepted by an idle block, else dropped (40_control R100, 70_reset_and_hazards R205). -/
theorem ctrlWrite_refused_or_okay (s : State) (d : Word) : WriteRefusedOrOkay s Reg.ctrl.offset 0xF d := by
  rw [WriteRefusedOrOkay, writeRefused_offset_iff, hostWrite_ctrl, writeCtrl]
  by_cases hidle : s.engine = .idle
  · exact .inr ⟨not_or.2 ⟨not_valueRefused_ctrl, not_not.2 (.inl hidle)⟩, by rw [if_pos hidle]⟩
  · refine .inl ⟨.inr (by simp [hidle, Reg.busyExempt]), ?_⟩
    rw [if_neg hidle, State.afterRefusedWrite, if_pos ⟨rfl, rfl, hidle⟩]
    rfl

/-- A whole-word write of another register is refused by `writeReg` or, while busy, by the lockout. -/
theorem registerWrite_refused_or_okay {s : State} {r : Reg} (hr : r ≠ .ctrl) (d : Word) :
    WriteRefusedOrOkay s r.offset 0xF d := by
  rw [WriteRefusedOrOkay, writeRefused_offset_iff, ← writeReg_eq_none_iff hr,
    afterRefusedWrite_of_ne_ctrl (mt r.offset_eq_ctrl_iff.1 hr)]
  cases hw : writeReg s d r with
  | none => exact .inl ⟨.inl rfl, hostWrite_offset_refused hr hw⟩
  | some t =>
    by_cases hfree : s.engine = .idle ∨ r.busyExempt = true
    · exact .inr ⟨by simp [hfree], by rw [hostWrite_offset hfree hw]⟩
    · obtain ⟨hbusy, hlocked⟩ := not_or.1 hfree
      exact .inl ⟨.inr hfree, hostWrite_offset_locked hr hbusy (Bool.eq_false_iff.2 hlocked) d⟩

theorem hostWrite_absent {s : State} {a : BitVec 18} (h : targetOf s.cfg a = .absent) (strb : BitVec 4) (d : Word) :
    hostWrite s a strb d = (.slverr, s) := by
  simp only [hostWrite, h, ite_self]

theorem hostWrite_buffer_locked {s : State} {a : BitVec 18} (hin : inBuffer s.cfg a.toNat) (hbusy : s.engine ≠ .idle)
    (strb : BitVec 4) (d : Word) : hostWrite s a strb d = (.slverr, s) := by
  simp only [hostWrite, targetOf_of_inBuffer hin, if_neg hbusy, ite_self]

/-- A whole-word write of a buffer is refused only while the block is busy. -/
theorem windowWrite_refused_or_okay {s : State} {a : BitVec 18} (halign : a.toNat % 4 = 0) (hhigh : 0x80 ≤ a.toNat)
    (hpresent : ¬ AddrAbsent s.cfg a.toNat) (hin : inBuffer s.cfg a.toNat) (d : Word) :
    WriteRefusedOrOkay s a 0xF d := by
  rw [WriteRefusedOrOkay, afterRefusedWrite_of_ne_ctrl (ne_of_toNat_lt_of_ge (by decide) hhigh)]
  by_cases hidle : s.engine = .idle
  · have hvalue := not_valueRefused_of_ge (s := s) hhigh d
    exact .inr ⟨by simp [WriteRefused, halign, hpresent, hvalue, hidle], by rw [hostWrite_buffer hidle halign hin d]⟩
  · exact .inl ⟨.inr (.inr (.inr (.inr ⟨hidle, not_addrExempt_of_ge hhigh⟩))), hostWrite_buffer_locked hin hidle 0xF d⟩

/-- Every write is refused for a cause or answers OKAY without one, by what its address reaches. -/
theorem hostWrite_refused_or_okay {s : State} (hp : s.cfg.Ok) (a : BitVec 18) (strb : BitVec 4) (d : Word) :
    WriteRefusedOrOkay s a strb d := by
  by_cases halign : a.toNat % 4 = 0
  · by_cases hstrb : strb = 0xF
    · subst hstrb
      rcases aligned_address_cases hp halign with ⟨r, rfl⟩ | ⟨hhigh, habsent, htarget⟩ | ⟨hhigh, hpresent, hin⟩
      · by_cases hr : r = .ctrl
        · exact hr ▸ ctrlWrite_refused_or_okay s d
        · exact registerWrite_refused_or_okay hr d
      · rw [WriteRefusedOrOkay, afterRefusedWrite_of_ne_ctrl (ne_of_toNat_lt_of_ge (by decide) hhigh)]
        exact .inl ⟨.inr (.inr (.inl habsent)), hostWrite_absent htarget _ d⟩
      · exact windowWrite_refused_or_okay halign hhigh hpresent hin d
    · exact .inl ⟨.inr (.inl hstrb), hostWrite_partial (.inr hstrb) d⟩
  · exact .inl ⟨.inl halign, hostWrite_partial (.inl halign) d⟩

/-- Settles O49: a transaction is refused for a cause, or answers OKAY and has none (`hostRead_refused_or_okay`,
`hostWrite_refused_or_okay`). -/
theorem busErrors : Obligations.BusErrors := by
  unfold Obligations.BusErrors
  intro s a hp
  have hread := hostRead_refused_or_okay hp a
  refine ⟨?_, ?_, fun strb d => ?_⟩
  · rcases hread with ⟨hcause, hres⟩ | ⟨hnone, hres⟩
    · exact iff_of_true (by rw [hres]) hcause
    · exact iff_of_false (by simp [hres]) hnone
  · intro herr
    rcases hread with ⟨-, hres⟩ | ⟨-, hres⟩
    · simp [hres]
    · simp [hres] at herr
  · rcases hostWrite_refused_or_okay hp a strb d with ⟨hcause, hres⟩ | ⟨hnone, hres⟩
    · refine ⟨iff_of_true (by rw [hres]) ?_, fun _ => by rw [hres]; rfl⟩
      simpa only [WriteRefused, ValueRefused, or_assoc] using hcause
    · refine ⟨iff_of_false (by simp [hres]) ?_, fun herr => by simp [hres] at herr⟩
      simpa only [WriteRefused, ValueRefused, or_assoc] using hnone

/-! ## The interrupt line (60_exceptions R189) -/

theorem irq_eq_true_iff (s : State) :
    s.irq = true ↔ ∃ k, k < 3 ∧ s.irqStatus.getLsbD k = true ∧ s.irqEn.getLsbD k = true := by
  simp only [State.irq, Bool.or_eq_true, Bool.and_eq_true]
  constructor
  · rintro ((h | h) | h)
    · exact ⟨0, by decide, h⟩
    · exact ⟨1, by decide, h⟩
    · exact ⟨2, by decide, h⟩
  · rintro ⟨k, hk, h⟩
    interval_cases k
    · exact .inl (.inl h)
    · exact .inl (.inr h)
    · exact .inr h

theorem irq_of_irqStatus_zero {s : State} (h : s.irqStatus = 0) : s.irq = false := by
  simp [State.irq, h]

/-- Writing 1 to all three IRQ_STATUS bits clears them (10_state R29). -/
theorem clear_all_irqStatus (v : BitVec 3) : v &&& ~~~((0x7 : Word).extractLsb' 0 3) = 0 := by
  have hmask : ~~~((0x7 : Word).extractLsb' 0 3) = 0 := by decide
  rw [hmask]
  exact BitVec.and_zero

/-- Settles O55: a completed command has DONE pending (`completionOfEveryCommand`), and the host's write of 7 leaves no
bit pending (`clear_all_irqStatus`). -/
theorem irqLine : Obligations.IrqLine := by
  unfold Obligations.IrqLine
  refine ⟨irq_eq_true_iff, fun i s t hen hexec => ?_, fun s => ?_⟩
  · obtain ⟨-, hdone, -, -, -, -, -, -, hirqEn, -⟩ := completionOfEveryCommand i s t hexec
    exact (irq_eq_true_iff t).2 ⟨0, by decide, hdone, hirqEn ▸ hen⟩
  · obtain ⟨-, hwrite, -⟩ := registerWrites s 0x7
    rw [hwrite]
    exact irq_of_irqStatus_zero (clear_all_irqStatus s.irqStatus)

end Sys2Proof.Machine

/-! Proofs: a CTRL write to a busy block is dropped (70_reset_and_hazards R205), and every accepted command completes
(R210): each step uses up part of a bound on the steps that are left. -/

namespace Sys2Proof.Machine

/-! ## Dropped commands (70_reset_and_hazards R205) -/

theorem hostWrite_ctrl_busy {s : State} (hbusy : s.engine ≠ .idle) (w : Word) :
    hostWrite s Reg.ctrl.offset 0xF w = (.slverr, { s with irqStatus := s.irqStatus ||| irqDrop }) := by
  rw [hostWrite_ctrl, writeCtrl, if_neg hbusy]

/-- Settles O6: the port drops the write (`hostWrite_ctrl_busy`), of which STATUS shows nothing, and no illegal word
makes the write wait (`State.endsAtOnce_iff`). -/
theorem ctrlWriteWhileBusyIsDropped : Obligations.CtrlWriteWhileBusyIsDropped := by
  unfold Obligations.CtrlWriteWhileBusyIsDropped
  refine ⟨fun s w hbusy => ?_, fun s w es hbusy hlegal hev => ?_⟩
  · have hdrop := hostWrite_ctrl_busy hbusy w
    exact ⟨hdrop, congrArg (fun r => r.2.status) hdrop⟩
  · have hnow : ¬ s.endsAtOnce = true := fun hwaits =>
      have ⟨v, hv, hill⟩ := State.endsAtOnce_iff.1 hwaits
      hlegal v hv hill
    have hdrop := hostWrite_ctrl_busy (s := { s with events := es }) hbusy w
    exact ⟨_, step_of_txn hev hnow, congrArg (fun r => { r.2 with resp := some (.write r.1) }) hdrop,
      congrArg (fun r => r.2.status) hdrop⟩

/-! ## What leaves the events to come as they are (00_scope R9) -/

theorem writeReg_events {s t : State} {d : Word} {r : Reg} (hw : writeReg s d r = some t) : t.events = s.events := by
  cases r with
  | irqEn | irqStatus | inLen | bitLen | sel | cbCode => cases hw; rfl
  | freqData =>
    simp only [writeReg, writeFreq] at hw
    split at hw <;> cases hw
    rfl
  | cbLen =>
    simp only [writeReg, writeCbLen] at hw
    split at hw <;> cases hw
    rfl
  | _ => cases hw

theorem writeCtrl_events (s : State) (w : Word) : (writeCtrl s w).2.events = s.events := by
  unfold writeCtrl
  split <;> rfl

theorem hostWrite_events (s : State) (a : BitVec 18) (strb : BitVec 4) (d : Word) :
    (hostWrite s a strb d).2.events = s.events := by
  rcases hostWrite_cases s a strb d with hw | ⟨-, hw⟩ | ⟨r, t, -, -, hreg, hw⟩ | ⟨b, -, -, hw⟩ <;> rw [hw]
  · exact writeCtrl_events s d
  · exact writeReg_events hreg
  · exact State.writeBytes_events s b (bytesOfWord d)

/-- The host's transaction decides nothing about what happens after it. -/
theorem hostTxn_events (x : Txn) (s : State) : (hostTxn x s).events = s.events := by
  cases x with
  | read a =>
    obtain ⟨n, -, hread⟩ := hostRead_state s a
    simp only [hostTxn, hread]
  | write a strb d => exact hostWrite_events s a strb d

/-- Whatever the engine was doing, its move ends it (40_control R101, 70_reset_and_hazards R201). -/
theorem stepEngine_ends {s t : State} (hmove : stepEngine s = .next t) : t.engine = .idle ∧ t.events = s.events := by
  rcases stepEngine_cases hmove with ⟨-, rfl⟩ | ⟨hidle, rfl⟩ | ⟨w, -, hexec⟩
  · exact ⟨rfl, rfl⟩
  · exact ⟨hidle, rfl⟩
  · obtain ⟨hidle, -, -, -, -, -, -, -, -, -, hevents, -⟩ := completionOfEveryCommand (decode w) s t hexec
    exact ⟨hidle, hevents⟩

/-! ## The steps that are left (70_reset_and_hazards R210) -/

/-- A bound on the steps until the engine is idle with no event left: two for each event, its own and one for an illegal
word's command before it, and one for what the engine is busy with. -/
def State.stepsLeft (s : State) : Nat := 2 * s.events.length + if s.engine = .idle then 0 else 1

theorem State.stepsLeft_of_idle {s : State} (hidle : s.engine = .idle) : s.stepsLeft = 2 * s.events.length := by
  rw [State.stepsLeft, if_pos hidle, Nat.add_zero]

theorem State.stepsLeft_of_busy {s : State} (hbusy : s.engine ≠ .idle) : s.stepsLeft = 2 * s.events.length + 1 := by
  rw [State.stepsLeft, if_neg hbusy]

theorem State.stepsLeft_bounds (s : State) :
    2 * s.events.length ≤ s.stepsLeft ∧ s.stepsLeft ≤ 2 * s.events.length + 1 := by
  by_cases hidle : s.engine = .idle
  · rw [State.stepsLeft_of_idle hidle]; omega
  · rw [State.stepsLeft_of_busy hidle]; omega

theorem State.stepsLeft_eq_zero_iff {s : State} : s.stepsLeft = 0 ↔ s.engine = .idle ∧ s.events = [] := by
  simp [State.stepsLeft, and_comm]

theorem stepEngine_stepsLeft {s t : State} (hmove : stepEngine s = .next t) : t.stepsLeft = 2 * s.events.length := by
  obtain ⟨hidle, hevents⟩ := stepEngine_ends hmove
  rw [State.stepsLeft_of_idle hidle, hevents]

/-- A step that takes an event leaves two fewer for the events, of which it may spend one on a busy engine. -/
theorem State.stepsLeft_le_of_event {s t : State} {e : Event} {es : List Event} (hev : s.events = e :: es)
    (hleft : t.stepsLeft ≤ 2 * es.length + 1) : t.stepsLeft ≤ s.stepsLeft - 1 := by
  have hs := s.stepsLeft_bounds.1
  rw [hev, List.length_cons] at hs
  omega

/-- Each step uses up one of the steps left, so long as there is one. -/
theorem step_stepsLeft_le {s t : State} (hstep : step s = .next t) : t.stepsLeft ≤ s.stepsLeft - 1 := by
  rcases step_cases hstep with ⟨hev, hmove⟩ | ⟨es, hev, hmove⟩ | ⟨x, es, hev, hwaits, hmove⟩ | ⟨x, es, hev, -, rfl⟩ |
    ⟨es, hev, rfl⟩
  · rw [stepEngine_stepsLeft hmove, hev]
    exact Nat.zero_le _
  · exact State.stepsLeft_le_of_event hev ((stepEngine_stepsLeft hmove).trans_le (Nat.le_succ _))
  · obtain ⟨w, hw, -⟩ := State.endsAtOnce_iff.1 hwaits
    have hbusy : s.engine ≠ .idle := by rw [hw]; exact Engine.noConfusion
    rw [stepEngine_stepsLeft hmove, State.stepsLeft_of_busy hbusy, Nat.add_sub_cancel]
  · have hleft := (hostTxn x { s with events := es }).stepsLeft_bounds.2
    rw [hostTxn_events] at hleft
    exact State.stepsLeft_le_of_event hev hleft
  · exact State.stepsLeft_le_of_event hev (State.stepsLeft_bounds _).2

theorem core_run_succ {s t : State} (hstep : step s = .next t) (k : Nat) :
    Host.Core.run core (k + 1) s = Host.Core.run core k t := by
  have hcore : core.step s = .next t := hstep
  simp only [Host.Core.run, hcore]

/-- A sound state's run is at rest after as many steps as are left, and stays so. -/
theorem run_completes : ∀ (k : Nat) {s : State}, s.Inv → s.stepsLeft ≤ k →
    ∃ t, Host.Core.run core k s = .next t ∧ t.engine = .idle ∧ t.events = []
  | 0, s, _, hleft => ⟨s, rfl, State.stepsLeft_eq_zero_iff.1 (Nat.le_zero.1 hleft)⟩
  | k + 1, s, hinv, hleft => by
    obtain ⟨u, hstep⟩ : ∃ u, step s = .next u := soundStateNeverStops s hinv
    have hu : u.Inv := stepKeepsInvariant s u hinv hstep
    have hdown : u.stepsLeft ≤ k := (step_stepsLeft_le hstep).trans (Nat.sub_le_of_le_add hleft)
    rw [core_run_succ hstep]
    exact run_completes k hu hdown

/-- Settles O60: a sound state's step answers a sound state with fewer steps left (`step_stepsLeft_le`), and the
steps left are at most one more than twice the events. -/
theorem everyCommandCompletes : Obligations.EveryCommandCompletes := by
  unfold Obligations.EveryCommandCompletes
  intro s hinv
  exact run_completes _ hinv s.stepsLeft_bounds.2

end Sys2Proof.Machine
